-- ==== Sys2Proof/Word.lean ====
section
/-!
DEFINITION. The word types of the GDE and its two pixel records. Widths are those the spec names
(00_scope.md R6, R7, R8; 10_state.md R27, R30, R34).
-/

namespace Sys2Proof

/-- One stream or memory byte (R8: `u8`). -/
abbrev Byte := BitVec 8

/-- A 16-bit stream field (R8: `u16`). -/
abbrev U16 := BitVec 16

/-- A CSR word, a cursor or a count (R6: `CSR_W` and `ADDR_W` are 32 bits). -/
abbrev U32 := BitVec 32

/-- A pixel index, below 2048 (10_state.md R30, R32: 11-bit symbols). -/
abbrev Sym := BitVec 11

/-- An LZW code, at most `MAX_CODE_WIDTH` = 12 bits (R7). -/
abbrev Code := BitVec 12

/-- A sub-block chain's data, one list per sub-block (30_encoding.md R77). -/
abbrev Chain := List (List Byte)

/-- One color-table entry (10_state.md R27). -/
structure Rgb where
  r : Byte
  g : Byte
  b : Byte
  deriving DecidableEq, Repr, Inhabited

/-- A canvas or frame pixel (10_state.md R34). -/
structure Pixel where
  r : Byte
  g : Byte
  b : Byte
  a : Byte
  deriving DecidableEq, Repr, Inhabited

end Sys2Proof
end

