-- ==== Sys2Proof/Syntax.lean ====
section
/-!
DEFINITION. The instructions of the GDE: one constructor per row of spec/opcode_table.json, with
every operand the row's format gives it (30_encoding.md R64 to R84). Bytes the spec reads and does
not check are operands too, so that no byte of an encoding is lost.
-/

namespace Sys2Proof

/-- Operands of HEADER (30_encoding.md R64, R65); `gct` is empty when `gctFlag` is off. -/
structure HeaderOp where
  version : List Byte
  width : U16
  height : U16
  gctFlag : Bool
  colorRes : BitVec 3
  sort : Bool
  gctSize : BitVec 3
  bgIndex : Byte
  aspect : Byte
  gct : List Rgb
  deriving DecidableEq, Repr

/-- Operands of EXT_GCE (30_encoding.md R67, R68). -/
structure GceOp where
  size : Byte
  rsvd : BitVec 3
  disp : BitVec 3
  ui : Bool
  tf : Bool
  delay : U16
  ti : Byte
  term : Byte
  deriving DecidableEq, Repr

/-- Operands of EXT_APP_NETSCAPE after its identifier (30_encoding.md R71, R72). -/
structure NetscapeOp where
  size : Byte
  auth : List Byte
  subSize : Byte
  subId : Byte
  loopCount : U16
  term : Byte
  deriving DecidableEq, Repr

/-- Operands of EXT_APP (30_encoding.md R71). -/
structure AppOp where
  size : Byte
  id : List Byte
  auth : List Byte
  data : Chain
  deriving DecidableEq, Repr

/-- Operands of IMAGE (30_encoding.md R74, R75); `lct` is empty when `lctFlag` is off. -/
structure ImageOp where
  left : U16
  top : U16
  width : U16
  height : U16
  lctFlag : Bool
  interlace : Bool
  sort : Bool
  rsvd : BitVec 2
  lctSize : BitVec 3
  lct : List Rgb
  minCode : Byte
  data : Chain
  deriving DecidableEq, Repr

/-- One constructor per row of the opcode table. -/
inductive Instr where
  /-- HEADER: signature "GIF" (42_block_parser.md R116). -/
  | header (op : HeaderOp)
  /-- BAD_SIGNATURE: any other three first bytes (R115). -/
  | badSignature (s0 s1 s2 : Byte)
  /-- EXT_GCE: `21 F9` (R121). -/
  | extGce (op : GceOp)
  /-- EXT_COMMENT: `21 FE` (R123). -/
  | extComment (data : Chain)
  /-- EXT_PLAINTEXT: `21 01` (R124). -/
  | extPlaintext (size : Byte) (hdr : List Byte) (data : Chain)
  /-- EXT_APP_NETSCAPE: `21 FF` with identifier "NETSCAPE" (R126). -/
  | extAppNetscape (op : NetscapeOp)
  /-- EXT_APP: `21 FF` with another identifier (R125). -/
  | extApp (op : AppOp)
  /-- EXT_UNKNOWN: `21` with any other label (R127). -/
  | extUnknown (label : Byte) (data : Chain)
  /-- IMAGE: `2C` (R128). -/
  | image (op : ImageOp)
  /-- TRAILER: `3B` (R130). -/
  | trailer
  /-- ILLEGAL_SENTINEL: any other sentinel (R119). -/
  | illegalSentinel (b : Byte)
  /-- LZW_CLEAR: the code `clear_code` (41_lzw.md R102). -/
  | lzwClear (c : Code)
  /-- LZW_EOI: the code `eoi_code` (R103). -/
  | lzwEoi (c : Code)
  /-- LZW_KNOWN: a code below `dict_len` (R104). -/
  | lzwKnown (c : Code)
  /-- LZW_KWKWK: the code `dict_len` with a previous data code (R105). -/
  | lzwKwkwk (c : Code)
  /-- LZW_INVALID: any other code (R106). -/
  | lzwInvalid (c : Code)
  /-- DISPOSE_0: disposal value 0 (44_compositor.md R137). -/
  | dispose0
  /-- DISPOSE_1: disposal value 1 (R137). -/
  | dispose1
  /-- DISPOSE_2: disposal value 2 (R138). -/
  | dispose2
  /-- DISPOSE_3: disposal value 3 (R139). -/
  | dispose3
  /-- DISPOSE_RSVD: disposal values 4 to 7 (R140). -/
  | disposeRsvd (d : BitVec 3)
  /-- CTRL_START: a CTRL write with bit 0 set (45_decoder.md R149). -/
  | ctrlStart (v : U32)
  /-- CTRL_CANCEL: a CTRL write with bit 1 set and bit 0 clear (R150; log 12). -/
  | ctrlCancel (v : U32)
  /-- CTRL_IRQ_EN: a CTRL write whose lowest set command bit is bit 2 (R151; log 12). -/
  | ctrlIrqEn (v : U32)
  /-- CTRL_IRQ_ACK: a CTRL write whose only command bit is bit 3 (R151; log 12). -/
  | ctrlIrqAck (v : U32)
  deriving DecidableEq, Repr

end Sys2Proof
end

