-- ==== Sys2Proof/WellFormed.lean ====
section
/-!
DEFINITION. Which instructions an encoding can spell: the checks on operands that the types do not
make already (30_encoding.md R62 to R84).
-/

namespace Sys2Proof

/-- The ASCII bytes of "GIF" (30_encoding.md R64). -/
def gifSignature : List Byte := [0x47, 0x49, 0x46]

/-- The ASCII bytes of "NETSCAPE" (30_encoding.md R71). -/
def netscapeId : List Byte := [0x4E, 0x45, 0x54, 0x53, 0x43, 0x41, 0x50, 0x45]

/-- The number of entries a color table of size field `size` has: 2^(size+1) (30_encoding.md R66). -/
def tableLen (size : BitVec 3) : Nat := 2 ^ (size.toNat + 1)

/-- A table is present exactly when its flag is set, with the length its size field gives
(30_encoding.md R64, R74, R86). -/
def tableOk (flag : Bool) (size : BitVec 3) (table : List Rgb) : Bool :=
  decide (table.length = if flag then tableLen size else 0)

/-- Each sub-block of a chain has 1 to 255 data bytes (30_encoding.md R77). -/
def chainOk (data : Chain) : Bool :=
  data.all fun d => decide (1 ≤ d.length) && decide (d.length ≤ 255)

/-- The code is a clear code 2^m for an accepted minimum code size m (41_lzw.md R98, R99). -/
def isClearCode (c : Code) : Bool :=
  (List.range 11).any fun k => decide (c.toNat = 2 ^ (k + 1))

/-- The code is an EOI code 2^m + 1 for an accepted minimum code size m (41_lzw.md R98, R99). -/
def isEoiCode (c : Code) : Bool :=
  (List.range 11).any fun k => decide (c.toNat = 2 ^ (k + 1) + 1)

/-- The well-formed instructions. -/
def WellFormed : Instr → Bool
  | .header op => decide (op.version.length = 3) && tableOk op.gctFlag op.gctSize op.gct
  | .badSignature s0 s1 s2 => decide ([s0, s1, s2] ≠ gifSignature)
  | .extGce _ => true
  | .extComment data => chainOk data
  | .extPlaintext _ hdr data => decide (hdr.length = 12) && chainOk data
  | .extAppNetscape op => decide (op.auth.length = 3)
  | .extApp op =>
    decide (op.id.length = 8) && decide (op.id ≠ netscapeId) && decide (op.auth.length = 3)
      && chainOk op.data
  | .extUnknown label data =>
    decide (label ≠ 0xF9 ∧ label ≠ 0xFE ∧ label ≠ 0x01 ∧ label ≠ 0xFF) && chainOk data
  | .image op => tableOk op.lctFlag op.lctSize op.lct && chainOk op.data
  | .trailer => true
  | .illegalSentinel b => decide (b ≠ 0x21 ∧ b ≠ 0x2C ∧ b ≠ 0x3B)
  | .lzwClear c => isClearCode c
  | .lzwEoi c => isEoiCode c
  | .lzwKnown _ => true
  | .lzwKwkwk c => decide (4 ≤ c.toNat)
  | .lzwInvalid c => decide (4 ≤ c.toNat)
  | .dispose0 => true
  | .dispose1 => true
  | .dispose2 => true
  | .dispose3 => true
  | .disposeRsvd d => decide (4 ≤ d.toNat)
  | .ctrlStart v => v.getLsbD 0
  | .ctrlCancel v => !v.getLsbD 0 && v.getLsbD 1
  | .ctrlIrqEn v => !v.getLsbD 0 && !v.getLsbD 1 && v.getLsbD 2
  | .ctrlIrqAck v => !v.getLsbD 0 && !v.getLsbD 1 && !v.getLsbD 2 && v.getLsbD 3

end Sys2Proof
end

