-- ==== Sys2Proof/Decode.lean ====
section
/-!
DEFINITION. Decoding, total on every input, and the encoder written from the same tables. The byte
reader (40_bitstream.md) is here because decoding a block is reading it. What is presented to the
decoder depends on which unit fetches: stream bytes, an LZW code, a disposal value or a CTRL word.
-/

namespace Sys2Proof

/-! ### The byte reader -/

/-- A read that ran past the available bytes: how many bytes it asked for, and how many were left
when it failed. The cursor does not move on a failed read (40_bitstream.md R89). -/
structure Short where
  need : Nat
  left : Nat
  deriving DecidableEq, Repr

/-- A read of the remaining stream bytes: a value and the bytes after it, or the failing read. -/
abbrev Reader (α : Type) := List Byte → Except Short (α × List Byte)

/-- `readBytes(n)` (40_bitstream.md R90). `readText(n)` is the same read (R92). -/
def readBytes (n : Nat) : Reader (List Byte) := fun bs =>
  if n ≤ bs.length then .ok (bs.take n, bs.drop n) else .error ⟨n, bs.length⟩

/-- `readByte()` (40_bitstream.md R91). -/
def readByte : Reader Byte
  | [] => .error ⟨1, 0⟩
  | b :: bs => .ok (b, bs)

/-- A little-endian 16-bit value from two bytes (20_memory.md R43). -/
def le16 (b0 b1 : Byte) : U16 := b1 ++ b0

/-- `readUint16LE()`: one 2-byte read (40_bitstream.md R93). -/
def readU16 : Reader U16
  | b0 :: b1 :: bs => .ok (le16 b0 b1, bs)
  | bs => .error ⟨2, bs.length⟩

/-- Consecutive byte triples as colors, in stream order (30_encoding.md R66). -/
def triples : List Byte → List Rgb
  | r :: g :: b :: bs => ⟨r, g, b⟩ :: triples bs
  | _ => []

/-- `readColorTable(s)` (40_bitstream.md R94). -/
def readColorTable (size : BitVec 3) : Reader (List Rgb) := fun bs =>
  match readBytes (3 * tableLen size) bs with
  | .error e => .error e
  | .ok (d, rest) => .ok (triples d, rest)

/-- The table of a header or an image descriptor, read only when its flag is set
(30_encoding.md R86). -/
def readOptTable (flag : Bool) (size : BitVec 3) : Reader (List Rgb) := fun bs =>
  if flag then readColorTable size bs else .ok ([], bs)

/-- The loop of `readSubBlocks()`; each turn reads at least one byte, so the stream's length bounds
the turns (40_bitstream.md R95). -/
def readChain : Nat → Reader Chain
  | 0, bs => .error ⟨1, bs.length⟩
  | _ + 1, [] => .error ⟨1, 0⟩
  | turns + 1, n :: bs =>
    if n = 0 then .ok ([], bs)
    else
      match readBytes n.toNat bs with
      | .error e => .error e
      | .ok (d, rest) =>
        match readChain turns rest with
        | .error e => .error e
        | .ok (ds, rest') => .ok (d :: ds, rest')

/-- `readSubBlocks()` (40_bitstream.md R95; 30_encoding.md R77). -/
def readSubBlocks : Reader Chain := fun bs => readChain (bs.length + 1) bs

/-! ### Blocks -/

/-- HEADER after its signature (30_encoding.md R64, R65). -/
def decodeHeaderBody : Reader Instr := fun bs => do
  let (version, bs) ← readBytes 3 bs
  let (width, bs) ← readU16 bs
  let (height, bs) ← readU16 bs
  let (p, bs) ← readByte bs
  let (bgIndex, bs) ← readByte bs
  let (aspect, bs) ← readByte bs
  let (gct, bs) ← readOptTable (p.getLsbD 7) (p.extractLsb' 0 3) bs
  return (.header
    { version, width, height, gctFlag := p.getLsbD 7, colorRes := p.extractLsb' 4 3,
      sort := p.getLsbD 3, gctSize := p.extractLsb' 0 3, bgIndex, aspect, gct }, bs)

/-- The block at offset 0: HEADER, or BAD_SIGNATURE after its three bytes
(42_block_parser.md R115, R116). -/
def decodeHeader : Reader Instr
  | s0 :: s1 :: s2 :: bs =>
    if [s0, s1, s2] = gifSignature then decodeHeaderBody bs else .ok (.badSignature s0 s1 s2, bs)
  | bs => .error ⟨3, bs.length⟩

/-- EXT_GCE after its label (30_encoding.md R67, R68). -/
def decodeGce : Reader Instr := fun bs => do
  let (size, bs) ← readByte bs
  let (g, bs) ← readByte bs
  let (delay, bs) ← readU16 bs
  let (ti, bs) ← readByte bs
  let (term, bs) ← readByte bs
  return (.extGce
    { size, rsvd := g.extractLsb' 5 3, disp := g.extractLsb' 2 3, ui := g.getLsbD 1,
      tf := g.getLsbD 0, delay, ti, term }, bs)

/-- EXT_COMMENT after its label (30_encoding.md R69). -/
def decodeComment : Reader Instr := fun bs => do
  let (data, bs) ← readSubBlocks bs
  return (.extComment data, bs)

/-- EXT_PLAINTEXT after its label (30_encoding.md R70). -/
def decodePlaintext : Reader Instr := fun bs => do
  let (size, bs) ← readByte bs
  let (hdr, bs) ← readBytes 12 bs
  let (data, bs) ← readSubBlocks bs
  return (.extPlaintext size hdr data, bs)

/-- EXT_APP and EXT_APP_NETSCAPE after their label (30_encoding.md R71, R72). -/
def decodeApp : Reader Instr := fun bs => do
  let (size, bs) ← readByte bs
  let (id, bs) ← readBytes 8 bs
  let (auth, bs) ← readBytes 3 bs
  if id = netscapeId then
    let (subSize, bs) ← readByte bs
    let (subId, bs) ← readByte bs
    let (loopCount, bs) ← readU16 bs
    let (term, bs) ← readByte bs
    return (.extAppNetscape { size, auth, subSize, subId, loopCount, term }, bs)
  else
    let (data, bs) ← readSubBlocks bs
    return (.extApp { size, id, auth, data }, bs)

/-- EXT_UNKNOWN after its label (30_encoding.md R73). -/
def decodeUnknown (label : Byte) : Reader Instr := fun bs => do
  let (data, bs) ← readSubBlocks bs
  return (.extUnknown label data, bs)

/-- An extension after its sentinel: the label map (30_encoding.md R81). -/
def decodeExtension : Reader Instr := fun bs => do
  let (label, bs) ← readByte bs
  if label = 0xF9 then decodeGce bs
  else if label = 0xFE then decodeComment bs
  else if label = 0x01 then decodePlaintext bs
  else if label = 0xFF then decodeApp bs
  else decodeUnknown label bs

/-- IMAGE after its sentinel (30_encoding.md R74, R75). -/
def decodeImage : Reader Instr := fun bs => do
  let (left, bs) ← readU16 bs
  let (top, bs) ← readU16 bs
  let (width, bs) ← readU16 bs
  let (height, bs) ← readU16 bs
  let (q, bs) ← readByte bs
  let (lct, bs) ← readOptTable (q.getLsbD 7) (q.extractLsb' 0 3) bs
  let (minCode, bs) ← readByte bs
  let (data, bs) ← readSubBlocks bs
  return (.image
    { left, top, width, height, lctFlag := q.getLsbD 7, interlace := q.getLsbD 6,
      sort := q.getLsbD 5, rsvd := q.extractLsb' 3 2, lctSize := q.extractLsb' 0 3, lct, minCode,
      data }, bs)

/-- A block at a block boundary: the sentinel map (30_encoding.md R80). -/
def decodeBlock : Reader Instr := fun bs => do
  let (s, bs) ← readByte bs
  if s = 0x21 then decodeExtension bs
  else if s = 0x2C then decodeImage bs
  else if s = 0x3B then return (.trailer, bs)
  else return (.illegalSentinel s, bs)

/-! ### LZW codes, disposal values and CTRL words -/

/-- The part of the LZW registers that a code's class depends on (30_encoding.md R82). -/
structure CodeCtx where
  clearCode : Code
  eoiCode : Code
  dictLen : BitVec 13
  prev : Option Code
  deriving DecidableEq, Repr

/-- The class of a code: the rows of R82, tested in order (30_encoding.md R82). -/
def decodeCode (x : CodeCtx) (c : Code) : Instr :=
  if c = x.clearCode then .lzwClear c
  else if c = x.eoiCode then .lzwEoi c
  else if c.toNat < x.dictLen.toNat then .lzwKnown c
  else if c.toNat = x.dictLen.toNat ∧ x.prev ≠ none then .lzwKwkwk c
  else .lzwInvalid c

/-- The disposal value map (30_encoding.md R83). -/
def decodeDisposal (d : BitVec 3) : Instr :=
  if d = 0 then .dispose0
  else if d = 1 then .dispose1
  else if d = 2 then .dispose2
  else if d = 3 then .dispose3
  else .disposeRsvd d

/-- A CTRL word as one command: its lowest set command bit names the row, and the word keeps every
other bit (30_encoding.md R84; log 12). A word with no command bit is no command. -/
def decodeCtrl (v : U32) : Option Instr :=
  if v.getLsbD 0 then some (.ctrlStart v)
  else if v.getLsbD 1 then some (.ctrlCancel v)
  else if v.getLsbD 2 then some (.ctrlIrqEn v)
  else if v.getLsbD 3 then some (.ctrlIrqAck v)
  else none

/-! ### One decoder -/

/-- What is presented to the decoder, by the unit that fetches it. -/
inductive Source where
  /-- The stream from offset 0, in phase AT_HEADER. -/
  | header (bs : List Byte)
  /-- The stream from a block boundary, in phase AT_BLOCK. -/
  | block (bs : List Byte)
  /-- One code the LZW unit read. -/
  | code (x : CodeCtx) (c : Code)
  /-- The disposal value of the previous image. -/
  | disposal (d : BitVec 3)
  /-- The word of a host write to CTRL. -/
  | ctrl (v : U32)
  deriving DecidableEq, Repr

/-- Why nothing was decoded. -/
inductive Reject where
  /-- The stream ended inside the block (40_bitstream.md R89). -/
  | cutShort (e : Short)
  /-- The CTRL word has no command bit set (30_encoding.md R84). -/
  | noCommand
  deriving DecidableEq, Repr

/-- A block read as a decoding: the instruction and the stream bytes after it. -/
def liftReader (r : Except Short (Instr × List Byte)) : Except Reject (Instr × List Byte) :=
  match r with
  | .error e => .error (.cutShort e)
  | .ok x => .ok x

/-- The decoder, total on every input: an instruction and the stream bytes after it, or a reason. -/
def decode : Source → Except Reject (Instr × List Byte)
  | .header bs => liftReader (decodeHeader bs)
  | .block bs => liftReader (decodeBlock bs)
  | .code x c => .ok (decodeCode x c, [])
  | .disposal d => .ok (decodeDisposal d, [])
  | .ctrl v =>
    match decodeCtrl v with
    | some i => .ok (i, [])
    | none => .error .noCommand

/-! ### The encoder -/

/-- The two bytes of a u16, low byte first (20_memory.md R43). -/
def u16Bytes (v : U16) : List Byte := [v.extractLsb' 0 8, v.extractLsb' 8 8]

/-- The bytes of a color table (30_encoding.md R66). -/
def tableBytes (table : List Rgb) : List Byte := table.flatMap fun c => [c.r, c.g, c.b]

/-- The bytes of a sub-block chain (30_encoding.md R77). -/
def chainBytes (data : Chain) : List Byte :=
  (data.flatMap fun d => BitVec.ofNat 8 d.length :: d) ++ [0x00]

/-- Header packed byte (30_encoding.md R65). -/
def headerPacked (op : HeaderOp) : Byte :=
  BitVec.ofBool op.gctFlag ++ op.colorRes ++ BitVec.ofBool op.sort ++ op.gctSize

/-- GCE packed byte (30_encoding.md R68). -/
def gcePacked (op : GceOp) : Byte :=
  op.rsvd ++ op.disp ++ BitVec.ofBool op.ui ++ BitVec.ofBool op.tf

/-- Image packed byte (30_encoding.md R75). -/
def imagePacked (op : ImageOp) : Byte :=
  BitVec.ofBool op.lctFlag ++ BitVec.ofBool op.interlace ++ BitVec.ofBool op.sort ++ op.rsvd
    ++ op.lctSize

/-- HEADER (30_encoding.md R64). -/
def headerBytes (op : HeaderOp) : List Byte :=
  gifSignature ++ op.version ++ u16Bytes op.width ++ u16Bytes op.height
    ++ [headerPacked op, op.bgIndex, op.aspect] ++ tableBytes op.gct

/-- EXT_GCE (30_encoding.md R67). -/
def gceBytes (op : GceOp) : List Byte :=
  [0x21, 0xF9, op.size, gcePacked op] ++ u16Bytes op.delay ++ [op.ti, op.term]

/-- EXT_APP_NETSCAPE (30_encoding.md R71, R72). -/
def netscapeBytes (op : NetscapeOp) : List Byte :=
  [0x21, 0xFF, op.size] ++ netscapeId ++ op.auth ++ [op.subSize, op.subId] ++ u16Bytes op.loopCount
    ++ [op.term]

/-- EXT_APP (30_encoding.md R71). -/
def appBytes (op : AppOp) : List Byte :=
  [0x21, 0xFF, op.size] ++ op.id ++ op.auth ++ chainBytes op.data

/-- IMAGE (30_encoding.md R74). -/
def imageBytes (op : ImageOp) : List Byte :=
  [0x2C] ++ u16Bytes op.left ++ u16Bytes op.top ++ u16Bytes op.width ++ u16Bytes op.height
    ++ [imagePacked op] ++ tableBytes op.lct ++ [op.minCode] ++ chainBytes op.data

/-- What an instruction's encoding is made of. -/
inductive Encoded where
  /-- Stream bytes, the first at the lowest offset. -/
  | bytes (bs : List Byte)
  /-- One LZW code. -/
  | code (c : Code)
  /-- The disposal field `p[4:2]` of a GCE packed byte. -/
  | disposal (d : BitVec 3)
  /-- A CTRL word. -/
  | word (v : U32)
  deriving DecidableEq, Repr

/-- The encoder (30_encoding.md R64 to R84). -/
def encode : Instr → Encoded
  | .header op => .bytes (headerBytes op)
  | .badSignature s0 s1 s2 => .bytes [s0, s1, s2]
  | .extGce op => .bytes (gceBytes op)
  | .extComment data => .bytes ([0x21, 0xFE] ++ chainBytes data)
  | .extPlaintext size hdr data => .bytes ([0x21, 0x01, size] ++ hdr ++ chainBytes data)
  | .extAppNetscape op => .bytes (netscapeBytes op)
  | .extApp op => .bytes (appBytes op)
  | .extUnknown label data => .bytes ([0x21, label] ++ chainBytes data)
  | .image op => .bytes (imageBytes op)
  | .trailer => .bytes [0x3B]
  | .illegalSentinel b => .bytes [b]
  | .lzwClear c => .code c
  | .lzwEoi c => .code c
  | .lzwKnown c => .code c
  | .lzwKwkwk c => .code c
  | .lzwInvalid c => .code c
  | .dispose0 => .disposal 0
  | .dispose1 => .disposal 1
  | .dispose2 => .disposal 2
  | .dispose3 => .disposal 3
  | .disposeRsvd d => .disposal d
  | .ctrlStart v => .word v
  | .ctrlCancel v => .word v
  | .ctrlIrqEn v => .word v
  | .ctrlIrqAck v => .word v

/-- The instruction is a HEADER row: it is decoded only in phase AT_HEADER. -/
def isHeaderRow : Instr → Bool
  | .header _ => true
  | .badSignature _ _ _ => true
  | _ => false

/-! ### Opcode-table words -/

/-- The stream bytes of a table word: the first byte is the MOST significant, as the table writes its
match values (`0x21F9` is byte 0 = 0x21, byte 1 = 0xF9; log 13). -/
def wordBytes : Nat → Nat → List Byte
  | 0, _ => []
  | n + 1, w => wordBytes n (w / 256) ++ [BitVec.ofNat 8 (w % 256)]

/-- How many zero bytes stand after a table word: more than a block whose operands are zero reads
(log 13). -/
def tablePadding : Nat := 32

/-- Which unit's input a table word of `nbits` bits is (log 13): 32 bits are a CTRL word, 24 a
signature, 2 to 12 but not 8 one LZW code read right after a clear code at that width; 8 bits are a
CTRL word for the bits 0 and 1, a GCE packed byte for a disposal value, and a sentinel otherwise; any
other length is a block. -/
def tableSource (nbits w : Nat) : Source :=
  if nbits = 32 ∨ (nbits = 8 ∧ (w = 1 ∨ w = 2)) then .ctrl (BitVec.ofNat 32 w)
  else if nbits = 8 ∧ w % 4 = 0 ∧ w < 32 then .disposal (BitVec.ofNat 3 (w / 4))
  else if nbits = 24 then .header (wordBytes 3 w ++ List.replicate tablePadding 0x00)
  else if 2 ≤ nbits ∧ nbits ≤ 12 ∧ nbits ≠ 8 then
    .code
      { clearCode := BitVec.ofNat 12 (2 ^ (nbits - 1))
        eoiCode := BitVec.ofNat 12 (2 ^ (nbits - 1) + 1)
        dictLen := BitVec.ofNat 13 (2 ^ (nbits - 1) + 2)
        prev := none }
      (BitVec.ofNat 12 w)
  else .block (wordBytes (nbits / 8) w ++ List.replicate tablePadding 0x00)

/-- The instruction the decoder reads from an opcode-table word. -/
def decodeTableWord (nbits w : Nat) : Option Instr :=
  match decode (tableSource nbits w) with
  | .ok (i, _) => some i
  | .error _ => none

end Sys2Proof
end

