-- ==== Sys2Proof/Config.lean ====
section
/-!
DEFINITION. What an implementation fixes (the OPEN parameters of 00_scope.md R6) and the free
values, which have no body: no proof can see what they are (log 7).
-/

namespace Sys2Proof

/-- The five windows through which the host reaches the GDE (20_memory.md R39, R40). -/
inductive Window where
  | inMem
  | csr
  | frameMem
  | delayMem
  | evtMem
  deriving DecidableEq, Repr

/-- The OPEN parameters (00_scope.md R6; 92_eei_decisions.md D5, D31, D39). They stand in `State` so
that a statement about every state holds for every value of them; no step writes them (log 4). -/
structure Params where
  inCap : Nat
  maxCanvasPixels : Nat
  maxImagePixels : Nat
  maxFrames : Nat
  maxEvents : Nat
  inBase : Nat
  csrBase : Nat
  frameBase : Nat
  delayBase : Nat
  evtBase : Nat
  deriving DecidableEq, Repr

/-- The ranges R6 gives the parameters. -/
def Params.wf (p : Params) : Prop :=
  1 ≤ p.inCap ∧ p.inCap ≤ 2 ^ 32 - 1 ∧ 1 ≤ p.maxCanvasPixels ∧ 1 ≤ p.maxImagePixels ∧ 1 ≤ p.maxFrames

/-- The parameter values of 95_test_vectors.md, every window at base 0.
DESIGN CHOICE (log 4): the spec leaves them open. -/
def Params.vectors : Params where
  inCap := 2 ^ 20
  maxCanvasPixels := 2 ^ 16
  maxImagePixels := 2 ^ 16
  maxFrames := 64
  maxEvents := 64
  inBase := 0
  csrBase := 0
  frameBase := 0
  delayBase := 0
  evtBase := 0

/-- `CSR_BASE`, `IN_BASE` and the rest (20_memory.md R40). -/
def Params.base (p : Params) : Window → Nat
  | .inMem => p.inBase
  | .csr => p.csrBase
  | .frameMem => p.frameBase
  | .delayMem => p.delayBase
  | .evtMem => p.evtBase

/-- The size of each window in bytes (20_memory.md R39). -/
def Params.size (p : Params) : Window → Nat
  | .inMem => p.inCap
  | .csr => 0x40
  | .frameMem => p.maxFrames * p.maxCanvasPixels * 4
  | .delayMem => p.maxFrames * 2
  | .evtMem => p.maxEvents * 20

/-- The free value of a register the spec leaves unspecified: draw number, register tag (log 7). -/
opaque Config.freeReg : Nat → Nat → Nat

/-- The free byte an unspecified host read returns: draw number, offset (20_memory.md R42; log 7). -/
opaque Config.freeByte : Nat → Nat → Byte

/-- The free contents of an unspecified byte-sequence register: draw number (10_state.md R29; log 7). -/
opaque Config.freeBytes : Nat → List Byte

/-- The free contents of an unspecified symbol-sequence register or of a dictionary slot that holds
nothing specified: draw number, tag or slot (10_state.md R30, 41_lzw.md R100; log 7). -/
opaque Config.freeSyms : Nat → Nat → List Sym

/-- The free value of a color-table entry whose contents are unspecified: draw number, index
(10_state.md R27; log 8). -/
opaque Config.freeRgb : Nat → Nat → Rgb

/-- The free value of a frame pixel whose contents are unspecified: draw number, index
(10_state.md R35; log 8). -/
opaque Config.freePixel : Nat → Nat → Pixel

end Sys2Proof
end

