-- ==== Sys2Proof/Machine/State.lean ====
section
/-!
DEFINITION. The state of the GDE, as plain data: everything 10_state.md and 20_memory.md give the
machine, grouped as 10_state.md groups it, and the model's own fields (`unit`, `hostq`, `rdata`,
`draws`). Unspecified contents of a register file or memory are entries that are not listed (log 8).
-/

namespace Sys2Proof.Machine

/-- `state` (10_state.md R19). -/
inductive RunState where
  | idle
  | busy
  | done
  | error
  deriving DecidableEq, Repr

/-- `phase` (10_state.md R20). -/
inductive Phase where
  | atHeader
  | atBlock
  deriving DecidableEq, Repr

/-- Where inside an image step the engine stands; `parser` at every block boundary. The model's own
field: a step that starts at a block boundary ends at one (45_decoder.md R152; log 1). -/
inductive EngineUnit where
  /-- At a block boundary. -/
  | parser
  /-- The loop of `LzwDecode` reads the next code (41_lzw.md R97). -/
  | lzw
  /-- `LzwDecode` has returned; IDX is to be written (42_block_parser.md R128). -/
  | reorder
  /-- Step 1 of `Composite`: the disposal of the previous image (44_compositor.md R135). -/
  | dispose
  /-- The rest of `Composite` and the block's event (44_compositor.md R135; 42_block_parser.md R128). -/
  | paint
  deriving DecidableEq, Repr

/-- Sequencing and CTRL/STATUS bits (10_state.md R19, R20, R21). -/
structure Ctl where
  run : RunState
  phase : Phase
  cancel : Bool
  irqEn : Bool
  irqPend : Bool
  deriving DecidableEq, Repr

/-- The stream length and the cursors (10_state.md R22, R23, R24). -/
structure Cursor where
  inLen : U32
  inLenL : U32
  blkStart : U32
  pos : U32
  deriving DecidableEq, Repr

/-- Logical-screen registers (10_state.md R25). -/
structure Screen where
  w : U16
  h : U16
  gctFlag : Bool
  colorRes : BitVec 3
  sort : Bool
  gctSize : BitVec 3
  bgIndex : Byte
  aspect : Byte
  deriving DecidableEq, Repr

/-- The color-table register files: the entries below the length are listed (10_state.md R27). -/
structure Tables where
  gct : List Rgb
  gctLen : BitVec 9
  lct : List Rgb
  lctLen : BitVec 9
  deriving DecidableEq, Repr

/-- Pending Graphic Control registers (10_state.md R28). -/
structure Gce where
  valid : Bool
  disp : BitVec 3
  ui : Bool
  tf : Bool
  delay : U16
  ti : Byte
  deriving DecidableEq, Repr

/-- Image registers (10_state.md R29). -/
structure Img where
  left : U16
  top : U16
  w : U16
  h : U16
  lctFlag : Bool
  interlace : Bool
  sort : Bool
  rsvd : BitVec 2
  lctSize : BitVec 3
  minCode : Byte
  payload : List Byte
  deriving DecidableEq, Repr

/-- One dictionary slot: a symbol sequence (empty in the clear slot), or SENTINEL
(10_state.md R31). -/
inductive Slot where
  | seq (xs : List Sym)
  | sentinel
  deriving DecidableEq, Repr

/-- LZW working registers and the dictionary; `prev` is `none` for CLEAR_MARK
(10_state.md R30, R31). -/
structure Lzw where
  clearCode : Code
  eoiCode : Code
  codeWidth : BitVec 4
  prev : Option Code
  bitPos : BitVec 35
  dictLen : BitVec 13
  out : List Sym
  dict : List Slot
  deriving DecidableEq, Repr

/-- Compositor state; `restoreFrom` is `none` for NONE (10_state.md R33). -/
structure Comp where
  canvas : List Pixel
  frameCount : U32
  lastDisp : BitVec 3
  restoreFrom : Option U32
  prevLeft : U16
  prevTop : U16
  prevW : U16
  prevH : U16
  deriving DecidableEq, Repr

/-- One event record (45_decoder.md R157). -/
structure EventRec where
  kind : Byte
  label : Byte
  off : U32
  len : U32
  dataOff : U32
  dataLen : U32
  deriving DecidableEq, Repr

/-- Output state (10_state.md R35): frame k is element k of `frames`, its delay element k of
`delays`. -/
structure Output where
  frames : List (List Pixel)
  delays : List U16
  loopCount : U16
  loopValid : Bool
  events : List EventRec
  evtCount : U32
  evtOvf : Bool
  deriving DecidableEq, Repr

/-- The error record (10_state.md R37). -/
structure ErrRec where
  code : Byte
  info : U32
  pos : U32
  deriving DecidableEq, Repr

/-- One action of the host on the GDE, or a turn given to the engine (45_decoder.md R158;
70_reset_and_hazards.md R175, R183; log 2). -/
inductive HostAction where
  /-- A read of `n` bytes at host address `addr` of a window (20_memory.md R40, R49). -/
  | read (win : Window) (addr n : Nat)
  /-- A write of bytes in increasing address order at host address `addr` of a window. -/
  | write (win : Window) (addr : Nat) (data : List Byte)
  /-- Hardware reset (70_reset_and_hazards.md R175). -/
  | hwReset
  /-- The host waits while the engine takes one step, if it is BUSY. -/
  | engineTurn
  deriving DecidableEq, Repr

/-- The state of one GDE and of the host actions still to come. -/
structure State where
  params : Params
  ctl : Ctl
  cur : Cursor
  scr : Screen
  tabs : Tables
  gce : Gce
  img : Img
  lz : Lzw
  idx : List Sym
  comp : Comp
  outp : Output
  err : ErrRec
  inMem : List Host.Cell
  unit : EngineUnit
  hostq : List HostAction
  rdata : List Byte
  draws : Nat
  deriving DecidableEq, Repr

/-- Why the machine stops with a fault. -/
inductive Fault where
  /-- Raised by a host access that reaches outside the window it names: no such address exists
  (20_memory.md R39, R40; log 17). Safe: the model stops where a platform may answer something. -/
  | noSuchAddress (win : Window) (addr : Nat)
  deriving DecidableEq, Repr

/-- Why the machine refuses an action. -/
inductive Refusal where
  /-- Raised by an arm of `exec` that has no meaning yet. Safe. No arm of this model raises it. -/
  | notModelled (mnemonic : String)
  /-- Raised by a host write to IN_MEM while BUSY, a hazard with no defined result
  (20_memory.md R60; 70_reset_and_hazards.md R178). Safe. -/
  | inMemWriteWhileBusy
  /-- Raised by a CSR access that is not one 32-bit access at a multiple of 4, which has no defined
  result (20_memory.md R47). Safe. -/
  | csrAccessForm
  /-- Raised by a host read of a data window that is not 1 to 4 bytes wide (20_memory.md R49; log 17).
  Safe. -/
  | dataReadWidth
  /-- Raised by a host read of EVT_MEM in IDLE or BUSY, which the host interaction table does not allow
  and which so has no defined result (45_decoder.md R158; 00_scope.md R13). Safe. -/
  | evtMemReadEarly
  deriving DecidableEq, Repr

/-- The logical-screen registers with every field 0 (10_state.md R25). -/
def Screen.zero : Screen where
  w := 0
  h := 0
  gctFlag := false
  colorRes := 0
  sort := false
  gctSize := 0
  bgIndex := 0
  aspect := 0

/-- Both tables absent, contents unspecified (10_state.md R27). -/
def Tables.absent : Tables where
  gct := []
  gctLen := 0
  lct := []
  lctLen := 0

/-- The compositor state at START and at reset: no frame yet, no canvas (10_state.md R33). -/
def Comp.start : Comp where
  canvas := []
  frameCount := 0
  lastDisp := 0
  restoreFrom := none
  prevLeft := 0
  prevTop := 0
  prevW := 0
  prevH := 0

/-- The output state at START and at reset: counts 0, memories unspecified (10_state.md R35). -/
def Output.start : Output where
  frames := []
  delays := []
  loopCount := 0
  loopValid := false
  events := []
  evtCount := 0
  evtOvf := false

/-- The error record with no error (10_state.md R37). -/
def ErrRec.none : ErrRec where
  code := 0
  info := 0
  pos := 0

/-- The machine right after reset (70_reset_and_hazards.md R175). Where R175 says "unspecified" the
value here is DESIGN CHOICE 0 (log 5), and the parameters are those of 95_test_vectors.md (log 4). -/
def State.reset : State where
  params := Params.vectors
  ctl := { run := .idle, phase := .atHeader, cancel := false, irqEn := false, irqPend := false }
  cur := { inLen := 0, inLenL := 0, blkStart := 0, pos := 0 }
  scr := Screen.zero
  tabs := Tables.absent
  gce := { valid := false, disp := 0, ui := false, tf := false, delay := 0, ti := 0 }
  img :=
    { left := 0, top := 0, w := 0, h := 0, lctFlag := false, interlace := false, sort := false,
      rsvd := 0, lctSize := 0, minCode := 0, payload := [] }
  lz :=
    { clearCode := 0, eoiCode := 0, codeWidth := 0, prev := none, bitPos := 0, dictLen := 0,
      out := [], dict := [] }
  idx := []
  comp := Comp.start
  outp := Output.start
  err := ErrRec.none
  inMem := []
  unit := .parser
  hostq := []
  rdata := []
  draws := 0

end Sys2Proof.Machine
end

