-- ==== Sys2Proof/Machine/Ops.lean ====
section
/-!
DEFINITION. The operations every unit shares: input memory, free values, the event log, error entry
(the GDE's one exception), and START and hardware reset, which alone leave an error.
-/

namespace Sys2Proof.Machine

/-! ### Input memory -/

/-- What a byte of IN_MEM that nothing has written reads as. DESIGN CHOICE (log 6): the spec leaves
its contents unspecified. -/
def unwrittenByte : Byte := 0x00

/-- One byte of IN_MEM (20_memory.md R50). -/
def memByte : List Host.Cell → Nat → Byte
  | [], _ => unwrittenByte
  | (k, v) :: m, a => if k = a then v else memByte m a

/-- Put one byte, keeping the addresses rising and listing no byte equal to `unwrittenByte`. -/
def memSet : List Host.Cell → Nat → Byte → List Host.Cell
  | [], a, b => if b = unwrittenByte then [] else [(a, b)]
  | (k, v) :: m, a, b =>
    if k < a then (k, v) :: memSet m a b
    else if k = a then (if b = unwrittenByte then m else (a, b) :: m)
    else if b = unwrittenByte then (k, v) :: m
    else (a, b) :: (k, v) :: m

/-- `MemWrite(IN, a, n, v)`: consecutive bytes from address `a` (00_scope.md R10). -/
def memWrite : List Host.Cell → Nat → List Byte → List Host.Cell
  | m, _, [] => m
  | m, a, b :: bs => memWrite (memSet m a b) (a + 1) bs

/-- `MemRead(IN, a, n)`: the bytes at `a`, ..., `a + n − 1` (00_scope.md R10). -/
def memRead (m : List Host.Cell) (a n : Nat) : List Byte :=
  (List.range n).map fun i => memByte m (a + i)

/-- The addresses of a memory rise strictly. -/
def memSorted : List Host.Cell → Bool
  | [] => true
  | [_] => true
  | (k, _) :: (k', v') :: m => decide (k < k') && memSorted ((k', v') :: m)

/-- The canonical form: rising addresses, and no listed byte equal to `unwrittenByte` (log 6). -/
def Memory.wf (m : List Host.Cell) : Bool :=
  memSorted m && m.all fun c => decide (c.2 ≠ unwrittenByte)

/-! ### Free values (log 7) -/

/-- The image registers with free values, draw number `d` (10_state.md R29: unspecified). A payload
is never longer than the stream. -/
def Img.free (d : Nat) (streamLen : Nat) : Img where
  left := BitVec.ofNat 16 (Config.freeReg d 0)
  top := BitVec.ofNat 16 (Config.freeReg d 1)
  w := BitVec.ofNat 16 (Config.freeReg d 2)
  h := BitVec.ofNat 16 (Config.freeReg d 3)
  lctFlag := decide (Config.freeReg d 4 % 2 = 1)
  interlace := decide (Config.freeReg d 5 % 2 = 1)
  sort := decide (Config.freeReg d 6 % 2 = 1)
  rsvd := BitVec.ofNat 2 (Config.freeReg d 7)
  lctSize := BitVec.ofNat 3 (Config.freeReg d 8)
  minCode := BitVec.ofNat 8 (Config.freeReg d 9)
  payload := (Config.freeBytes d).take streamLen

/-- The LZW registers with free values and an unspecified dictionary, draw number `d`
(10_state.md R30, R31). `out` is never longer than the index buffer. -/
def Lzw.free (d : Nat) (maxOut : Nat) : Lzw where
  clearCode := BitVec.ofNat 12 (Config.freeReg d 10)
  eoiCode := BitVec.ofNat 12 (Config.freeReg d 11)
  codeWidth := BitVec.ofNat 4 (Config.freeReg d 12)
  prev :=
    if Config.freeReg d 13 % 2 = 1 then some (BitVec.ofNat 12 (Config.freeReg d 14)) else none
  bitPos := BitVec.ofNat 35 (Config.freeReg d 15)
  dictLen := BitVec.ofNat 13 (Config.freeReg d 16)
  out := (Config.freeSyms d 0).take maxOut
  dict := []

/-- The compositor registers with free values and an unspecified canvas, draw number `d`
(60_exceptions.md R162). -/
def Comp.free (d : Nat) : Comp where
  canvas := []
  frameCount := BitVec.ofNat 32 (Config.freeReg d 17)
  lastDisp := BitVec.ofNat 3 (Config.freeReg d 18)
  restoreFrom :=
    if Config.freeReg d 19 % 2 = 1 then some (BitVec.ofNat 32 (Config.freeReg d 20)) else none
  prevLeft := BitVec.ofNat 16 (Config.freeReg d 21)
  prevTop := BitVec.ofNat 16 (Config.freeReg d 22)
  prevW := BitVec.ofNat 16 (Config.freeReg d 23)
  prevH := BitVec.ofNat 16 (Config.freeReg d 24)

/-- The next value of the draw counter, so that no free value is used twice (log 7). -/
def State.drawn (s : State) : State := { s with draws := s.draws + 1 }

/-- The LZW registers, DICT and IDX become unspecified, as they are after every image
(10_state.md R30, R32; log 11). -/
def State.releaseLzw (s : State) : State :=
  { s with lz := Lzw.free s.draws s.params.maxImagePixels, idx := [], draws := s.draws + 1 }

/-! ### The event log -/

/-- The kinds of event record (45_decoder.md R157). -/
inductive EventKind where
  | header
  | gce
  | comment
  | plaintext
  | application
  | netscape
  | unknownExt
  | image
  | trailer
  deriving DecidableEq, Repr

/-- The `kind` byte (45_decoder.md R157). -/
def EventKind.code : EventKind → Byte
  | .header => 1
  | .gce => 2
  | .comment => 3
  | .plaintext => 4
  | .application => 5
  | .netscape => 6
  | .unknownExt => 7
  | .image => 8
  | .trailer => 9

/-- `emit EVT(...)`: append a record, or set `evt_ovf` when the log is full (45_decoder.md R157). -/
def Output.emit (maxEvents : Nat) (r : EventRec) (o : Output) : Output :=
  if o.evtCount.toNat < maxEvents then
    { o with events := o.events.take o.evtCount.toNat ++ [r], evtCount := o.evtCount + 1 }
  else { o with evtOvf := true }

/-- `emit EVT(kind, label, blk_start, pos − blk_start, data_off, data_len)` for the block that ends at
`pos` (42_block_parser.md, preamble; 45_decoder.md R157). -/
def State.emit (kind : EventKind) (label : Byte) (dataOff dataLen : Nat) (s : State) : State :=
  let r : EventRec :=
    { kind := kind.code, label, off := s.cur.blkStart, len := s.cur.pos - s.cur.blkStart,
      dataOff := BitVec.ofNat 32 dataOff, dataLen := BitVec.ofNat 32 dataLen }
  { s with outp := s.outp.emit s.params.maxEvents r }

/-! ### Decode errors and error entry -/

/-- The capacity a ResourceExhausted names (60_exceptions.md R160). -/
inductive Resource where
  | input
  | canvas
  | image
  | frames
  deriving DecidableEq, Repr

/-- A decode error with what its ERRINFO and ERRPOS need (60_exceptions.md R160, R161). -/
inductive DecodeError where
  /-- The first three bytes are not "GIF". -/
  | notAGifFile (s0 s1 s2 : Byte)
  /-- A stream read of `need` bytes failed at the cursor value `pos`. -/
  | endOfStream (need : Nat) (pos : U32)
  /-- The LZW payload ran out at bit `bitPos`. -/
  | endOfPayload (bitPos : Nat)
  | unknownBlockSentinel (b : Byte)
  | invalidLzwCode (c : Code)
  | noColorTable
  /-- Reserved for the host; no rule raises it (60_exceptions.md R166). -/
  | sourceError
  | invalidMinCodeSize (m : Byte)
  | pixelCountMismatch (n : Nat)
  | pixelIndexOutOfRange (v : Sym)
  | resourceExhausted (r : Resource)
  | cancelled
  deriving DecidableEq, Repr

/-- `code(kind)` (60_exceptions.md R160). -/
def DecodeError.code : DecodeError → Byte
  | .notAGifFile _ _ _ => 1
  | .endOfStream _ _ => 2
  | .endOfPayload _ => 2
  | .unknownBlockSentinel _ => 3
  | .invalidLzwCode _ => 4
  | .noColorTable => 5
  | .sourceError => 6
  | .invalidMinCodeSize _ => 7
  | .pixelCountMismatch _ => 8
  | .pixelIndexOutOfRange _ => 9
  | .resourceExhausted _ => 10
  | .cancelled => 11

/-- The resource number in ERRINFO (60_exceptions.md R160). -/
def Resource.code : Resource → U32
  | .input => 0
  | .canvas => 1
  | .image => 2
  | .frames => 3

/-- The ERRINFO column (60_exceptions.md R160). SourceError has none; it is never raised. -/
def DecodeError.info : DecodeError → U32
  | .notAGifFile s0 s1 s2 => (0 : Byte) ++ s2 ++ s1 ++ s0
  | .endOfStream need _ => BitVec.ofNat 32 need
  | .endOfPayload bitPos => BitVec.ofNat 32 (0x80000000 + min (bitPos / 8) 0x7FFFFFFF)
  | .unknownBlockSentinel b => b.setWidth 32
  | .invalidLzwCode c => c.setWidth 32
  | .noColorTable => 0
  | .sourceError => 0
  | .invalidMinCodeSize m => m.setWidth 32
  | .pixelCountMismatch n => BitVec.ofNat 32 n
  | .pixelIndexOutOfRange v => v.setWidth 32
  | .resourceExhausted r => r.code
  | .cancelled => 0

/-- The ERRPOS column (60_exceptions.md R160, R161). -/
def DecodeError.pos (cur : Cursor) : DecodeError → U32
  | .notAGifFile _ _ _ => 0
  | .endOfStream _ pos => pos
  | .resourceExhausted .input => 0
  | .cancelled => cur.pos
  | _ => cur.blkStart

/-- `ErrorEntry(kind, info)` (60_exceptions.md R162): the error record, ERROR and `irq_pend`; `pos`,
CANVAS, DICT, IDX, the LZW and the compositor registers become unspecified (log 7), and the engine is
at no point inside a block. -/
def State.raise (e : DecodeError) (s : State) : State :=
  { s with
    ctl := { s.ctl with run := .error, irqPend := true }
    cur := { s.cur with pos := BitVec.ofNat 32 (Config.freeReg s.draws 25) }
    lz := Lzw.free s.draws s.params.maxImagePixels
    idx := []
    comp := Comp.free s.draws
    err := { code := e.code, info := e.info, pos := e.pos s.cur }
    unit := .parser
    draws := s.draws + 1 }

/-! ### START and reset -/

/-- The registers START writes before it looks at the length (45_decoder.md R149). Memories and the
registers 10_state.md calls unspecified after START become unspecified (R27, R29, R30, R32, R35). -/
def State.startRegs (s : State) : State :=
  { s with
    ctl := { s.ctl with irqPend := false }
    cur := { s.cur with inLenL := s.cur.inLen, pos := 0, blkStart := 0 }
    scr := Screen.zero
    tabs := Tables.absent
    gce := { s.gce with valid := false }
    img := Img.free s.draws s.cur.inLen.toNat
    lz := Lzw.free s.draws s.params.maxImagePixels
    idx := []
    comp := Comp.start
    outp := Output.start
    err := ErrRec.none
    unit := .parser
    draws := s.draws + 1 }

/-- `Start()` (45_decoder.md R149). -/
def State.start (s : State) : State :=
  let s := s.startRegs
  if s.params.inCap < s.cur.inLenL.toNat then s.raise (.resourceExhausted .input)
  else { s with ctl := { s.ctl with run := .busy, phase := .atHeader } }

/-- `CtrlWrite(v)` (45_decoder.md R148). -/
def State.ctrlWrite (v : U32) (s : State) : State :=
  let s := { s with ctl := { s.ctl with cancel := v.getLsbD 1, irqEn := v.getLsbD 2 } }
  let s := if v.getLsbD 3 then { s with ctl := { s.ctl with irqPend := false } } else s
  if v.getLsbD 0 ∧ s.ctl.run ≠ .busy then s.start else s

/-- Hardware reset (70_reset_and_hazards.md R175), as an action of the outside world: what R175 calls
unspecified is free, not the values `State.reset` names (log 15). -/
def State.hwReset (s : State) : State :=
  { State.reset with
    params := s.params
    ctl :=
      { run := .idle
        phase := if Config.freeReg s.draws 26 % 2 = 1 then .atBlock else .atHeader
        cancel := false
        irqEn := false
        irqPend := false }
    cur :=
      { inLen := 0
        inLenL := BitVec.ofNat 32 (Config.freeReg s.draws 27)
        blkStart := BitVec.ofNat 32 (Config.freeReg s.draws 28)
        pos := BitVec.ofNat 32 (Config.freeReg s.draws 25) }
    img := Img.free s.draws (BitVec.ofNat 32 (Config.freeReg s.draws 27)).toNat
    lz := Lzw.free s.draws s.params.maxImagePixels
    hostq := s.hostq
    rdata := s.rdata
    draws := s.draws + 1 }

end Sys2Proof.Machine
end

