-- ==== Sys2Proof/Machine/Operands.lean ====
section
/-!
DEFINITION. How each unit forms its operands: stream bytes at the cursor, payload bits and
dictionary entries for the LZW unit, the active color table and the transparency test for the
compositor.
-/

namespace Sys2Proof.Machine

/-! ### The stream -/

/-- The stream bytes from the cursor on: IN_MEM[pos .. in_len_l) (10_state.md R22, R24;
20_memory.md R50). -/
def State.streamRest (s : State) : List Byte :=
  memRead s.inMem s.cur.pos.toNat (s.cur.inLenL.toNat - s.cur.pos.toNat)

/-! ### The payload -/

/-- Payload bit `p`: bit `p mod 8` of payload byte `p div 8` (20_memory.md R44). Bits beyond the
payload are never read (41_lzw.md R101). -/
def payloadBit (payload : List Byte) (p : Nat) : Bool :=
  match payload[p / 8]? with
  | some b => b.getLsbD (p % 8)
  | none => false

/-- The value of `w` payload bits from bit `p` on, least significant first (20_memory.md R44). -/
def payloadBits (payload : List Byte) (p : Nat) : Nat → Nat
  | 0 => 0
  | w + 1 => (payloadBit payload p).toNat + 2 * payloadBits payload (p + 1) w

/-- `ReadCode(w)` before it moves `bit_pos`: the code at `bit_pos`, or nothing when the payload holds
fewer than `code_width` more bits (41_lzw.md R101). -/
def Lzw.peekCode (payload : List Byte) (l : Lzw) : Option Code :=
  if 8 * payload.length < l.bitPos.toNat + l.codeWidth.toNat then none
  else some (BitVec.ofNat 12 (payloadBits payload l.bitPos.toNat l.codeWidth.toNat))

/-- `bit_pos <- bit_pos + w` (41_lzw.md R101). -/
def Lzw.skipCode (l : Lzw) : Lzw :=
  { l with bitPos := BitVec.ofNat 35 (l.bitPos.toNat + l.codeWidth.toNat) }

/-- What the class of a code depends on (30_encoding.md R82). -/
def Lzw.ctx (l : Lzw) : CodeCtx where
  clearCode := l.clearCode
  eoiCode := l.eoiCode
  dictLen := l.dictLen
  prev := l.prev

/-! ### The dictionary -/

/-- The symbol sequence in slot `c` of DICT (10_state.md R31). SENTINEL holds none; a slot that is not
listed holds a free sequence (41_lzw.md R100; log 8). -/
def Lzw.entry (draw : Nat) (l : Lzw) (c : Code) : List Sym :=
  match l.dict[c.toNat]? with
  | some (.seq xs) => xs
  | some .sentinel => []
  | none => Config.freeSyms draw (c.toNat + 1)

/-- `[head(DICT[c])]`: the first symbol as a one-element sequence (00_scope.md R9). -/
def Lzw.entryHead (draw : Nat) (l : Lzw) (c : Code) : List Sym := (l.entry draw c).take 1

/-! ### Geometry -/

/-- Membership of canvas pixel (x, y) in `Rect(l, t, w, h)`, for a pixel of the canvas
(20_memory.md R52). -/
def inRect (l t w h : U16) (x y : Nat) : Bool :=
  decide (l.toNat ≤ x ∧ x < l.toNat + w.toNat ∧ t.toNat ≤ y ∧ y < t.toNat + h.toNat)

/-- `scr_w × scr_h` (10_state.md R33). -/
def Screen.pixels (c : Screen) : Nat := c.w.toNat * c.h.toNat

/-- `npix` (42_block_parser.md R128). -/
def Img.pixels (m : Img) : Nat := m.w.toNat * m.h.toNat

/-! ### Palette and transparency -/

/-- `SelectPalette()`: the active table and its length, or nothing (44_compositor.md R142). -/
def State.palette (s : State) : Option (List Rgb × BitVec 9) :=
  if s.img.lctFlag then some (s.tabs.lct, s.tabs.lctLen)
  else if s.scr.gctFlag then some (s.tabs.gct, s.tabs.gctLen)
  else none

/-- A decoded index is transparent (44_compositor.md R143): compared as natural numbers. -/
def Gce.transparent (g : Gce) (v : Sym) : Bool :=
  g.valid && g.tf && decide (v.toNat = g.ti.toNat)

/-- The color a table entry gives a painted pixel, opaque (44_compositor.md R144). An entry that is
not listed is free (10_state.md R27; log 8). -/
def opaquePixel (draw : Nat) (table : List Rgb) (v : Sym) : Pixel :=
  let c :=
    match table[v.toNat]? with
    | some c => c
    | none => Config.freeRgb draw v.toNat
  { r := c.r, g := c.g, b := c.b, a := 255 }

/-- The delay delivered with an image (44_compositor.md R145). -/
def Gce.activeDelay (g : Gce) : U16 := if g.valid then g.delay else 0

/-- The disposal method recorded for an image (44_compositor.md R146). -/
def Gce.activeDisposal (g : Gce) : BitVec 3 := if g.valid then g.disp else 0

/-- IN_MEM offset of the image block's first sub-block length byte: `pos` after the minimum code size
byte (42_block_parser.md R128). -/
def State.imageDataOff (s : State) : Nat :=
  s.cur.blkStart.toNat + 11 + 3 * s.tabs.lctLen.toNat

end Sys2Proof.Machine
end

