-- ==== Sys2Proof/Machine/Canvas.lean ====
section
/-!
DEFINITION. The canvas region primitives (20_memory.md R51 to R56) on a row-major pixel list.
-/

namespace Sys2Proof.Machine

/-- TRANSPARENT (10_state.md R34). -/
def transparentPixel : Pixel := { r := 0, g := 0, b := 0, a := 0 }

/-- The canvas `CanvasInit()` writes (42_block_parser.md R117). -/
def blankCanvas (n : Nat) : List Pixel := List.replicate n transparentPixel

/-- `ClearRegion(l, t, w, h)` on a canvas `scrW` pixels wide (20_memory.md R53). -/
def clearRegion (scrW : Nat) (l t w h : U16) (canvas : List Pixel) : List Pixel :=
  canvas.mapIdx fun i p =>
    if inRect l t w h (i % scrW) (i / scrW) then transparentPixel else p

/-- `CopyRegion(k, l, t, w, h)` from a frame (20_memory.md R54). A frame pixel that is not listed is
free (10_state.md R35; log 8). -/
def copyRegion (draw : Nat) (frame : List Pixel) (scrW : Nat) (l t w h : U16)
    (canvas : List Pixel) : List Pixel :=
  canvas.mapIdx fun i p =>
    if inRect l t w h (i % scrW) (i / scrW) then
      match frame[i]? with
      | some q => q
      | none => Config.freePixel draw i
    else p

/-- `PutPixel(x, y, v)` on a canvas of `scrW × scrH` pixels (20_memory.md R55). -/
def putPixel (scrW scrH x y : Nat) (v : Pixel) (canvas : List Pixel) : List Pixel :=
  if x < scrW ∧ y < scrH then canvas.set (y * scrW + x) v else canvas

end Sys2Proof.Machine
end

