-- ==== Sys2Proof/Machine/Flags.lean ====
section
/-!
DEFINITION. The status flags and the CSR words that show them: every CSR is a view of internal
state, gated by STATE (10_state.md R17, R18), and the interrupt output.
-/

namespace Sys2Proof.Machine

/-- The STATUS.STATE field (10_state.md R19). -/
def RunState.code : RunState → Nat
  | .idle => 0
  | .busy => 1
  | .done => 2
  | .error => 3

/-- The interrupt output: `IRQ = irq_pend AND irq_en` (60_exceptions.md R167). -/
def State.irq (s : State) : Bool := s.ctl.irqPend && s.ctl.irqEn

/-- STATE ∈ {DONE, ERROR}: the result views of SCREEN, LOOP, EVT_COUNT, EVT_OVF and LOOP_VALID are
open (10_state.md R18). -/
def State.finished (s : State) : Bool := decide (s.ctl.run = .done ∨ s.ctl.run = .error)

/-- CTRL as read: START and IRQ_ACK read 0 (10_state.md R17). -/
def State.ctrlWord (s : State) : U32 :=
  BitVec.ofNat 32 (2 * s.ctl.cancel.toNat + 4 * s.ctl.irqEn.toNat)

/-- STATUS as read (10_state.md R17, R18). -/
def State.statusWord (s : State) : U32 :=
  BitVec.ofNat 32
    (s.ctl.run.code + 4 * s.ctl.irqPend.toNat + 8 * (s.finished && s.outp.evtOvf).toNat
      + 16 * (s.finished && s.outp.loopValid).toNat)

/-- FRAME_COUNT as read: 0 unless DONE (10_state.md R18). -/
def State.frameCountWord (s : State) : U32 :=
  if s.ctl.run = .done then s.comp.frameCount else 0

/-- SCREEN as read (10_state.md R17, R18). -/
def State.screenWord (s : State) : U32 := if s.finished then s.scr.h ++ s.scr.w else 0

/-- LOOP as read (10_state.md R17, R18). -/
def State.loopWord (s : State) : U32 := if s.finished then s.outp.loopCount.setWidth 32 else 0

/-- EVT_COUNT as read (10_state.md R18). -/
def State.evtCountWord (s : State) : U32 := if s.finished then s.outp.evtCount else 0

/-- A CSR word by byte offset; reserved offsets read 0 (10_state.md R17). The error record reads as it
is in every state (10_state.md R18; DEDUCED, unsafe: log 26). -/
def State.csrWord (s : State) (off : Nat) : U32 :=
  if off = 0x00 then s.ctrlWord
  else if off = 0x04 then s.statusWord
  else if off = 0x08 then s.err.code.setWidth 32
  else if off = 0x0C then s.err.info
  else if off = 0x10 then s.err.pos
  else if off = 0x14 then s.cur.inLen
  else if off = 0x18 then s.frameCountWord
  else if off = 0x1C then s.screenWord
  else if off = 0x20 then s.loopWord
  else if off = 0x24 then s.evtCountWord
  else 0

end Sys2Proof.Machine
end

