-- ==== Sys2Proof/Machine/HostPort.lean ====
section
/-!
DEFINITION. The host's side of the GDE: the meanings of the CTRL commands, and every read and write
of the five windows (20_memory.md R39 to R49; 45_decoder.md R148 to R151, R158).
-/

namespace Sys2Proof.Machine

/-! ### CTRL commands -/

/-- CTRL_START (45_decoder.md R148, R149). -/
def execCtrlStart (v : U32) (s : State) : Host.Outcome State Fault Refusal := .next (s.ctrlWrite v)

/-- CTRL_CANCEL (45_decoder.md R148, R150). -/
def execCtrlCancel (v : U32) (s : State) : Host.Outcome State Fault Refusal := .next (s.ctrlWrite v)

/-- CTRL_IRQ_EN (45_decoder.md R148, R151). -/
def execCtrlIrqEn (v : U32) (s : State) : Host.Outcome State Fault Refusal := .next (s.ctrlWrite v)

/-- CTRL_IRQ_ACK (45_decoder.md R148, R151). -/
def execCtrlIrqAck (v : U32) (s : State) : Host.Outcome State Fault Refusal := .next (s.ctrlWrite v)

/-! ### What the windows hold -/

/-- The four bytes of a word, bits [7:0] at the lowest address (20_memory.md R45). -/
def wordLE (v : U32) : List Byte :=
  [v.extractLsb' 0 8, v.extractLsb' 8 8, v.extractLsb' 16 8, v.extractLsb' 24 8]

/-- The word of four bytes in increasing address order (20_memory.md R45). -/
def ofBytesLE : List Byte → U32
  | [b0, b1, b2, b3] => b3 ++ b2 ++ b1 ++ b0
  | _ => 0

/-- The four bytes of a pixel in address order R, G, B, A (20_memory.md R41). -/
def pixelBytes (p : Pixel) : List Byte := [p.r, p.g, p.b, p.a]

/-- The byte FRAME_MEM holds at an offset, if it is one of a delivered frame (20_memory.md R41). -/
def State.frameMemByte (s : State) (off : Nat) : Option Byte :=
  let perFrame := s.scr.pixels * 4
  if off / perFrame < s.comp.frameCount.toNat then
    match s.outp.frames[off / perFrame]? with
    | none => none
    | some f =>
      match f[off % perFrame / 4]? with
      | none => none
      | some p => (pixelBytes p)[off % 4]?
  else none

/-- The byte DELAY_MEM holds at an offset, if it is one of a delivered frame (20_memory.md R41). -/
def State.delayMemByte (s : State) (off : Nat) : Option Byte :=
  if off / 2 < s.comp.frameCount.toNat then
    match s.outp.delays[off / 2]? with
    | none => none
    | some d => (u16Bytes d)[off % 2]?
  else none

/-- The 20 bytes of an event record (45_decoder.md R157). -/
def EventRec.bytes (r : EventRec) : List Byte :=
  [r.kind, r.label, 0, 0] ++ wordLE r.off ++ wordLE r.len ++ wordLE r.dataOff ++ wordLE r.dataLen

/-- The byte EVT_MEM holds at an offset, if it is one of a recorded event (45_decoder.md R157). -/
def State.evtMemByte (s : State) (off : Nat) : Option Byte :=
  if off / 20 < s.outp.evtCount.toNat then
    match s.outp.events[off / 20]? with
    | none => none
    | some r => (EventRec.bytes r)[off % 20]?
  else none

/-- A data-window byte whose value the spec defines, or nothing where it is unspecified
(20_memory.md R39, R42; 10_state.md R18). -/
def State.definedByte (s : State) (win : Window) (off : Nat) : Option Byte :=
  match win with
  | .inMem => some (memByte s.inMem off)
  | .csr => none
  | .frameMem => if s.ctl.run = .done then s.frameMemByte off else none
  | .delayMem => if s.ctl.run = .done then s.delayMemByte off else none
  | .evtMem => if s.finished then s.evtMemByte off else none

/-- A data-window byte as the host reads it: free where it is unspecified (20_memory.md R42;
70_reset_and_hazards.md R179; log 7). -/
def State.hostByte (s : State) (win : Window) (off : Nat) : Byte :=
  match s.definedByte win off with
  | some b => b
  | none => Config.freeByte s.draws off

/-! ### Reads and writes -/

/-- An access of `n` bytes at a host address, all of them inside the window (20_memory.md R39, R40). -/
def inWindow (p : Params) (win : Window) (addr n : Nat) : Bool :=
  decide (p.base win ≤ addr ∧ addr + n ≤ p.base win + p.size win)

/-- The form of a CSR access: 32 bits at a multiple of 4 from `CSR_BASE` (20_memory.md R47). -/
def csrForm (p : Params) (addr n : Nat) : Bool :=
  decide (n = 4 ∧ addr % 4 = p.base .csr % 4)

/-- A host read of a data window: 1 to 4 bytes in increasing address order (20_memory.md R49), left in
`rdata` (log 3). -/
def State.dataRead (win : Window) (addr n : Nat) (s : State) :
    Host.Outcome State Fault Refusal :=
  if 1 ≤ n ∧ n ≤ 4 then
    if inWindow s.params win addr n then
      .next
        { s.drawn with
          rdata := (List.range n).map fun i => s.hostByte win (addr - s.params.base win + i) }
    else .fault (.noSuchAddress win addr)
  else .refused .dataReadWidth

/-- A host read of a CSR, left in `rdata` (20_memory.md R47; log 3). It is answered in every state as
10_state.md R18 says, ERRCODE, ERRINFO and ERRPOS in IDLE and BUSY included, though the table of
45_decoder.md R158 allows it only in some (DEDUCED, unsafe; log 26). -/
def State.csrRead (addr n : Nat) (s : State) : Host.Outcome State Fault Refusal :=
  if csrForm s.params addr n then
    if inWindow s.params .csr addr n then
      .next { s with rdata := wordLE (s.csrWord (addr - s.params.base .csr)) }
    else .fault (.noSuchAddress .csr addr)
  else .refused .csrAccessForm

/-- A host read. EVT_MEM is read only in DONE and ERROR (45_decoder.md R158); every other window is read
in every state: FRAME_MEM and DELAY_MEM by 70_reset_and_hazards.md R179, IN_MEM by log 16, the CSRs by
log 26. -/
def State.hostRead (win : Window) (addr n : Nat) (s : State) :
    Host.Outcome State Fault Refusal :=
  match win with
  | .inMem => s.dataRead .inMem addr n
  | .csr => s.csrRead addr n
  | .frameMem => s.dataRead .frameMem addr n
  | .delayMem => s.dataRead .delayMem addr n
  | .evtMem => if s.finished then s.dataRead .evtMem addr n else .refused .evtMemReadEarly

/-- A host write to IN_MEM: bytes in increasing address order (45_decoder.md R158; 20_memory.md R60). -/
def State.inMemWrite (addr : Nat) (data : List Byte) (s : State) :
    Host.Outcome State Fault Refusal :=
  if s.ctl.run = .busy then .refused .inMemWriteWhileBusy
  else if inWindow s.params .inMem addr data.length then
    .next { s with inMem := memWrite s.inMem (addr - s.params.base .inMem) data }
  else .fault (.noSuchAddress .inMem addr)

/-- A host write of `v` to IN_LEN (20_memory.md R48). -/
def State.writeInLen (v : U32) (s : State) : State :=
  if s.ctl.run = .busy then s else { s with cur := { s.cur with inLen := v } }

/-- A host write of word `v` to the CSR at a byte offset, for every CSR and every word: CTRL and
IN_LEN act, every other CSR ignores it (20_memory.md R47). -/
def State.csrStore (off : Nat) (v : U32) (s : State) : State :=
  if off = 0x00 then s.ctrlWrite v
  else if off = 0x14 then s.writeInLen v
  else s

/-- A host write to the CSR window (20_memory.md R47). -/
def State.csrWrite (addr : Nat) (data : List Byte) (s : State) :
    Host.Outcome State Fault Refusal :=
  if csrForm s.params addr data.length then
    if inWindow s.params .csr addr data.length then
      .next (s.csrStore (addr - s.params.base .csr) (ofBytesLE data))
    else .fault (.noSuchAddress .csr addr)
  else .refused .csrAccessForm

/-- A host write to a result window is ignored (20_memory.md R49). -/
def State.resultWrite (win : Window) (addr n : Nat) (s : State) :
    Host.Outcome State Fault Refusal :=
  if inWindow s.params win addr n then .next s else .fault (.noSuchAddress win addr)

/-- A host write. -/
def State.hostWrite (win : Window) (addr : Nat) (data : List Byte) (s : State) :
    Host.Outcome State Fault Refusal :=
  match win with
  | .inMem => s.inMemWrite addr data
  | .csr => s.csrWrite addr data
  | .frameMem => s.resultWrite .frameMem addr data.length
  | .delayMem => s.resultWrite .delayMem addr data.length
  | .evtMem => s.resultWrite .evtMem addr data.length

end Sys2Proof.Machine
end

