-- ==== Sys2Proof/Machine/Compositor.lean ====
section
/-!
DEFINITION. The frame compositor (44_compositor.md): the meanings of the disposal values, and the
other steps of `Composite()`.
-/

namespace Sys2Proof.Machine

/-! ### Disposal of the previous image (step 1) -/

/-- Clear the previous image's rectangle (44_compositor.md R138). -/
def State.clearPrevious (s : State) : State :=
  { s with
    comp :=
      { s.comp with
        canvas :=
          clearRegion s.scr.w.toNat s.comp.prevLeft s.comp.prevTop s.comp.prevW s.comp.prevH
            s.comp.canvas } }

/-- The pixels of FRAMES[k]; none are listed for a frame that was never delivered
(10_state.md R35, R36). -/
def Output.framePixels (o : Output) (k : U32) : List Pixel :=
  match o.frames[k.toNat]? with
  | some f => f
  | none => []

/-- Restore the previous image's rectangle from a frame, or clear it when there is none
(44_compositor.md R139). -/
def State.restorePrevious (s : State) : State :=
  match s.comp.restoreFrom with
  | none => s.clearPrevious
  | some k =>
    { s with
      comp :=
        { s.comp with
          canvas :=
            copyRegion s.draws (s.outp.framePixels k) s.scr.w.toNat s.comp.prevLeft s.comp.prevTop
              s.comp.prevW s.comp.prevH s.comp.canvas } }

/-- DISPOSE_0: no action (44_compositor.md R137). -/
def execDispose0 (s : State) : Host.Outcome State Fault Refusal := .next s

/-- DISPOSE_1: no action (44_compositor.md R137). -/
def execDispose1 (s : State) : Host.Outcome State Fault Refusal := .next s

/-- DISPOSE_2: restore to background (44_compositor.md R138). -/
def execDispose2 (s : State) : Host.Outcome State Fault Refusal := .next s.clearPrevious

/-- DISPOSE_3: restore to previous (44_compositor.md R139). -/
def execDispose3 (s : State) : Host.Outcome State Fault Refusal := .next s.restorePrevious

/-- DISPOSE_RSVD: no action (44_compositor.md R140). -/
def execDisposeRsvd (_d : BitVec 3) (s : State) : Host.Outcome State Fault Refusal := .next s

/-- `Dispose(m)` for m = `last_disp` (44_compositor.md R136). -/
def State.disposePrevious (s : State) : State :=
  match decodeDisposal s.comp.lastDisp with
  | .dispose2 => s.clearPrevious
  | .dispose3 => s.restorePrevious
  | _ => s

/-! ### The later steps -/

/-- `TrackRestore()`, only when a frame was delivered before (44_compositor.md R135, R141). -/
def State.trackRestore (s : State) : State :=
  if s.comp.frameCount ≠ 0 ∧ s.comp.lastDisp ≠ 3 then
    { s with comp := { s.comp with restoreFrom := some (s.comp.frameCount - 1) } }
  else s

/-- What `Paint` needs to know of the state it paints in (44_compositor.md R144). -/
structure PaintEnv where
  table : List Rgb
  tableLen : BitVec 9
  gce : Gce
  img : Img
  scr : Screen
  draw : Nat
  deriving DecidableEq, Repr

/-- `Paint` from index `i` on: the painted canvas, or the first index out of range
(44_compositor.md R144). -/
def paintFrom (e : PaintEnv) : Nat → List Sym → List Pixel → Except Sym (List Pixel)
  | _, [], canvas => .ok canvas
  | i, v :: vs, canvas =>
    if e.gce.transparent v then paintFrom e (i + 1) vs canvas
    else if e.tableLen.toNat ≤ v.toNat then .error v
    else
      paintFrom e (i + 1) vs
        (putPixel e.scr.w.toNat e.scr.h.toNat (e.img.left.toNat + i % e.img.w.toNat)
          (e.img.top.toNat + i / e.img.w.toNat) (opaquePixel e.draw e.table v) canvas)

/-- The paint environment of a state and its active table. -/
def State.paintEnv (table : List Rgb) (tableLen : BitVec 9) (s : State) : PaintEnv where
  table := table
  tableLen := tableLen
  gce := s.gce
  img := s.img
  scr := s.scr
  draw := s.draws

/-- `Deliver(k)` for k = `frame_count`, once the capacity test has passed (44_compositor.md R145). -/
def State.deliver (s : State) : State :=
  let k := s.comp.frameCount
  { s with
    outp :=
      { s.outp with
        frames := s.outp.frames.take k.toNat ++ [s.comp.canvas]
        delays := s.outp.delays.take k.toNat ++ [s.gce.activeDelay] }
    comp := { s.comp with frameCount := k + 1 } }

/-- `RecordPrevious()` (44_compositor.md R146). -/
def State.recordPrevious (s : State) : State :=
  { s with
    comp :=
      { s.comp with
        lastDisp := s.gce.activeDisposal
        prevLeft := s.img.left
        prevTop := s.img.top
        prevW := s.img.w
        prevH := s.img.h }
    gce := { s.gce with valid := false } }

/-- The end of an image block: its event, the LZW unit and IDX given up, the engine back at the block
boundary (42_block_parser.md R128; 10_state.md R30, R32; log 11). -/
def State.endImage (s : State) : State :=
  let s := s.emit .image 0 s.imageDataOff s.img.payload.length
  { s.releaseLzw with unit := .parser }

/-- Steps 6 and 7 and the block's event (44_compositor.md R145, R146; 42_block_parser.md R128). -/
def State.deliverAndRecord (s : State) : State :=
  if s.comp.frameCount.toNat < s.params.maxFrames then s.deliver.recordPrevious.endImage
  else s.raise (.resourceExhausted .frames)

/-- Steps 4 and 5 with the selected table, then the rest (44_compositor.md R135, R144). -/
def State.paintAndDeliver (table : List Rgb) (tableLen : BitVec 9) (s : State) : State :=
  match paintFrom (s.paintEnv table tableLen) 0 s.idx s.comp.canvas with
  | .error v => s.raise (.pixelIndexOutOfRange v)
  | .ok canvas => State.deliverAndRecord { s with comp := { s.comp with canvas := canvas } }

/-- Steps 2 to 7 of `Composite()` and the end of the block (44_compositor.md R135). -/
def State.composite (s : State) : State :=
  match s.trackRestore.palette with
  | none => s.trackRestore.raise .noColorTable
  | some (table, tableLen) => s.trackRestore.paintAndDeliver table tableLen

end Sys2Proof.Machine
end

