-- ==== Sys2Proof/Machine/Deinterlace.lean ====
section
/-!
DEFINITION. The deinterlace reordering engine (43_deinterlace.md).
-/

namespace Sys2Proof.Machine

/-- The pass table: first destination row and row step (43_deinterlace.md R131). -/
def passTable : List (Nat × Nat) := [(0, 8), (4, 8), (2, 4), (1, 2)]

/-- The rows one pass visits: `start`, `start + step`, ... below `h` (43_deinterlace.md R132). -/
def passRows (h start step : Nat) : List Nat :=
  (List.range ((h - start + step - 1) / step)).map fun j => start + j * step

/-- `RowOrder(h)` (43_deinterlace.md R132). -/
def rowOrder (h : Nat) : List Nat := passTable.flatMap fun p => passRows h p.1 p.2

/-- Decoded row `k` of a buffer `w` entries wide. -/
def decodedRow (idx : List Sym) (w k : Nat) : List Sym := (idx.drop (k * w)).take w

/-- `Deinterlace(idx, w, h)`: destination row y is the decoded row at which the passes visit y
(43_deinterlace.md R133). -/
def deinterlace (idx : List Sym) (w h : Nat) : List Sym :=
  (List.range h).flatMap fun y => decodedRow idx w ((rowOrder h).idxOf y)

end Sys2Proof.Machine
end

