-- ==== Sys2Proof/Machine/Lzw.lean ====
section
/-!
DEFINITION. The LZW decompressor (41_lzw.md): its register operations, and the meanings of the five
code classes. A meaning runs after ReadCode has moved `bit_pos` past the code.
-/

namespace Sys2Proof.Machine

/-! ### Register operations -/

/-- The dictionary a clear code leaves: one slot per symbol, the clear slot, the EOI slot
(41_lzw.md R100). -/
def freshDict (clear : Nat) : List Slot :=
  (List.range clear).map (fun i => Slot.seq [BitVec.ofNat 11 i]) ++ [Slot.seq [], Slot.sentinel]

/-- `LzwReset()` (41_lzw.md R100). -/
def Lzw.reset (m : Byte) (l : Lzw) : Lzw :=
  { l with
    dict := freshDict l.clearCode.toNat
    dictLen := BitVec.ofNat 13 (l.clearCode.toNat + 2)
    codeWidth := BitVec.ofNat 4 (m.toNat + 1) }

/-- `LzwInit(m)` (41_lzw.md R99). -/
def Lzw.init (m : Byte) (l : Lzw) : Lzw :=
  let l :=
    { l with
      clearCode := BitVec.ofNat 12 (2 ^ m.toNat)
      eoiCode := BitVec.ofNat 12 (2 ^ m.toNat + 1) }
  { l.reset m with prev := none, bitPos := 0, out := [] }

/-- LzwCheckMin accepts minimum code sizes 1 to 11 (41_lzw.md R98). -/
def minCodeOk (m : Byte) : Bool := decide (1 ≤ m.toNat ∧ m.toNat ≤ 11)

/-- Append an entry at slot `dict_len` (41_lzw.md R104, R105). -/
def Lzw.append (e : List Sym) (l : Lzw) : Lzw :=
  { l with
    dict := l.dict.take l.dictLen.toNat ++ [Slot.seq e]
    dictLen := BitVec.ofNat 13 (l.dictLen.toNat + 1) }

/-- The append of `LzwKnown(c)`: nothing right after a clear code or with a full dictionary
(41_lzw.md R104, R107). -/
def Lzw.learnKnown (draw : Nat) (c : Code) (l : Lzw) : Lzw :=
  match l.prev with
  | none => l
  | some p =>
    if l.dictLen.toNat < 4096 then l.append (l.entry draw p ++ l.entryHead draw c) else l

/-- The entry `LzwKwKwK(c)` makes from the previous one (41_lzw.md R105). -/
def Lzw.rebuilt (draw : Nat) (l : Lzw) : List Sym :=
  match l.prev with
  | none => []
  | some p => l.entry draw p ++ l.entryHead draw p

/-- `LzwGrow()` (41_lzw.md R108). -/
def Lzw.grow (l : Lzw) : Lzw :=
  if l.dictLen.toNat = 2 ^ l.codeWidth.toNat ∧ l.codeWidth.toNat < 12 then
    { l with codeWidth := BitVec.ofNat 4 (l.codeWidth.toNat + 1) }
  else l

/-- `prev <- c; LzwGrow()` after an emit (41_lzw.md R97). -/
def Lzw.settle (c : Code) (l : Lzw) : Lzw := Lzw.grow { l with prev := some c }

/-! ### The body of the decode loop -/

/-- `Emit(s); prev <- c; LzwGrow()` (41_lzw.md R97, R108, R110). -/
def State.emitSyms (xs : List Sym) (c : Code) (s : State) : State :=
  if s.img.pixels < s.lz.out.length + xs.length then
    s.raise (.pixelCountMismatch (s.lz.out.length + xs.length))
  else { s with lz := Lzw.settle c { s.lz with out := s.lz.out ++ xs } }

/-- CLEAR (41_lzw.md R102). -/
def State.lzwClear (s : State) : State :=
  { s with lz := { s.lz.reset s.img.minCode with prev := none } }

/-- EOI: leave the loop and check the count, `LzwFinish(npix)` (41_lzw.md R103, R111). -/
def State.lzwEoi (s : State) : State :=
  if s.lz.out.length = s.img.pixels then { s with unit := .reorder }
  else s.raise (.pixelCountMismatch s.lz.out.length)

/-- KNOWN: append if there is a previous data code and room, then emit the entry as it stood before
the append (41_lzw.md R104, R107). -/
def State.lzwKnown (c : Code) (s : State) : State :=
  State.emitSyms (s.lz.entry s.draws c) c { s with lz := s.lz.learnKnown s.draws c }

/-- KWKWK: make the entry, append it and emit it (41_lzw.md R105). -/
def State.lzwKwkwk (c : Code) (s : State) : State :=
  let e := s.lz.rebuilt s.draws
  State.emitSyms e c { s with lz := s.lz.append e }

/-- INVALID (41_lzw.md R106). -/
def State.lzwInvalid (c : Code) (s : State) : State := s.raise (.invalidLzwCode c)

/-! ### Meanings -/

/-- LZW_CLEAR (41_lzw.md R102). -/
def execLzwClear (_c : Code) (s : State) : Host.Outcome State Fault Refusal := .next s.lzwClear

/-- LZW_EOI (41_lzw.md R103, R111). -/
def execLzwEoi (_c : Code) (s : State) : Host.Outcome State Fault Refusal := .next s.lzwEoi

/-- LZW_KNOWN (41_lzw.md R104). -/
def execLzwKnown (c : Code) (s : State) : Host.Outcome State Fault Refusal := .next (s.lzwKnown c)

/-- LZW_KWKWK (41_lzw.md R105). -/
def execLzwKwkwk (c : Code) (s : State) : Host.Outcome State Fault Refusal := .next (s.lzwKwkwk c)

/-- LZW_INVALID (41_lzw.md R106). -/
def execLzwInvalid (c : Code) (s : State) : Host.Outcome State Fault Refusal :=
  .next (s.lzwInvalid c)

end Sys2Proof.Machine
end

