-- ==== Sys2Proof/Machine/Image.lean ====
section
/-!
DEFINITION. The image step (42_block_parser.md R128): its front, the units it runs one after the
other, and the whole step, which is the meaning of IMAGE.
-/

namespace Sys2Proof.Machine

/-- The image registers and the local table as the descriptor gives them (42_block_parser.md R128;
10_state.md R27, R29). -/
def State.loadImage (op : ImageOp) (s : State) : State :=
  { s with
    img :=
      { left := op.left, top := op.top, w := op.width, h := op.height, lctFlag := op.lctFlag,
        interlace := op.interlace, sort := op.sort, rsvd := op.rsvd, lctSize := op.lctSize,
        minCode := op.minCode, payload := op.data.flatten }
    tabs :=
      { s.tabs with
        lct := if op.lctFlag then op.lct else []
        lctLen := if op.lctFlag then BitVec.ofNat 9 (tableLen op.lctSize) else 0 } }

/-- The start of LzwDecode: capacity test, LzwCheckMin, LzwInit, in the order R129 gives
(42_block_parser.md R128, R129; 41_lzw.md R98, R99). -/
def State.beginLzw (s : State) : State :=
  if s.params.maxImagePixels < s.img.pixels then s.raise (.resourceExhausted .image)
  else if minCodeOk s.img.minCode then
    { s with lz := s.lz.init s.img.minCode, unit := .lzw }
  else s.raise (.invalidMinCodeSize s.img.minCode)

/-- One turn of the LZW loop after ReadCode: the code's class decides (41_lzw.md R97). -/
def State.lzwCode (c : Code) (s : State) : State :=
  match decodeCode s.lz.ctx c with
  | .lzwClear _ => s.lzwClear
  | .lzwEoi _ => s.lzwEoi
  | .lzwKnown _ => s.lzwKnown c
  | .lzwKwkwk _ => s.lzwKwkwk c
  | _ => s.lzwInvalid c

/-- `bit_pos` moved past the code (41_lzw.md R101). -/
def State.skipCode (s : State) : State := { s with lz := s.lz.skipCode }

/-- The end of the payload before EOI (41_lzw.md R101). -/
def State.payloadEnded (s : State) : State := s.raise (.endOfPayload s.lz.bitPos.toNat)

/-- One turn of the LZW loop (41_lzw.md R97, R101). -/
def State.lzwTurn (s : State) : State :=
  match s.lz.peekCode s.img.payload with
  | none => s.payloadEnded
  | some c => s.skipCode.lzwCode c

/-- IDX from the decoded symbols, reordered for an interlaced image; disposal comes next unless this
is the first image (42_block_parser.md R128; 44_compositor.md R135). -/
def State.fillIdx (s : State) : State :=
  { s with
    idx :=
      if s.img.interlace then deinterlace s.lz.out s.img.w.toNat s.img.h.toNat else s.lz.out
    unit := if s.comp.frameCount = 0 then .paint else .dispose }

/-- One turn of the unit the engine stands in; nothing at a block boundary (log 1). -/
def State.unitTurn (s : State) : State :=
  match s.unit with
  | .parser => s
  | .lzw => s.lzwTurn
  | .reorder => s.fillIdx
  | .dispose => State.disposePrevious { s with unit := .paint }
  | .paint => s.composite

/-- Up to `n` unit turns, until the engine is back at a block boundary. -/
def State.runUnits : Nat → State → State
  | 0, s => s
  | n + 1, s => if s.unit = .parser then s else State.runUnits n s.unitTurn

/-- Enough unit turns for any image: at most 8 × len(P) div 2 + 1 code reads (41_lzw.md R113) and the
three turns after them. -/
def imageTurns (payloadLen : Nat) : Nat := 4 * payloadLen + 4

/-- The whole image step (42_block_parser.md R128), atomic (45_decoder.md R152). -/
def State.imageStep (op : ImageOp) (s : State) : State :=
  let s := (s.loadImage op).beginLzw
  s.runUnits (imageTurns op.data.flatten.length)

/-- IMAGE (42_block_parser.md R128). -/
def execImage (op : ImageOp) (s : State) : Host.Outcome State Fault Refusal :=
  .next (s.imageStep op)

end Sys2Proof.Machine
end

