-- ==== Sys2Proof/Machine/Parser.lean ====
section
/-!
DEFINITION. The meanings of the blocks other than IMAGE (42_block_parser.md). A meaning runs with
`blk_start` at the block's first byte and `pos` after its last.
-/

namespace Sys2Proof.Machine

/-- The header's registers that the host cannot see, and the global table (42_block_parser.md R116). -/
def State.loadHeader (op : HeaderOp) (s : State) : State :=
  { s with
    scr :=
      { s.scr with
        gctFlag := op.gctFlag, colorRes := op.colorRes, sort := op.sort, gctSize := op.gctSize,
        bgIndex := op.bgIndex, aspect := op.aspect }
    tabs :=
      { s.tabs with
        gct := if op.gctFlag then op.gct else []
        gctLen := if op.gctFlag then BitVec.ofNat 9 (tableLen op.gctSize) else 0 } }

/-- The screen size and its blank canvas, the header's event, and phase AT_BLOCK
(42_block_parser.md R116, R117). -/
def State.openScreen (op : HeaderOp) (s : State) : State :=
  let s :=
    { s with
      scr := { s.scr with w := op.width, h := op.height }
      comp := { s.comp with canvas := blankCanvas (op.width.toNat * op.height.toNat) } }
  let s := s.emit .header 0 0 0
  { s with ctl := { s.ctl with phase := .atBlock } }

/-- HEADER (42_block_parser.md R116, R117). A screen beyond the canvas capacity is an error, and then
the host-visible SCREEN keeps its value (60_exceptions.md R162; log 9). -/
def execHeader (op : HeaderOp) (s : State) : Host.Outcome State Fault Refusal :=
  if s.params.maxCanvasPixels < op.width.toNat * op.height.toNat then
    .next ((s.loadHeader op).raise (.resourceExhausted .canvas))
  else .next ((s.loadHeader op).openScreen op)

/-- BAD_SIGNATURE (42_block_parser.md R115). -/
def execBadSignature (s0 s1 s2 : Byte) (s : State) : Host.Outcome State Fault Refusal :=
  .next (s.raise (.notAGifFile s0 s1 s2))

/-- EXT_GCE (42_block_parser.md R121, R122). -/
def execExtGce (op : GceOp) (s : State) : Host.Outcome State Fault Refusal :=
  let s :=
    { s with
      gce :=
        { valid := true, disp := op.disp, ui := op.ui, tf := op.tf, delay := op.delay,
          ti := op.ti } }
  .next (s.emit .gce 0xF9 0 0)

/-- An extension whose chain of data starts `skip` bytes into the block is surfaced by its event and
changes nothing else (42_block_parser.md R123, R124, R125, R127). -/
def State.surface (kind : EventKind) (label : Byte) (skip : Nat) (data : Chain) (s : State) :
    State :=
  s.emit kind label (s.cur.blkStart.toNat + skip) data.flatten.length

/-- EXT_COMMENT (42_block_parser.md R123). -/
def execExtComment (data : Chain) (s : State) : Host.Outcome State Fault Refusal :=
  .next (s.surface .comment 0xFE 2 data)

/-- EXT_PLAINTEXT (42_block_parser.md R124). -/
def execExtPlaintext (_size : Byte) (_hdr : List Byte) (data : Chain) (s : State) :
    Host.Outcome State Fault Refusal :=
  .next (s.surface .plaintext 0x01 15 data)

/-- EXT_APP (42_block_parser.md R125). -/
def execExtApp (op : AppOp) (s : State) : Host.Outcome State Fault Refusal :=
  .next (s.surface .application 0xFF 14 op.data)

/-- EXT_APP_NETSCAPE (42_block_parser.md R126). -/
def execExtAppNetscape (op : NetscapeOp) (s : State) : Host.Outcome State Fault Refusal :=
  let s := { s with outp := { s.outp with loopCount := op.loopCount, loopValid := true } }
  .next (s.emit .netscape 0xFF 0 op.loopCount.toNat)

/-- EXT_UNKNOWN (42_block_parser.md R127). -/
def execExtUnknown (label : Byte) (data : Chain) (s : State) : Host.Outcome State Fault Refusal :=
  .next (s.surface .unknownExt label 2 data)

/-- `Commit()` (45_decoder.md R155). -/
def State.commit (s : State) : State :=
  { s with ctl := { s.ctl with run := .done, irqPend := true } }

/-- TRAILER (42_block_parser.md R130). -/
def execTrailer (s : State) : Host.Outcome State Fault Refusal :=
  .next (s.emit .trailer 0 0 0).commit

/-- ILLEGAL_SENTINEL (42_block_parser.md R119). -/
def execIllegalSentinel (b : Byte) (s : State) : Host.Outcome State Fault Refusal :=
  .next (s.raise (.unknownBlockSentinel b))

end Sys2Proof.Machine
end

