-- ==== Sys2Proof/Machine/Dispatch.lean ====
section
/-! DEFINITION. One arm per row of spec/opcode_table.json: each calls its meaning. -/

namespace Sys2Proof.Machine

def exec (i : Instr) (s : State) : Host.Outcome State Fault Refusal :=
  match i with
  | .header op => Sys2Proof.Machine.execHeader op s
  | .badSignature s0 s1 s2 => Sys2Proof.Machine.execBadSignature s0 s1 s2 s
  | .extGce op => Sys2Proof.Machine.execExtGce op s
  | .extComment data => Sys2Proof.Machine.execExtComment data s
  | .extPlaintext size hdr data => Sys2Proof.Machine.execExtPlaintext size hdr data s
  | .extAppNetscape op => Sys2Proof.Machine.execExtAppNetscape op s
  | .extApp op => Sys2Proof.Machine.execExtApp op s
  | .extUnknown label data => Sys2Proof.Machine.execExtUnknown label data s
  | .image op => Sys2Proof.Machine.execImage op s
  | .trailer => Sys2Proof.Machine.execTrailer s
  | .illegalSentinel b => Sys2Proof.Machine.execIllegalSentinel b s
  | .lzwClear c => Sys2Proof.Machine.execLzwClear c s
  | .lzwEoi c => Sys2Proof.Machine.execLzwEoi c s
  | .lzwKnown c => Sys2Proof.Machine.execLzwKnown c s
  | .lzwKwkwk c => Sys2Proof.Machine.execLzwKwkwk c s
  | .lzwInvalid c => Sys2Proof.Machine.execLzwInvalid c s
  | .dispose0 => Sys2Proof.Machine.execDispose0 s
  | .dispose1 => Sys2Proof.Machine.execDispose1 s
  | .dispose2 => Sys2Proof.Machine.execDispose2 s
  | .dispose3 => Sys2Proof.Machine.execDispose3 s
  | .disposeRsvd d => Sys2Proof.Machine.execDisposeRsvd d s
  | .ctrlStart v => Sys2Proof.Machine.execCtrlStart v s
  | .ctrlCancel v => Sys2Proof.Machine.execCtrlCancel v s
  | .ctrlIrqEn v => Sys2Proof.Machine.execCtrlIrqEn v s
  | .ctrlIrqAck v => Sys2Proof.Machine.execCtrlIrqAck v s

end Sys2Proof.Machine
end

