-- ==== Sys2Proof/Machine/Fetch.lean ====
section
/-!
DEFINITION. What the next step does, found from the state alone: which agent and which unit moves,
and the instruction it decodes with the state past that instruction's own words
(45_decoder.md R148, R152; log 1, log 2).
-/

namespace Sys2Proof.Machine

/-- The next step: an instruction to run, with the state after its fetch, or a move that is no row of
the opcode table. -/
inductive Fetched where
  | run (i : Instr) (s : State)
  | other (o : Host.Outcome State Fault Refusal)

/-! ### Blocks -/

/-- `pos` moved past the bytes a block's decoding read; `rest` are the stream bytes after it
(40_bitstream.md R89). -/
def State.advance (rest : List Byte) (s : State) : State :=
  { s with
    cur :=
      { s.cur with
        pos := BitVec.ofNat 32 (s.cur.pos.toNat + (s.streamRest.length - rest.length)) } }

/-- UnexpectedEndOfStream at the cursor of the failing read (40_bitstream.md R89;
60_exceptions.md R161). -/
def State.endOfStream (e : Short) (s : State) : State :=
  s.raise
    (.endOfStream e.need
      (BitVec.ofNat 32 (s.cur.pos.toNat + (s.streamRest.length - e.left))))

/-- The screen registers that a header whose stream is `bs` has written when the stream's end cuts it
short: those whose byte it read, at the offsets of 30_encoding.md R64, in the order of
42_block_parser.md R116. The host-visible `scr_w` and `scr_h` keep their values (log 9). -/
def Screen.cutHeader (bs : List Byte) (c : Screen) : Screen :=
  match bs[10]? with
  | none => c
  | some p =>
    { c with
      gctFlag := p.getLsbD 7
      colorRes := p.extractLsb' 4 3
      sort := p.getLsbD 3
      gctSize := p.extractLsb' 0 3
      bgIndex := bs[11]?.getD c.bgIndex
      aspect := bs[12]?.getD c.aspect }

/-- The registers of a header cut short by the end of the stream (42_block_parser.md R115, R116). -/
def State.cutHeader (s : State) : State := { s with scr := s.scr.cutHeader s.streamRest }

/-- A 16-bit register after the read of its field at block offset `k`: unchanged unless both bytes are
there (40_bitstream.md R93). -/
def u16At (bs : List Byte) (k : Nat) (old : U16) : U16 :=
  match bs[k]?, bs[k + 1]? with
  | some b0, some b1 => le16 b0 b1
  | _, _ => old

/-- The local table of a descriptor with flags byte `q` and the bytes after it, where the stream holds
it whole (42_block_parser.md R128). -/
def cutTable (q : Byte) (bs : List Byte) : Except Short (List Rgb × List Byte) :=
  readOptTable (q.getLsbD 7) (q.extractLsb' 0 3) (bs.drop 10)

/-- The image registers that an image block of bytes `bs` has written when the stream's end cuts it
short: those whose bytes it read, at the offsets of 30_encoding.md R74, in the order of
42_block_parser.md R128. The payload is written by no block cut short. -/
def Img.cutImage (bs : List Byte) (m : Img) : Img :=
  let m :=
    { m with
      left := u16At bs 1 m.left, top := u16At bs 3 m.top, w := u16At bs 5 m.w, h := u16At bs 7 m.h }
  match bs[9]? with
  | none => m
  | some q =>
    let m :=
      { m with
        lctFlag := q.getLsbD 7, interlace := q.getLsbD 6, sort := q.getLsbD 5,
        rsvd := q.extractLsb' 3 2, lctSize := q.extractLsb' 0 3 }
    match cutTable q bs with
    | .error _ => m
    | .ok (_, rest) => { m with minCode := rest.head?.getD m.minCode }

/-- The local table of an image block of bytes `bs` cut short by the end of the stream: as it was until
the table step, then the descriptor's (42_block_parser.md R128; 10_state.md R27). -/
def Tables.cutImage (bs : List Byte) (t : Tables) : Tables :=
  match bs[9]? with
  | none => t
  | some q =>
    match cutTable q bs with
    | .error _ => t
    | .ok (lct, _) =>
      { t with
        lct := lct
        lctLen := if q.getLsbD 7 then BitVec.ofNat 9 (tableLen (q.extractLsb' 0 3)) else 0 }

/-- The registers of an image block cut short by the end of the stream (42_block_parser.md R128). -/
def State.cutImage (s : State) : State :=
  { s with img := s.img.cutImage s.streamRest, tabs := s.tabs.cutImage s.streamRest }

/-- A block cut short by the end of the stream (40_bitstream.md R89; log 9). Only a header
and an image write registers between their reads. -/
def State.cutBlock (e : Short) (s : State) : State :=
  if s.streamRest.head? = some 0x2C then s.cutImage.endOfStream e else s.endOfStream e

/-- The header step's fetch (42_block_parser.md R116). -/
def State.fetchHeader (s : State) : Fetched :=
  match decodeHeader s.streamRest with
  | .ok (i, rest) => .run i (s.advance rest)
  | .error e => .other (.next (s.cutHeader.endOfStream e))

/-- The block step's fetch (42_block_parser.md R118). -/
def State.fetchBlock (s : State) : Fetched :=
  match decodeBlock s.streamRest with
  | .ok (i, rest) => .run i (s.advance rest)
  | .error e => .other (.next (s.cutBlock e))

/-- `EngineStep()`, enabled only while BUSY: the cancel test at the block boundary, then the header
or the next block (45_decoder.md R150, R152). -/
def State.fetchEngine (s : State) : Fetched :=
  if s.ctl.run ≠ .busy then .other (.next s)
  else if s.ctl.cancel then .other (.next (s.raise .cancelled))
  else
    match s.ctl.phase with
    | .atHeader => State.fetchHeader { s with cur := { s.cur with blkStart := 0 } }
    | .atBlock => State.fetchBlock { s with cur := { s.cur with blkStart := s.cur.pos } }

/-! ### Inside an image step -/

/-- The next move of the unit the engine stands in (41_lzw.md R97; 44_compositor.md R135). -/
def State.fetchUnit (s : State) : Fetched :=
  match s.unit with
  | .parser => .other (.next s)
  | .lzw =>
    match s.lz.peekCode s.img.payload with
    | none => .other (.next s.payloadEnded)
    | some c => .run (decodeCode s.lz.ctx c) s.skipCode
  | .reorder => .other (.next s.fillIdx)
  | .dispose => .run (decodeDisposal s.comp.lastDisp) { s with unit := .paint }
  | .paint => .other (.next s.composite)

/-! ### The host -/

/-- The CTRL word a host write carries, if it is a well-formed write of CTRL (20_memory.md R47). -/
def ctrlWordOf (p : Params) (win : Window) (addr : Nat) (data : List Byte) : Option U32 :=
  if win = .csr ∧ csrForm p addr data.length ∧ addr = p.base .csr then some (ofBytesLE data)
  else none

/-- A host write: a CTRL command, or any other write (45_decoder.md R148, R158). -/
def State.fetchWrite (win : Window) (addr : Nat) (data : List Byte) (s : State) : Fetched :=
  match ctrlWordOf s.params win addr data with
  | none => .other (s.hostWrite win addr data)
  | some v =>
    match decodeCtrl v with
    | some i => .run i s
    | none => .other (s.hostWrite win addr data)

/-! ### The next step -/

/-- At a block boundary a pending host action comes first; the engine moves when there is none or when
the host gives it a turn. Inside a block the engine alone moves (45_decoder.md R152; log 1, log 2). -/
def State.fetch (s : State) : Fetched :=
  if s.ctl.run = .busy ∧ s.unit ≠ .parser then s.fetchUnit
  else
    match s.hostq with
    | [] => s.fetchEngine
    | .engineTurn :: q => State.fetchEngine { s with hostq := q }
    | .hwReset :: q => .other (.next (State.hwReset { s with hostq := q }))
    | .read win addr n :: q => .other (State.hostRead win addr n { s with hostq := q })
    | .write win addr data :: q => State.fetchWrite win addr data { s with hostq := q }

/-! ### Placing one instruction -/

/-- The IN_MEM cells outside `[0, n)`. -/
def memDropBelow (n : Nat) (m : List Host.Cell) : List Host.Cell :=
  m.filter fun c => decide (n ≤ c.1)

/-- The state with a stream in place from offset 0 and the engine about to read it, as START leaves
it (log 14). -/
def State.placeStream (phase : Phase) (bs : List Byte) (s : State) : State :=
  { s with
    ctl := { s.ctl with run := .busy, phase := phase, cancel := false }
    cur := { s.cur with pos := 0, blkStart := 0, inLenL := BitVec.ofNat 32 bs.length }
    inMem := memWrite (memDropBelow bs.length s.inMem) 0 bs
    unit := .parser
    hostq := [] }

/-- The bytes of one code of at most 16 bits, least significant bit first (20_memory.md R44). -/
def codeBytes (c : Code) : List Byte := [c.extractLsb' 0 8, (c.setWidth 16).extractLsb' 8 8]

/-- The state with one source placed where the next step fetches (log 14). -/
def State.place (src : Source) (s : State) : State :=
  match src with
  | .header bs => s.placeStream .atHeader bs
  | .block bs => s.placeStream .atBlock bs
  | .code x c =>
    { s with
      ctl := { s.ctl with run := .busy, phase := .atBlock }
      img :=
        { s.img with
          minCode := BitVec.ofNat 8 (Nat.log2 x.clearCode.toNat), payload := codeBytes c }
      lz := s.lz.init (BitVec.ofNat 8 (Nat.log2 x.clearCode.toNat))
      unit := .lzw }
  | .disposal d =>
    { s with
      ctl := { s.ctl with run := .busy, phase := .atBlock }
      comp := { s.comp with lastDisp := d }
      unit := .dispose }
  | .ctrl v =>
    { s with
      unit := .parser
      hostq := [.write .csr s.params.csrBase (wordLE v)] }

end Sys2Proof.Machine
end

