-- ==== Sys2Proof/Machine/Step.lean ====
section
/-!
DEFINITION. One step: fetch, then run the instruction fetched. A step that starts at a block boundary
is one host action or one whole engine step (45_decoder.md R152; log 1).
-/

namespace Sys2Proof.Machine

/-- Run what was fetched. -/
def Fetched.outcome : Fetched → Host.Outcome State Fault Refusal
  | .run i s => exec i s
  | .other o => o

/-- One step of the machine. -/
def step (s : State) : Host.Outcome State Fault Refusal := s.fetch.outcome

/-- The state with an opcode-table word placed where `step` fetches its next instruction (log 13,
log 14). -/
def State.withFetchWord (s : State) (nbits w : Nat) : State := s.place (tableSource nbits w)

end Sys2Proof.Machine
end

