-- ==== Sys2Proof/Machine/Assembly.lean ====
section
/-!
DEFINITION. The stream assembly of 30_encoding.md R88: SUB, which cuts a byte string into sub-blocks,
and PACK, which writes LZW codes at the widths they will be read with.
-/

namespace Sys2Proof.Machine

/-- Sub-blocks of 255 bytes, at most `n` of them. -/
def cutChain : Nat → List Byte → Chain
  | 0, _ => []
  | _ + 1, [] => []
  | n + 1, b :: bs => (b :: bs).take 255 :: cutChain n ((b :: bs).drop 255)

/-- `SUB(d)` (30_encoding.md R88), as a chain; `chainBytes` gives its bytes. -/
def subChain (d : List Byte) : Chain := cutChain d.length d

/-- The LZW registers after one code, as reading it would leave them (30_encoding.md R88; 41_lzw.md
R102, R104, R105, R108). -/
def Lzw.afterCode (m : Byte) (c : Code) (l : Lzw) : Lzw :=
  match decodeCode l.ctx c with
  | .lzwClear _ => { l.reset m with prev := none }
  | .lzwKnown _ => (l.learnKnown 0 c).settle c
  | .lzwKwkwk _ => (l.append (l.rebuilt 0)).settle c
  | _ => l

/-- The low `w` bits of a code, least significant first (20_memory.md R44). -/
def codeBits (c : Code) (w : Nat) : List Bool := (List.range w).map c.getLsbD

/-- The bits of a code sequence, each code at the width it will be read with (30_encoding.md R88). -/
def packBits (m : Byte) : List Code → Lzw → List Bool
  | [], _ => []
  | c :: cs, l => codeBits c l.codeWidth.toNat ++ packBits m cs (l.afterCode m c)

/-- The value of a bit list, least significant first. -/
def bitsValue : List Bool → Nat
  | [] => 0
  | b :: bs => b.toNat + 2 * bitsValue bs

/-- Bits as bytes, the last padded with 0 bits, at most `n` bytes (30_encoding.md R88). -/
def bitsBytes : Nat → List Bool → List Byte
  | 0, _ => []
  | _ + 1, [] => []
  | n + 1, b :: bs => BitVec.ofNat 8 (bitsValue ((b :: bs).take 8)) :: bitsBytes n ((b :: bs).drop 8)

/-- `PACK(M, codes)` (30_encoding.md R88). -/
def packCodes (m : Byte) (codes : List Code) : List Byte :=
  let bits := packBits m codes (Lzw.init m State.reset.lz)
  bitsBytes bits.length bits

end Sys2Proof.Machine
end

