-- ==== Sys2Proof/Machine/Reference.lean ====
section
/-!
DEFINITION. R97 and R128 read as one pass each, with no unit between them: what the unit-by-unit image
step of Image.lean is held against.
-/

namespace Sys2Proof.Machine

/-- The decode loop, at most `n` codes (41_lzw.md R97). -/
def lzwLoop (draw : Nat) (m : Byte) (payload : List Byte) (npix : Nat) :
    Nat → Lzw → Except DecodeError (List Sym)
  | 0, l => .error (.endOfPayload l.bitPos.toNat)
  | n + 1, l =>
    match l.peekCode payload with
    | none => .error (.endOfPayload l.bitPos.toNat)
    | some c =>
      match decodeCode l.skipCode.ctx c with
      | .lzwClear _ => lzwLoop draw m payload npix n { l.skipCode.reset m with prev := none }
      | .lzwEoi _ =>
        if l.out.length = npix then .ok l.out else .error (.pixelCountMismatch l.out.length)
      | .lzwKnown _ =>
        if npix < l.out.length + (l.skipCode.entry draw c).length then
          .error (.pixelCountMismatch (l.out.length + (l.skipCode.entry draw c).length))
        else
          lzwLoop draw m payload npix n
            (Lzw.settle c
              { l.skipCode.learnKnown draw c with out := l.out ++ l.skipCode.entry draw c })
      | .lzwKwkwk _ =>
        if npix < l.out.length + (l.skipCode.rebuilt draw).length then
          .error (.pixelCountMismatch (l.out.length + (l.skipCode.rebuilt draw).length))
        else
          lzwLoop draw m payload npix n
            (Lzw.settle c
              { l.skipCode.append (l.skipCode.rebuilt draw) with
                out := l.out ++ l.skipCode.rebuilt draw })
      | _ => .error (.invalidLzwCode c)

/-- `LzwDecode(m, P, npix)`: at most 8 × len(P) div 2 + 1 code reads (41_lzw.md R96, R97, R113). -/
def lzwDecode (draw : Nat) (m : Byte) (payload : List Byte) (npix : Nat) :
    Except DecodeError (List Sym) :=
  if minCodeOk m then
    lzwLoop draw m payload npix (4 * payload.length + 1) (Lzw.init m State.reset.lz)
  else .error (.invalidMinCodeSize m)

/-- `IDX` from the decoded symbols of an image (42_block_parser.md R128). -/
def imageIdx (op : ImageOp) (out : List Sym) : List Sym :=
  if op.interlace then deinterlace out op.width.toNat op.height.toNat else out

/-- `Composite()` as one pass over a filled IDX (44_compositor.md R135). -/
def State.compositeAll (s : State) : State :=
  if s.comp.frameCount = 0 then s.composite else s.disposePrevious.composite

/-- `ImageStep()` as one pass (42_block_parser.md R128, R129). -/
def State.imagePass (op : ImageOp) (s : State) : State :=
  let s := s.loadImage op
  if s.params.maxImagePixels < s.img.pixels then s.raise (.resourceExhausted .image)
  else
    match lzwDecode s.draws op.minCode op.data.flatten s.img.pixels with
    | .error e => s.raise e
    | .ok out => State.compositeAll { s with idx := imageIdx op out }

end Sys2Proof.Machine
end

