-- ==== Sys2Proof/Safety.lean ====
section
/-!
DEFINITION. What counts as a safe run, in the terms the statements use: the invariant of the states
between two steps, the invariant of the LZW unit between two codes, and when a step stops.
-/

namespace Sys2Proof.Machine

/-- A step that goes on. -/
def goesOn (o : Host.Outcome State Fault Refusal) : Prop := ∃ t, o = .next t

/-- No host action comes before the engine's next turn: the host has none pending, or it gives the
engine its turn and acts again later. What the host has pending after that turn is `hostq.tail` in both
cases (45_decoder.md R152; log 2). -/
def State.EngineNext (s : State) : Prop :=
  s.hostq = [] ∨ ∃ q, s.hostq = .engineTurn :: q

/-- The next step is an engine step: the engine is BUSY and its turn comes before any host action
(45_decoder.md R152; log 2). -/
def State.EngineTurn (s : State) : Prop := s.ctl.run = .busy ∧ s.EngineNext

/-- The state stands at a block boundary of a decode that is not cancelled, and the next step is the
engine's (45_decoder.md R150, R152). -/
structure State.AtBoundary (s : State) : Prop where
  turn : s.EngineTurn
  parser : s.unit = .parser
  notCancelled : s.ctl.cancel = false

/-- What holds between two steps of the machine (10_state.md R18, R24, R27, R33, R36, R37;
44_compositor.md R147; 45_decoder.md R154, R157). -/
structure State.Inv (s : State) : Prop where
  /-- Between steps no block is partly consumed (R152). -/
  parser : s.unit = .parser
  /-- IN_MEM is in canonical form (log 6). -/
  memory : Memory.wf s.inMem = true
  /-- `irq_pend` is set only on entry to DONE or ERROR (60_exceptions.md R167). -/
  noPend : s.ctl.run = .idle ∨ s.ctl.run = .busy → s.ctl.irqPend = false
  /-- The error record is zero except in ERROR (R18, R37). -/
  noError : s.ctl.run ≠ .error → s.err = ErrRec.none
  /-- In ERROR it names one of the kinds the GDE raises (60_exceptions.md R160, R166). -/
  errorKind : s.ctl.run = .error → 1 ≤ s.err.code.toNat ∧ s.err.code.toNat ≤ 11 ∧ s.err.code ≠ 6
  /-- The cursor never exceeds the stream length, which fits the input memory (R24, R149). -/
  cursor : s.ctl.run = .busy →
    s.cur.pos.toNat ≤ s.cur.inLenL.toNat ∧ s.cur.inLenL.toNat ≤ s.params.inCap
  /-- Before the header nothing has been produced (R20, R116). -/
  beforeHeader : s.ctl.run = .busy → s.ctl.phase = .atHeader →
    s.cur.pos = 0 ∧ s.comp.frameCount = 0 ∧ s.outp.evtCount = 0
  /-- Every block before the cursor took at least one byte, so no count wraps (R154). -/
  counts : s.ctl.run = .busy →
    s.comp.frameCount.toNat ≤ s.cur.pos.toNat ∧ s.outp.evtCount.toNat ≤ s.cur.pos.toNat
  /-- The color tables list exactly their valid entries (R27). -/
  tables : s.ctl.run ≠ .error →
    s.tabs.gct.length = s.tabs.gctLen.toNat ∧ s.tabs.lct.length = s.tabs.lctLen.toNat
  /-- The canvas has the screen's size, within the capacity (R33, R117). -/
  canvas : s.ctl.run = .busy → s.ctl.phase = .atBlock →
    s.comp.canvas.length = s.scr.pixels ∧ s.scr.pixels ≤ s.params.maxCanvasPixels
  /-- One frame and one delay for each delivered image, within the capacity (R35, R145). -/
  frames : s.ctl.run ≠ .error →
    s.outp.frames.length = s.comp.frameCount.toNat ∧
      s.outp.delays.length = s.comp.frameCount.toNat ∧
      s.comp.frameCount.toNat ≤ s.params.maxFrames
  /-- Every frame has exactly the screen's size (R41, R147). -/
  frameSize : s.ctl.run ≠ .error → ∀ f ∈ s.outp.frames, f.length = s.scr.pixels
  /-- A restore base is a delivered frame (R36, R141). -/
  restore : s.ctl.run ≠ .error → ∀ k, s.comp.restoreFrom = some k →
    k.toNat < s.comp.frameCount.toNat
  /-- The log lists exactly the recorded events, within the capacity (R157). -/
  events : s.outp.events.length = s.outp.evtCount.toNat ∧
    s.outp.evtCount.toNat ≤ s.params.maxEvents

/-- A data code the dictionary holds: below `dict_len`, and neither the clear nor the EOI code
(41_lzw.md R104). -/
def Lzw.IsDataCode (l : Lzw) (c : Code) : Prop :=
  c.toNat < l.dictLen.toNat ∧ c ≠ l.clearCode ∧ c ≠ l.eoiCode

/-- What holds between two codes of an image whose minimum code size is `m` (41_lzw.md R109). -/
structure Lzw.Inv (m : Byte) (l : Lzw) : Prop where
  minCode : 1 ≤ m.toNat ∧ m.toNat ≤ 11
  clear : l.clearCode.toNat = 2 ^ m.toNat
  eoi : l.eoiCode.toNat = 2 ^ m.toNat + 1
  widthLow : m.toNat + 1 ≤ l.codeWidth.toNat
  widthHigh : l.codeWidth.toNat ≤ 12
  lenLow : l.clearCode.toNat + 2 ≤ l.dictLen.toNat
  lenHigh : l.dictLen.toNat ≤ 2 ^ l.codeWidth.toNat
  /-- After a data code the width has been tested: the next entry still fits (R108). -/
  lenRoom : l.prev ≠ none → l.dictLen.toNat < 2 ^ l.codeWidth.toNat ∨ l.codeWidth.toNat = 12
  listed : l.dict.length = l.dictLen.toNat
  clearSlot : l.dict[l.clearCode.toNat]? = some (.seq [])
  eoiSlot : l.dict[l.eoiCode.toNat]? = some .sentinel
  dataSlot : ∀ c : Code, l.IsDataCode c → ∃ xs, l.dict[c.toNat]? = some (.seq xs) ∧ xs ≠ []
  symbols : ∀ xs, Slot.seq xs ∈ l.dict → ∀ v ∈ xs, v.toNat < l.clearCode.toNat
  outSymbols : ∀ v ∈ l.out, v.toNat < l.clearCode.toNat
  prevData : ∀ p, l.prev = some p → l.IsDataCode p

/-- The state between two codes of an image (41_lzw.md R109). -/
structure State.LzwInv (s : State) : Prop where
  lzw : s.lz.Inv s.img.minCode
  outFits : s.lz.out.length ≤ s.img.pixels

/-- What no instruction changes: the parameters, every byte of IN_MEM, IN_LEN, and the host's pending
actions and read data (20_memory.md R39, R60; 45_decoder.md R149). -/
structure State.SameOutside (s t : State) : Prop where
  params : t.params = s.params
  inMem : ∀ a, memByte t.inMem a = memByte s.inMem a
  inLen : t.cur.inLen = s.cur.inLen
  hostq : t.hostq = s.hostq
  rdata : t.rdata = s.rdata

/-- What error entry leaves, from a block that began in a state like `s`: the error record, ERROR and
`irq_pend`, and every host-visible value but those unchanged (60_exceptions.md R162). -/
structure State.ErrorEntered (s t : State) (code : Byte) (info pos : U32) : Prop where
  run : t.ctl = { s.ctl with run := .error, irqPend := true }
  record : t.err = { code, info, pos }
  screen : t.scr.w = s.scr.w ∧ t.scr.h = s.scr.h
  output : t.outp = s.outp
  gce : t.gce = s.gce
  cursor : t.cur = { s.cur with pos := t.cur.pos }
  outside : s.SameOutside t

/-- Error entry that changes nothing but what R162 names: no register of the screen, the tables or the
image either. -/
structure State.ErrorOnly (s t : State) (code : Byte) (info pos : U32) : Prop where
  entered : s.ErrorEntered t code info pos
  scr : t.scr = s.scr
  tabs : t.tabs = s.tabs
  img : t.img = s.img

/-! ### An IMAGE block, in the spec's own terms -/

/-- The image registers a descriptor and its payload give (42_block_parser.md R128; 10_state.md R29). -/
def imageRegs (op : ImageOp) : Img where
  left := op.left
  top := op.top
  w := op.width
  h := op.height
  lctFlag := op.lctFlag
  interlace := op.interlace
  sort := op.sort
  rsvd := op.rsvd
  lctSize := op.lctSize
  minCode := op.minCode
  payload := op.data.flatten

/-- The color tables after a descriptor: its own local table if it has one, else none
(42_block_parser.md R128; 10_state.md R27). -/
def imageTabs (op : ImageOp) (t : Tables) : Tables :=
  { t with
    lct := if op.lctFlag then op.lct else []
    lctLen := if op.lctFlag then BitVec.ofNat 9 (2 ^ (op.lctSize.toNat + 1)) else 0 }

/-- The active table of an image and its length: the local table if `lct_flag` is set, else the global
table if `gct_flag` is set (44_compositor.md R142). -/
def State.ActiveTable (op : ImageOp) (s : State) (table : List Rgb) (len : BitVec 9) : Prop :=
  (op.lctFlag = true ∧ table = op.lct ∧ len = BitVec.ofNat 9 (2 ^ (op.lctSize.toNat + 1))) ∨
    (op.lctFlag = false ∧ s.scr.gctFlag = true ∧ table = s.tabs.gct ∧ len = s.tabs.gctLen)

/-- The canvas an image is painted on: after the instruction `last_disp` names, or as it is for the
first image (44_compositor.md R135, R136). -/
def State.DisposedCanvas (s : State) (canvas : List Pixel) : Prop :=
  (s.comp.frameCount = 0 ∧ canvas = s.comp.canvas) ∨
    (s.comp.frameCount ≠ 0 ∧
      ∃ d, exec (decodeDisposal s.comp.lastDisp) s = .next d ∧ canvas = d.comp.canvas)

/-- Painting the symbols `out` of an image, reordered if it is interlaced, with its active table on the
disposed canvas gives `r` (42_block_parser.md R128; 44_compositor.md R144). -/
def State.PaintsTo (op : ImageOp) (s : State) (out : List Sym) (table : List Rgb) (len : BitVec 9)
    (r : Except Sym (List Pixel)) : Prop :=
  ∃ canvas, s.DisposedCanvas canvas ∧
    paintFrom
        { table := table, tableLen := len, gce := s.gce, img := imageRegs op, scr := s.scr,
          draw := s.draws }
        0
        (if op.interlace then deinterlace out op.width.toNat op.height.toNat else out) canvas = r

/-- Error entry from an IMAGE block: the image registers and the local table are the descriptor's, the
screen and the global table are as before (42_block_parser.md R128). -/
structure State.ImageError (op : ImageOp) (s t : State) (code : Byte) (info : U32) : Prop where
  entered : s.ErrorEntered t code info s.cur.blkStart
  scr : t.scr = s.scr
  tabs : t.tabs = imageTabs op s.tabs
  img : t.img = imageRegs op

/-- The screen registers after a header that the stream's end cut short: from the packed byte on, each
field whose byte the header read is that byte's and the others are as they were
(42_block_parser.md R115, R116). The screen size is as it was (log 9). -/
structure Screen.HeaderReadSoFar (bs : List Byte) (c d : Screen) : Prop where
  size : d.w = c.w ∧ d.h = c.h
  notRead : bs.length ≤ 10 → d = c
  packed : ∀ p, bs[10]? = some p →
    d.gctFlag = p.getLsbD 7 ∧ d.colorRes = p.extractLsb' 4 3 ∧ d.sort = p.getLsbD 3 ∧
      d.gctSize = p.extractLsb' 0 3
  bgIndex : d.bgIndex = (match bs[11]? with | some b => b | none => c.bgIndex)
  aspect : d.aspect = (match bs[12]? with | some b => b | none => c.aspect)

/-- A 16-bit register after a block that the stream's end cut short: the field at offset `k` if both
bytes were read, and otherwise as it was (40_bitstream.md R93). -/
def FieldReadSoFar (bs : List Byte) (k : Nat) (old new : U16) : Prop :=
  (∀ b0 b1, bs[k]? = some b0 → bs[k + 1]? = some b1 → new.toNat = b0.toNat + 256 * b1.toNat) ∧
    (bs.length ≤ k + 1 → new = old)

/-- The image registers and the local table after an image block that the stream's end cut short: each
field that was read, and the others as they were; the table step is one read
(42_block_parser.md R128). A table of length 0 lists nothing (log 8). -/
structure State.ImageReadSoFar (bs : List Byte) (s t : State) : Prop where
  left : FieldReadSoFar bs 1 s.img.left t.img.left
  top : FieldReadSoFar bs 3 s.img.top t.img.top
  w : FieldReadSoFar bs 5 s.img.w t.img.w
  h : FieldReadSoFar bs 7 s.img.h t.img.h
  flagsNotRead : bs.length ≤ 9 →
    t.tabs = s.tabs ∧
      t.img = { s.img with left := t.img.left, top := t.img.top, w := t.img.w, h := t.img.h }
  flags : ∀ q, bs[9]? = some q →
    t.img.lctFlag = q.getLsbD 7 ∧ t.img.interlace = q.getLsbD 6 ∧ t.img.sort = q.getLsbD 5 ∧
      t.img.rsvd = q.extractLsb' 3 2 ∧ t.img.lctSize = q.extractLsb' 0 3
  noTable : ∀ q, bs[9]? = some q → q.getLsbD 7 = false →
    t.tabs = { s.tabs with lct := [], lctLen := 0 } ∧
      t.img.minCode = (match bs[10]? with | some b => b | none => s.img.minCode)
  tableNotRead : ∀ q, bs[9]? = some q → q.getLsbD 7 = true →
    bs.length < 10 + 3 * 2 ^ ((q.extractLsb' 0 3).toNat + 1) →
      t.tabs = s.tabs ∧ t.img.minCode = s.img.minCode
  table : ∀ q, bs[9]? = some q → q.getLsbD 7 = true →
    10 + 3 * 2 ^ ((q.extractLsb' 0 3).toNat + 1) ≤ bs.length →
      t.tabs.gct = s.tabs.gct ∧ t.tabs.gctLen = s.tabs.gctLen ∧
      t.tabs.lctLen.toNat = 2 ^ ((q.extractLsb' 0 3).toNat + 1) ∧
      t.tabs.lct.length = 2 ^ ((q.extractLsb' 0 3).toNat + 1) ∧
      (∀ i r g b, i < 2 ^ ((q.extractLsb' 0 3).toNat + 1) → bs[10 + 3 * i]? = some r →
        bs[10 + 3 * i + 1]? = some g → bs[10 + 3 * i + 2]? = some b →
        t.tabs.lct[i]? = some { r := r, g := g, b := b }) ∧
      t.img.minCode =
        (match bs[10 + 3 * 2 ^ ((q.extractLsb' 0 3).toNat + 1)]? with
          | some b => b
          | none => s.img.minCode)
  payload : t.img.payload = s.img.payload

/-- The values R175 states for reset (70_reset_and_hazards.md R175). -/
structure State.ResetValues (t : State) : Prop where
  ctl : t.ctl.run = .idle ∧ t.ctl.cancel = false ∧ t.ctl.irqEn = false ∧ t.ctl.irqPend = false
  irq : t.irq = false
  inLen : t.cur.inLen = 0
  scr : t.scr =
    { w := 0, h := 0, gctFlag := false, colorRes := 0, sort := false, gctSize := 0, bgIndex := 0,
      aspect := 0 }
  tabs : t.tabs.gctLen = 0 ∧ t.tabs.lctLen = 0
  gce : t.gce = { valid := false, disp := 0, ui := false, tf := false, delay := 0, ti := 0 }
  comp : t.comp.frameCount = 0 ∧ t.comp.lastDisp = 0 ∧ t.comp.restoreFrom = none
  prev : t.comp.prevLeft = 0 ∧ t.comp.prevTop = 0 ∧ t.comp.prevW = 0 ∧ t.comp.prevH = 0
  outp : t.outp.loopCount = 0 ∧ t.outp.loopValid = false ∧ t.outp.evtCount = 0 ∧
    t.outp.evtOvf = false
  err : t.err = { code := 0, info := 0, pos := 0 }

/-- The host's next action is `a`, and the engine stands where it may fall (45_decoder.md R152). -/
structure State.HostTurn (s : State) (a : HostAction) (q : List HostAction) : Prop where
  next : s.hostq = a :: q
  boundary : s.ctl.run = .busy → s.unit = .parser

/-- The host's next action is a CTRL write that sets START (30_encoding.md R84). -/
def State.StartComing (s : State) : Prop :=
  ∃ data q v, s.HostTurn (.write .csr s.params.csrBase data) q ∧
    ctrlWordOf s.params .csr s.params.csrBase data = some v ∧ v.getLsbD 0 = true

end Sys2Proof.Machine
end

