-- ==== Sys2Proof/Certificates/Slice0/Obligations.lean ====
section
/-!
DEFINITION. The statements for the provers.
-/

open Sys2Proof Sys2Proof.Machine

/-! ### Encoding -/

/-- Decoding the encoding of a well-formed instruction gives it back with every operand: a block
whatever bytes follow it, a disposal value, a CTRL word, and a code, which keeps its value in every
context and has a context in which it is that class (30_encoding.md R64 to R84). That a code alone has
no class (log 20), and which row a CTRL word is (log 12), are the model's choice. -/
def Obligations.DecodingAnEncodedInstructionGivesItBack : Prop :=
  ∀ (i : Instr), WellFormed i = true →
    match encode i with
    | .bytes bs =>
      ∀ rest,
        (if isHeaderRow i then decodeHeader (bs ++ rest) else decodeBlock (bs ++ rest)) =
          .ok (i, rest)
    | .disposal d => decodeDisposal d = i
    | .word v => decodeCtrl v = some i
    | .code c => (∀ x, encode (decodeCode x c) = .code c) ∧ ∃ x, decodeCode x c = i

/-- Whatever a block decodes to is well formed, and its encoding is exactly the bytes that were read:
each stream has one reading (30_encoding.md R80, R81, R86). -/
def Obligations.EncodingADecodedBlockGivesItsBytes : Prop :=
  ∀ (bs rest : List Byte) (i : Instr),
    (decodeHeader bs = .ok (i, rest) →
      WellFormed i = true ∧ isHeaderRow i = true ∧
        ∃ w, encode i = .bytes w ∧ bs = w ++ rest) ∧
    (decodeBlock bs = .ok (i, rest) →
      WellFormed i = true ∧ isHeaderRow i = false ∧
        ∃ w, encode i = .bytes w ∧ bs = w ++ rest)

/-- The class of an LZW code is the first row of R82 that matches (30_encoding.md R82). -/
def Obligations.CodeClassIsTheFirstMatchingRow : Prop :=
  ∀ (x : CodeCtx) (c : Code),
    (decodeCode x c = .lzwClear c ↔ c = x.clearCode) ∧
    (decodeCode x c = .lzwEoi c ↔ c ≠ x.clearCode ∧ c = x.eoiCode) ∧
    (decodeCode x c = .lzwKnown c ↔
      c ≠ x.clearCode ∧ c ≠ x.eoiCode ∧ c.toNat < x.dictLen.toNat) ∧
    (decodeCode x c = .lzwKwkwk c ↔
      c ≠ x.clearCode ∧ c ≠ x.eoiCode ∧ c.toNat = x.dictLen.toNat ∧ x.prev ≠ none) ∧
    (decodeCode x c = .lzwInvalid c ↔
      c ≠ x.clearCode ∧ c ≠ x.eoiCode ∧
        (x.dictLen.toNat < c.toNat ∨ c.toNat = x.dictLen.toNat ∧ x.prev = none))

/-- Words written out from the spec's formats decode to what they stand for: a GCE, a comment, an
unknown extension, a trailer, and a sentinel with no label after it (42_block_parser.md R120, R121, R123,
R127, R130; 95_test_vectors.md V-BLK). -/
def Obligations.SpecWordsDecodeToTheirBlocks : Prop :=
  decodeBlock [0x21, 0xF9, 0x04, 0x09, 0x0A, 0x00, 0x03, 0x00] =
    .ok
      (.extGce
        { size := 4, rsvd := 0, disp := 2, ui := false, tf := true, delay := 10, ti := 3, term := 0 },
        []) ∧
  decodeBlock [0x21, 0xFE, 0x02, 0x68, 0x69, 0x00] = .ok (.extComment [[0x68, 0x69]], []) ∧
  decodeBlock [0x21, 0xAA, 0x01, 0x55, 0x00] = .ok (.extUnknown 0xAA [[0x55]], []) ∧
  decodeBlock [0x3B, 0xDE] = .ok (.trailer, [0xDE]) ∧
  decodeBlock [0x21] = .error ⟨1, 0⟩

/-! ### The byte reader -/

/-- A read returns all its bytes and moves past them, or fails and says what it asked for
(40_bitstream.md R90, R91, R93). -/
def Obligations.ReadsReturnAllTheirBytesOrFail : Prop :=
  ∀ (n : Nat) (bs : List Byte),
    (n ≤ bs.length → ∃ d rest, readBytes n bs = .ok (d, rest) ∧ d.length = n ∧ bs = d ++ rest) ∧
    (bs.length < n → readBytes n bs = .error ⟨n, bs.length⟩) ∧
    (∀ b, readByte (b :: bs) = .ok (b, bs)) ∧ readByte [] = .error ⟨1, 0⟩ ∧
    (∀ b0 b1, ∃ v, readU16 (b0 :: b1 :: bs) = .ok (v, bs) ∧ v.toNat = b0.toNat + 256 * b1.toNat) ∧
    (∀ b0, readU16 [b0] = .error ⟨2, 1⟩) ∧ readU16 [] = .error ⟨2, 0⟩

/-- The sub-blocks SUB cuts a byte string into are read back as that string, whatever follows
(30_encoding.md R77, R88; 40_bitstream.md R95). -/
def Obligations.SubBlocksReadBackTheirData : Prop :=
  ∀ (d rest : List Byte), ∃ data,
    readSubBlocks (chainBytes (subChain d) ++ rest) = .ok (data, rest) ∧ data.flatten = d

/-- A block that the stream's end cuts short is UnexpectedEndOfStream: ERRINFO is the bytes asked for
and ERRPOS the cursor of the failing read (40_bitstream.md R89; 60_exceptions.md R160, R161). That every
host-visible value but the error record stays is the model's reading (log 9); the pending actions are its
own field (log 2). -/
def Obligations.ACutShortBlockIsEndOfStream : Prop :=
  ∀ (s : State) (e : Short), s.AtBoundary →
    (s.ctl.phase = .atHeader → decodeHeader s.streamRest = .error e →
      ∃ t, step s = .next t ∧
        State.ErrorEntered
          { s with cur := { s.cur with blkStart := 0 }, hostq := s.hostq.tail } t 2
          (BitVec.ofNat 32 e.need)
          (BitVec.ofNat 32 (s.cur.pos.toNat + (s.streamRest.length - e.left)))) ∧
    (s.ctl.phase = .atBlock → decodeBlock s.streamRest = .error e →
      ∃ t, step s = .next t ∧
        State.ErrorEntered
          { s with cur := { s.cur with blkStart := s.cur.pos }, hostq := s.hostq.tail } t 2
          (BitVec.ofNat 32 e.need)
          (BitVec.ofNat 32 (s.cur.pos.toNat + (s.streamRest.length - e.left))))

/-- A header or an image that the stream's end cuts short leaves the registers whose bytes it read with
those bytes' values and every other screen, table and image register as it was; any other block cut
short changes none of them (42_block_parser.md R115, R116, R128). That a cut-short header leaves the
screen size is the model's reading (log 9), and the pending actions are its own field (log 2). -/
def Obligations.ACutShortBlockKeepsWhatItRead : Prop :=
  ∀ (s : State) (e : Short), s.AtBoundary →
    (s.ctl.phase = .atHeader → decodeHeader s.streamRest = .error e →
      ∃ t, step s = .next t ∧ Screen.HeaderReadSoFar s.streamRest s.scr t.scr ∧
        t.tabs = s.tabs ∧ t.img = s.img) ∧
    (s.ctl.phase = .atBlock → decodeBlock s.streamRest = .error e →
      ∃ t, step s = .next t ∧ t.scr = s.scr ∧
        (s.streamRest.head? = some 0x2C → State.ImageReadSoFar s.streamRest s t) ∧
        (s.streamRest.head? ≠ some 0x2C → t.tabs = s.tabs ∧ t.img = s.img))

/-! ### LZW codes -/

/-- A code written least significant bit first into a bit string is read back at its bit position
(20_memory.md R44; 41_lzw.md R101; 30_encoding.md R88). -/
def Obligations.APackedCodeIsReadBack : Prop :=
  ∀ (pre post : List Bool) (c : Code) (w n : Nat), w ≤ 12 → c.toNat < 2 ^ w →
    (pre ++ codeBits c w ++ post).length ≤ n →
    payloadBits (bitsBytes n (pre ++ codeBits c w ++ post)) pre.length w = c.toNat

/-- LZW_CLEAR resets the dictionary, its length, the width and `prev`, and changes nothing else
(41_lzw.md R100, R102). Slot `clear_code + 1` is the slot `eoi_code` names by R99. -/
def Obligations.ClearCodeResetsTheDictionary : Prop :=
  ∀ (c : Code) (s : State), ∃ dict,
    exec (.lzwClear c) s =
      .next { s with
        lz := { s.lz with
          dict := dict
          dictLen := BitVec.ofNat 13 (s.lz.clearCode.toNat + 2)
          codeWidth := BitVec.ofNat 4 (s.img.minCode.toNat + 1)
          prev := none } } ∧
    dict.length = s.lz.clearCode.toNat + 2 ∧
    (∀ i, i < s.lz.clearCode.toNat → dict[i]? = some (.seq [BitVec.ofNat 11 i])) ∧
    dict[s.lz.clearCode.toNat]? = some (.seq []) ∧
    dict[s.lz.clearCode.toNat + 1]? = some .sentinel

/-- LZW_EOI ends the code loop when the count is right, changing nothing but the unit that moves next
(the model's own field, log 1); another count is PixelCountMismatch (41_lzw.md R103, R111). -/
def Obligations.EoiCodeChecksThePixelCount : Prop :=
  ∀ (c : Code) (s : State),
    (s.lz.out.length = s.img.pixels → exec (.lzwEoi c) s = .next { s with unit := .reorder }) ∧
    (s.lz.out.length ≠ s.img.pixels →
      ∃ t, exec (.lzwEoi c) s = .next t ∧
        s.ErrorOnly t 8 (BitVec.ofNat 32 s.lz.out.length) s.cur.blkStart)

/-- LZW_KNOWN: it emits the entry, appends the previous entry with the entry's first symbol unless the
previous code was a clear code or the dictionary is full, then sets `prev` and tests the width; nothing
else changes (41_lzw.md R104, R107, R108). -/
def Obligations.KnownCodeEmitsAndAppends : Prop :=
  ∀ (c : Code) (s : State) (xs : List Sym), s.LzwInv → s.lz.IsDataCode c →
    s.lz.dict[c.toNat]? = some (.seq xs) → s.lz.out.length + xs.length ≤ s.img.pixels →
    ∃ l, exec (.lzwKnown c) s = .next { s with lz := l } ∧
      l.out = s.lz.out ++ xs ∧ l.prev = some c ∧
      (s.lz.prev = none ∨ s.lz.dictLen.toNat = 4096 →
        l.dict = s.lz.dict ∧ l.dictLen = s.lz.dictLen) ∧
      (∀ p, s.lz.prev = some p → s.lz.dictLen.toNat < 4096 →
        ∃ ps y, s.lz.dict[p.toNat]? = some (.seq ps) ∧ xs.head? = some y ∧
          l.dict = s.lz.dict ++ [.seq (ps ++ [y])] ∧
          l.dictLen.toNat = s.lz.dictLen.toNat + 1) ∧
      (l.codeWidth.toNat =
        if l.dictLen.toNat = 2 ^ s.lz.codeWidth.toNat ∧ s.lz.codeWidth.toNat < 12 then
          s.lz.codeWidth.toNat + 1
        else s.lz.codeWidth.toNat) ∧
      l.clearCode = s.lz.clearCode ∧ l.eoiCode = s.lz.eoiCode ∧ l.bitPos = s.lz.bitPos

/-- LZW_KWKWK: the new entry is the previous one with its own first symbol; it is appended and emitted,
then `prev` is set and the width tested; nothing else changes (41_lzw.md R105, R108). -/
def Obligations.KwkwkCodeRebuildsTheEntry : Prop :=
  ∀ (c p : Code) (s : State) (ps : List Sym), s.LzwInv → s.lz.prev = some p →
    c.toNat = s.lz.dictLen.toNat → s.lz.dict[p.toNat]? = some (.seq ps) →
    s.lz.out.length + (ps.length + 1) ≤ s.img.pixels →
    ∃ l y, exec (.lzwKwkwk c) s = .next { s with lz := l } ∧ ps.head? = some y ∧
      l.out = s.lz.out ++ (ps ++ [y]) ∧ l.prev = some c ∧
      l.dict = s.lz.dict ++ [.seq (ps ++ [y])] ∧
      l.dictLen.toNat = s.lz.dictLen.toNat + 1 ∧
      (l.codeWidth.toNat =
        if l.dictLen.toNat = 2 ^ s.lz.codeWidth.toNat ∧ s.lz.codeWidth.toNat < 12 then
          s.lz.codeWidth.toNat + 1
        else s.lz.codeWidth.toNat) ∧
      l.clearCode = s.lz.clearCode ∧ l.eoiCode = s.lz.eoiCode ∧ l.bitPos = s.lz.bitPos

/-- A data code whose output would pass the image's pixel count is PixelCountMismatch with the length
it would have reached (41_lzw.md R110). -/
def Obligations.OverlongOutputIsReported : Prop :=
  ∀ (c : Code) (s : State), s.LzwInv →
    (∀ xs, s.lz.IsDataCode c → s.lz.dict[c.toNat]? = some (.seq xs) →
      s.img.pixels < s.lz.out.length + xs.length →
      ∃ t, exec (.lzwKnown c) s = .next t ∧
        s.ErrorOnly t 8 (BitVec.ofNat 32 (s.lz.out.length + xs.length)) s.cur.blkStart) ∧
    (∀ p ps, s.lz.prev = some p → s.lz.dict[p.toNat]? = some (.seq ps) →
      s.img.pixels < s.lz.out.length + (ps.length + 1) →
      ∃ t, exec (.lzwKwkwk c) s = .next t ∧
        s.ErrorOnly t 8 (BitVec.ofNat 32 (s.lz.out.length + (ps.length + 1)))
          s.cur.blkStart)

/-- The LZW unit starts each image whose minimum code size is 1 to 11 in the state R109 describes
(41_lzw.md R98, R99, R109). The unit field is
the model's own (log 1). -/
def Obligations.EveryImageStartsTheLzwInvariant : Prop :=
  ∀ (op : ImageOp) (s : State),
    op.width.toNat * op.height.toNat ≤ s.params.maxImagePixels → 1 ≤ op.minCode.toNat →
    op.minCode.toNat ≤ 11 →
    (s.loadImage op).beginLzw.unit = .lzw ∧ (s.loadImage op).beginLzw.LzwInv ∧
      (s.loadImage op).beginLzw.lz.out = [] ∧ (s.loadImage op).beginLzw.lz.prev = none ∧
      (s.loadImage op).beginLzw.lz.bitPos = 0

/-- Between codes the invariant of R109 holds: every code that leaves the loop running keeps it
(41_lzw.md R109). That one step is one code, and the unit field, are the model's own (log 1). -/
def Obligations.EveryCodeKeepsTheLzwInvariant : Prop :=
  ∀ (s t : State), s.ctl.run = .busy → s.unit = .lzw → s.LzwInv → step s = .next t →
    t.unit = .lzw → t.LzwInv

/-- What one code does to the LZW unit depends on the minimum code size, the payload, the pixel count
and the unit's own registers only (41_lzw.md R96). The draw number is the model's own and only tells
free values apart (log 7). -/
def Obligations.LzwReadsOnlyItsOwnInputs : Prop :=
  ∀ (s s' t : State), s.ctl.run = .busy → s'.ctl.run = .busy → s.unit = .lzw → s'.unit = .lzw →
    s'.lz = s.lz → s'.img.minCode = s.img.minCode → s'.img.payload = s.img.payload →
    s'.img.pixels = s.img.pixels → s'.draws = s.draws →
    step s = .next t → t.unit ≠ .parser →
    ∃ t', step s' = .next t' ∧ t'.unit = t.unit ∧ t'.lz = t.lz ∧
      t' = { s' with lz := t.lz, unit := t.unit } ∧ t = { s with lz := t.lz, unit := t.unit }

/-- A payload with fewer bits left than the next code needs, before EOI, is UnexpectedEndOfStream with
bit 31 of ERRINFO set (41_lzw.md R101; 60_exceptions.md R161). -/
def Obligations.PayloadThatEndsBeforeEoiIsReported : Prop :=
  ∀ (s : State), s.ctl.run = .busy → s.unit = .lzw →
    8 * s.img.payload.length < s.lz.bitPos.toNat + s.lz.codeWidth.toNat →
    ∃ t, step s = .next t ∧
      s.ErrorOnly t 2
        (BitVec.ofNat 32 (0x80000000 + min (s.lz.bitPos.toNat / 8) 0x7FFFFFFF)) s.cur.blkStart

/-- LzwDecode ends within 8 × len(P) div 2 + 1 code reads: more turns change no result
(41_lzw.md R113). -/
def Obligations.LzwDecodeEndsWithinItsPayload : Prop :=
  ∀ (draw : Nat) (m : Byte) (payload : List Byte) (npix n : Nat), 1 ≤ m.toNat → m.toNat ≤ 11 →
    payload.length < 2 ^ 32 → 4 * payload.length + 1 ≤ n →
    lzwLoop draw m payload npix n (Lzw.init m State.reset.lz) = lzwDecode draw m payload npix

/-- An index sequence written as one code for each symbol, between a clear code and an EOI code and
packed at the widths PACK gives them, decodes to that sequence; the dictionary fills and stays full on
the way (41_lzw.md R104, R107, R108, R114; 30_encoding.md R88). The length bound keeps the payload
within a 32-bit stream. -/
def Obligations.LiteralCodesDecodeToTheirPixels : Prop :=
  ∀ (draw : Nat) (m : Byte) (xs : List Sym), 1 ≤ m.toNat → m.toNat ≤ 11 →
    (∀ v ∈ xs, v.toNat < 2 ^ m.toNat) → xs.length ≤ 2 ^ 31 →
    lzwDecode draw m
        (packCodes m
          ([BitVec.ofNat 12 (2 ^ m.toNat)] ++ xs.map (fun v => v.setWidth 12)
            ++ [BitVec.ofNat 12 (2 ^ m.toNat + 1)]))
        xs.length =
      .ok xs

/-! ### The image step -/

/-- The image step run unit by unit is R128 read as one pass: front, LzwDecode, deinterlace, disposal,
composite (42_block_parser.md R128; 41_lzw.md R97; 44_compositor.md R135). The units are the model's own
way through the block (log 1). A payload is never longer than the 32-bit stream length
(10_state.md R29). -/
def Obligations.TheImageStepIsOnePass : Prop :=
  ∀ (op : ImageOp) (s : State), op.data.flatten.length < 2 ^ 32 →
    exec (.image op) s = .next (s.imagePass op)

/-- IMAGE completes: when the image fits, its payload decodes, it has a local table or the screen a
global one, every painted index is in that table and there is room for the frame, the frame is delivered
with its delay, the image is recorded as the previous one and the pending GCE is used up
(42_block_parser.md R128; 44_compositor.md R135, R141, R142, R145, R146). The unit field and the draw
number are the model's own (log 1, log 7). -/
def Obligations.AnImageDeliversItsFrame : Prop :=
  ∀ (op : ImageOp) (s : State) (out : List Sym) (table : List Rgb) (len : BitVec 9)
    (canvas : List Pixel),
    op.data.flatten.length < 2 ^ 32 →
    op.width.toNat * op.height.toNat ≤ s.params.maxImagePixels →
    lzwDecode s.draws op.minCode op.data.flatten (op.width.toNat * op.height.toNat) = .ok out →
    s.ActiveTable op table len → s.PaintsTo op out table len (.ok canvas) →
    s.comp.frameCount.toNat < s.params.maxFrames →
    ∃ t, exec (.image op) s = .next t ∧
      t.outp =
        Output.emit s.params.maxEvents
          { kind := 8, label := 0, off := s.cur.blkStart, len := s.cur.pos - s.cur.blkStart,
            dataOff :=
              BitVec.ofNat 32
                (s.cur.blkStart.toNat + 11
                  + 3 * (if op.lctFlag then 2 ^ (op.lctSize.toNat + 1) else 0)),
            dataLen := BitVec.ofNat 32 op.data.flatten.length }
          { s.outp with
            frames := s.outp.frames.take s.comp.frameCount.toNat ++ [canvas]
            delays := s.outp.delays.take s.comp.frameCount.toNat ++
              [if s.gce.valid then s.gce.delay else 0] } ∧
      t.comp =
        { canvas := canvas
          frameCount := s.comp.frameCount + 1
          lastDisp := if s.gce.valid then s.gce.disp else 0
          restoreFrom :=
            if s.comp.frameCount ≠ 0 ∧ s.comp.lastDisp ≠ 3 then some (s.comp.frameCount - 1)
            else s.comp.restoreFrom
          prevLeft := op.left
          prevTop := op.top
          prevW := op.width
          prevH := op.height } ∧
      t.gce = { s.gce with valid := false } ∧
      t.img = imageRegs op ∧ t.tabs = imageTabs op s.tabs ∧
      t.ctl = s.ctl ∧ t.cur = s.cur ∧ t.scr = s.scr ∧ t.err = s.err ∧ t.unit = .parser ∧
      s.SameOutside t

/-- The errors of an image block, in the order the block reaches them, each at the block's offset: too
many pixels, a minimum code size outside 1 to 11, an error of the LZW unit, neither a local nor a global
table, an index out of range, no room for the frame (42_block_parser.md R129; 41_lzw.md R98;
44_compositor.md R142; 60_exceptions.md R160, R162). -/
def Obligations.ImageErrorsComeInOrder : Prop :=
  ∀ (op : ImageOp) (s : State), op.data.flatten.length < 2 ^ 32 →
    (s.params.maxImagePixels < op.width.toNat * op.height.toNat →
      ∃ t, exec (.image op) s = .next t ∧ s.ImageError op t 10 2) ∧
    (op.width.toNat * op.height.toNat ≤ s.params.maxImagePixels →
      (op.minCode.toNat < 1 ∨ 11 < op.minCode.toNat →
        ∃ t, exec (.image op) s = .next t ∧
          s.ImageError op t 7 (op.minCode.setWidth 32)) ∧
      (∀ e, lzwDecode s.draws op.minCode op.data.flatten
          (op.width.toNat * op.height.toNat) = .error e →
        ∃ t, exec (.image op) s = .next t ∧ s.ImageError op t e.code e.info) ∧
      (∀ out, lzwDecode s.draws op.minCode op.data.flatten
          (op.width.toNat * op.height.toNat) = .ok out →
        (op.lctFlag = false → s.scr.gctFlag = false →
          ∃ t, exec (.image op) s = .next t ∧ s.ImageError op t 5 0) ∧
        (∀ table len, s.ActiveTable op table len →
          (∀ v, s.PaintsTo op out table len (.error v) →
            ∃ t, exec (.image op) s = .next t ∧ s.ImageError op t 9 (v.setWidth 32)) ∧
          (∀ canvas, s.PaintsTo op out table len (.ok canvas) →
            s.params.maxFrames ≤ s.comp.frameCount.toNat →
            ∃ t, exec (.image op) s = .next t ∧ s.ImageError op t 10 3))))

/-! ### Deinterlacing -/

/-- The passes visit every row exactly once: first the rows with y mod 8 = 0, then y mod 8 = 4, then
y mod 4 = 2, then the odd rows, each pass from the top (43_deinterlace.md R131, R132). -/
def Obligations.ThePassesVisitEveryRowOnce : Prop :=
  ∀ (h : Nat), (rowOrder h).length = h ∧ (rowOrder h).Perm (List.range h) ∧
    rowOrder h =
      (List.range h).filter (fun y => y % 8 = 0) ++ (List.range h).filter (fun y => y % 8 = 4) ++
        (List.range h).filter (fun y => y % 4 = 2) ++ (List.range h).filter (fun y => y % 2 = 1)

/-- Deinterlacing moves decoded row k whole to the k-th row the passes visit
(43_deinterlace.md R133). -/
def Obligations.DeinterlaceMovesRowsWhole : Prop :=
  ∀ (idx : List Sym) (w h : Nat), idx.length = w * h →
    (deinterlace idx w h).length = w * h ∧
    ∀ k c, k < h → c < w → ∃ r, (rowOrder h)[k]? = some r ∧ r < h ∧
      (deinterlace idx w h)[r * w + c]? = idx[k * w + c]?

/-! ### The compositor -/

/-- Disposal values 0, 1 and 4 to 7 change nothing (44_compositor.md R137, R140). -/
def Obligations.DisposalsThatLeaveTheCanvas : Prop :=
  ∀ (d : BitVec 3) (s : State), exec .dispose0 s = .next s ∧ exec .dispose1 s = .next s ∧
    exec (.disposeRsvd d) s = .next s

/-- Disposal 2 makes the previous image's rectangle, clipped to the canvas, transparent and changes
nothing else (44_compositor.md R138; 20_memory.md R52, R53). -/
def Obligations.Disposal2ClearsThePreviousRectangle : Prop :=
  ∀ (s : State), ∃ canvas,
    exec .dispose2 s = .next { s with comp := { s.comp with canvas := canvas } } ∧
    canvas.length = s.comp.canvas.length ∧
    ∀ x y, x < s.scr.w.toNat → y * s.scr.w.toNat + x < s.comp.canvas.length →
      canvas[y * s.scr.w.toNat + x]? =
        if s.comp.prevLeft.toNat ≤ x ∧ x < s.comp.prevLeft.toNat + s.comp.prevW.toNat ∧
            s.comp.prevTop.toNat ≤ y ∧ y < s.comp.prevTop.toNat + s.comp.prevH.toNat then
          some { r := 0, g := 0, b := 0, a := 0 }
        else s.comp.canvas[y * s.scr.w.toNat + x]?

/-- Disposal 3 copies the previous image's rectangle, clipped, from the restore base, or clears it when
there is none, and changes nothing else (44_compositor.md R139; 20_memory.md R54). -/
def Obligations.Disposal3RestoresThePreviousRectangle : Prop :=
  ∀ (s : State),
    (s.comp.restoreFrom = none →
      ∃ canvas,
        exec .dispose3 s = .next { s with comp := { s.comp with canvas := canvas } } ∧
        canvas.length = s.comp.canvas.length ∧
        ∀ x y, x < s.scr.w.toNat → y * s.scr.w.toNat + x < s.comp.canvas.length →
          canvas[y * s.scr.w.toNat + x]? =
            if s.comp.prevLeft.toNat ≤ x ∧ x < s.comp.prevLeft.toNat + s.comp.prevW.toNat ∧
                s.comp.prevTop.toNat ≤ y ∧ y < s.comp.prevTop.toNat + s.comp.prevH.toNat then
              some { r := 0, g := 0, b := 0, a := 0 }
            else s.comp.canvas[y * s.scr.w.toNat + x]?) ∧
    (∀ k f, s.comp.restoreFrom = some k → s.outp.frames[k.toNat]? = some f →
      f.length = s.comp.canvas.length →
      ∃ canvas,
        exec .dispose3 s = .next { s with comp := { s.comp with canvas := canvas } } ∧
        canvas.length = s.comp.canvas.length ∧
        ∀ x y, x < s.scr.w.toNat → y * s.scr.w.toNat + x < s.comp.canvas.length →
          canvas[y * s.scr.w.toNat + x]? =
            if s.comp.prevLeft.toNat ≤ x ∧ x < s.comp.prevLeft.toNat + s.comp.prevW.toNat ∧
                s.comp.prevTop.toNat ≤ y ∧ y < s.comp.prevTop.toNat + s.comp.prevH.toNat then
              f[y * s.scr.w.toNat + x]?
            else s.comp.canvas[y * s.scr.w.toNat + x]?)

/-- What painting gives each canvas pixel: inside the image's rectangle the color of its index in the
table, with alpha 255, unless the index is transparent, and elsewhere the pixel as it was
(44_compositor.md R143, R144; 20_memory.md R52, R55). A table entry that is not listed has a free color
(log 8). -/
def Obligations.PaintingSetsExactlyTheOpaquePixels : Prop :=
  ∀ (e : PaintEnv) (idx : List Sym) (canvas painted : List Pixel),
    idx.length = e.img.w.toNat * e.img.h.toNat →
    canvas.length = e.scr.w.toNat * e.scr.h.toNat →
    paintFrom e 0 idx canvas = .ok painted →
    painted.length = canvas.length ∧
    ∀ x y, x < e.scr.w.toNat → y < e.scr.h.toNat →
      (∀ v, e.img.left.toNat ≤ x → x < e.img.left.toNat + e.img.w.toNat →
        e.img.top.toNat ≤ y → y < e.img.top.toNat + e.img.h.toNat →
        idx[(y - e.img.top.toNat) * e.img.w.toNat + (x - e.img.left.toNat)]? = some v →
        ((e.gce.valid = true ∧ e.gce.tf = true ∧ v.toNat = e.gce.ti.toNat) →
          painted[y * e.scr.w.toNat + x]? = canvas[y * e.scr.w.toNat + x]?) ∧
        (¬ (e.gce.valid = true ∧ e.gce.tf = true ∧ v.toNat = e.gce.ti.toNat) →
          ∃ c : Rgb, (∀ c', e.table[v.toNat]? = some c' → c = c') ∧
            painted[y * e.scr.w.toNat + x]? =
              some { r := c.r, g := c.g, b := c.b, a := 255 })) ∧
      (¬ (e.img.left.toNat ≤ x ∧ x < e.img.left.toNat + e.img.w.toNat ∧
          e.img.top.toNat ≤ y ∧ y < e.img.top.toNat + e.img.h.toNat) →
        painted[y * e.scr.w.toNat + x]? = canvas[y * e.scr.w.toNat + x]?)

/-- Painting fails exactly at the first index that is not transparent and not below the table length,
and then reports that index (44_compositor.md R144). -/
def Obligations.PaintingStopsAtTheFirstIndexOutOfRange : Prop :=
  ∀ (e : PaintEnv) (i : Nat) (idx : List Sym) (canvas : List Pixel) (v : Sym),
    paintFrom e i idx canvas = .error v ↔
      ∃ before after, idx = before ++ v :: after ∧
        (e.gce.transparent v = false ∧ e.tableLen.toNat ≤ v.toNat) ∧
        ∀ u ∈ before, e.gce.transparent u = true ∨ u.toNat < e.tableLen.toNat

/-! ### Blocks -/

/-- HEADER loads the logical-screen registers and the global table, makes the canvas transparent, logs
the block and moves to phase AT_BLOCK (42_block_parser.md R116, R117). -/
def Obligations.HeaderOpensTheScreen : Prop :=
  ∀ (op : HeaderOp) (s : State),
    op.width.toNat * op.height.toNat ≤ s.params.maxCanvasPixels →
    ∃ t, exec (.header op) s = .next t ∧
      t.scr =
        { w := op.width, h := op.height, gctFlag := op.gctFlag, colorRes := op.colorRes,
          sort := op.sort, gctSize := op.gctSize, bgIndex := op.bgIndex, aspect := op.aspect } ∧
      t.tabs =
        { s.tabs with
          gct := if op.gctFlag then op.gct else []
          gctLen := if op.gctFlag then BitVec.ofNat 9 (2 ^ (op.gctSize.toNat + 1)) else 0 } ∧
      t.comp =
        { s.comp with
          canvas := List.replicate (op.width.toNat * op.height.toNat)
            { r := 0, g := 0, b := 0, a := 0 } } ∧
      t.ctl = { s.ctl with phase := .atBlock } ∧
      t.outp = s.outp.emit s.params.maxEvents
        { kind := 1, label := 0, off := s.cur.blkStart, len := s.cur.pos - s.cur.blkStart,
          dataOff := 0, dataLen := 0 } ∧
      t.cur = s.cur ∧ t.gce = s.gce ∧ t.img = s.img ∧ t.lz = s.lz ∧ t.idx = s.idx ∧
      t.err = s.err ∧ t.unit = s.unit ∧ s.SameOutside t

/-- A screen beyond the canvas capacity is ResourceExhausted(1) at the header (42_block_parser.md R117;
60_exceptions.md R160). That SCREEN keeps its earlier value is the model's reading of R162 (log 9). -/
def Obligations.AnOversizedCanvasIsReported : Prop :=
  ∀ (op : HeaderOp) (s : State),
    s.params.maxCanvasPixels < op.width.toNat * op.height.toNat →
    ∃ t, exec (.header op) s = .next t ∧ s.ErrorEntered t 10 1 s.cur.blkStart ∧ t.img = s.img ∧
      t.tabs.lct = s.tabs.lct ∧ t.tabs.lctLen = s.tabs.lctLen

/-- BAD_SIGNATURE is NotAGifFile with the three bytes, at position 0; ILLEGAL_SENTINEL is
UnknownBlockSentinel with the byte, and LZW_INVALID is InvalidLzwCode with the code, at the block's
offset (42_block_parser.md R115, R119; 41_lzw.md R106; 60_exceptions.md R160). -/
def Obligations.UnrecognizedInputIsReported : Prop :=
  ∀ (s0 s1 s2 b : Byte) (c : Code) (s : State),
    (∃ t, exec (.badSignature s0 s1 s2) s = .next t ∧
      s.ErrorOnly t 1 (BitVec.ofNat 32 (s0.toNat + 256 * s1.toNat + 65536 * s2.toNat)) 0) ∧
    (∃ t, exec (.illegalSentinel b) s = .next t ∧
      s.ErrorOnly t 3 (b.setWidth 32) s.cur.blkStart) ∧
    (∃ t, exec (.lzwInvalid c) s = .next t ∧ s.ErrorOnly t 4 (c.setWidth 32) s.cur.blkStart)

/-- EXT_GCE makes its fields the pending ones, whatever was pending before, logs the block and changes
nothing else (42_block_parser.md R121, R122). -/
def Obligations.GraphicControlBecomesPending : Prop :=
  ∀ (op : GceOp) (s : State),
    exec (.extGce op) s =
      .next { s with
        gce :=
          { valid := true, disp := op.disp, ui := op.ui, tf := op.tf, delay := op.delay,
            ti := op.ti }
        outp := s.outp.emit s.params.maxEvents
          { kind := 2, label := 0xF9, off := s.cur.blkStart, len := s.cur.pos - s.cur.blkStart,
            dataOff := 0, dataLen := 0 } }

/-- EXT_COMMENT, EXT_PLAINTEXT, EXT_APP and EXT_UNKNOWN log where their data is and how long it is, and
change nothing else (42_block_parser.md R123, R124, R125, R127). -/
def Obligations.ExtensionsAreSurfacedOnly : Prop :=
  ∀ (data : Chain) (size label : Byte) (hdr : List Byte) (op : AppOp) (s : State),
    (∃ o, exec (.extComment data) s = .next { s with outp := o } ∧
      o = s.outp.emit s.params.maxEvents
        { kind := 3, label := 0xFE, off := s.cur.blkStart, len := s.cur.pos - s.cur.blkStart,
          dataOff := BitVec.ofNat 32 (s.cur.blkStart.toNat + 2),
          dataLen := BitVec.ofNat 32 data.flatten.length }) ∧
    (∃ o, exec (.extPlaintext size hdr data) s = .next { s with outp := o } ∧
      o = s.outp.emit s.params.maxEvents
        { kind := 4, label := 0x01, off := s.cur.blkStart, len := s.cur.pos - s.cur.blkStart,
          dataOff := BitVec.ofNat 32 (s.cur.blkStart.toNat + 15),
          dataLen := BitVec.ofNat 32 data.flatten.length }) ∧
    (∃ o, exec (.extApp op) s = .next { s with outp := o } ∧
      o = s.outp.emit s.params.maxEvents
        { kind := 5, label := 0xFF, off := s.cur.blkStart, len := s.cur.pos - s.cur.blkStart,
          dataOff := BitVec.ofNat 32 (s.cur.blkStart.toNat + 14),
          dataLen := BitVec.ofNat 32 op.data.flatten.length }) ∧
    (∃ o, exec (.extUnknown label data) s = .next { s with outp := o } ∧
      o = s.outp.emit s.params.maxEvents
        { kind := 7, label := label, off := s.cur.blkStart, len := s.cur.pos - s.cur.blkStart,
          dataOff := BitVec.ofNat 32 (s.cur.blkStart.toNat + 2),
          dataLen := BitVec.ofNat 32 data.flatten.length })

/-- EXT_APP_NETSCAPE sets the loop count, logs the block and changes nothing else
(42_block_parser.md R126). -/
def Obligations.NetscapeSetsTheLoopCount : Prop :=
  ∀ (op : NetscapeOp) (s : State), ∃ o, exec (.extAppNetscape op) s = .next { s with outp := o } ∧
    o = Output.emit s.params.maxEvents
      { kind := 6, label := 0xFF, off := s.cur.blkStart, len := s.cur.pos - s.cur.blkStart,
        dataOff := 0, dataLen := op.loopCount.setWidth 32 }
      { s.outp with loopCount := op.loopCount, loopValid := true }

/-- TRAILER logs itself, ends the decode in DONE with the interrupt pending, and changes nothing else
(42_block_parser.md R130; 45_decoder.md R155). -/
def Obligations.TrailerCommitsTheDecode : Prop :=
  ∀ (s : State),
    exec .trailer s =
      .next { s with
        ctl := { s.ctl with run := .done, irqPend := true }
        outp := s.outp.emit s.params.maxEvents
          { kind := 9, label := 0, off := s.cur.blkStart, len := s.cur.pos - s.cur.blkStart,
            dataOff := 0, dataLen := 0 } }

/-- An event is appended to the log while there is room, and otherwise sets the overflow flag; the log
changes no frame and no loop count (45_decoder.md R157). -/
def Obligations.EventsAreAppendedWhileThereIsRoom : Prop :=
  ∀ (n : Nat) (r : EventRec) (o : Output),
    o.events.length = o.evtCount.toNat → o.evtCount.toNat + 1 < 2 ^ 32 →
    (o.evtCount.toNat < n →
      (o.emit n r).events = o.events ++ [r] ∧
      (o.emit n r).evtCount.toNat = o.evtCount.toNat + 1 ∧ (o.emit n r).evtOvf = o.evtOvf) ∧
    (n ≤ o.evtCount.toNat → o.emit n r = { o with evtOvf := true }) ∧
    (o.emit n r).frames = o.frames ∧ (o.emit n r).delays = o.delays ∧
    (o.emit n r).loopCount = o.loopCount ∧ (o.emit n r).loopValid = o.loopValid

/-! ### Host commands -/

/-- CTRL_CANCEL, CTRL_IRQ_EN, CTRL_IRQ_ACK, and CTRL_START while BUSY: a CTRL write sets CANCEL and
IRQ_EN from bits 1 and 2, clears the pending interrupt if bit 3 is set, and changes nothing else
(45_decoder.md R148, R150, R151; 70_reset_and_hazards.md R181). That each row carries the whole word is
the model's choice (log 12). -/
def Obligations.CtrlWritesSetTheControlBits : Prop :=
  ∀ (v : U32) (s : State),
    let t : State :=
      { s with
        ctl :=
          { s.ctl with
            cancel := v.getLsbD 1
            irqEn := v.getLsbD 2
            irqPend := if v.getLsbD 3 then false else s.ctl.irqPend } }
    (v.getLsbD 0 = false →
      exec (.ctrlCancel v) s = .next t ∧ exec (.ctrlIrqEn v) s = .next t ∧
        exec (.ctrlIrqAck v) s = .next t) ∧
    (s.ctl.run = .busy → exec (.ctrlStart v) s = .next t)

/-- CTRL_START outside BUSY begins a decode of the stream IN_LEN names: it clears the error record, the
pending interrupt and every per-decode register, and enters BUSY at the header (45_decoder.md R148,
R149). That the row carries the whole word is the model's choice (log 12), and the unit field, the pending
actions and the read data are its own (log 1, log 2, log 3). -/
def Obligations.StartBeginsADecode : Prop :=
  ∀ (v : U32) (s : State), v.getLsbD 0 = true → s.ctl.run ≠ .busy →
    s.cur.inLen.toNat ≤ s.params.inCap →
    ∃ t, exec (.ctrlStart v) s = .next t ∧
      t.ctl =
        { run := .busy, phase := .atHeader, cancel := v.getLsbD 1, irqEn := v.getLsbD 2,
          irqPend := false } ∧
      t.cur = { inLen := s.cur.inLen, inLenL := s.cur.inLen, blkStart := 0, pos := 0 } ∧
      t.err = { code := 0, info := 0, pos := 0 } ∧
      t.scr =
        { w := 0, h := 0, gctFlag := false, colorRes := 0, sort := false, gctSize := 0,
          bgIndex := 0, aspect := 0 } ∧
      t.tabs.gctLen = 0 ∧ t.tabs.lctLen = 0 ∧ t.gce = { s.gce with valid := false } ∧
      t.comp.frameCount = 0 ∧ t.comp.lastDisp = 0 ∧ t.comp.restoreFrom = none ∧
      t.comp.prevLeft = 0 ∧ t.comp.prevTop = 0 ∧ t.comp.prevW = 0 ∧ t.comp.prevH = 0 ∧
      t.outp.loopCount = 0 ∧ t.outp.loopValid = false ∧ t.outp.evtCount = 0 ∧
      t.outp.evtOvf = false ∧ t.unit = .parser ∧ s.SameOutside t

/-- A START whose IN_LEN exceeds the input memory ends at once in ERROR, ResourceExhausted(0) at
position 0 (45_decoder.md R149; 60_exceptions.md R163). That the row carries the whole word is the model's
choice (log 12), and the pending actions and the read data are its own fields (log 2, log 3). -/
def Obligations.StartOfTooLongAStreamIsReported : Prop :=
  ∀ (v : U32) (s : State), v.getLsbD 0 = true → s.ctl.run ≠ .busy →
    s.params.inCap < s.cur.inLen.toNat →
    ∃ t, exec (.ctrlStart v) s = .next t ∧ t.ctl.run = .error ∧ t.ctl.irqPend = true ∧
      t.err = { code := 10, info := 0, pos := 0 } ∧ t.outp.evtCount = 0 ∧
      t.scr.w = 0 ∧ t.scr.h = 0 ∧ s.SameOutside t

/-- CANCEL set at a block boundary ends the decode with Cancelled at the cursor, before any byte of the
next block is read (45_decoder.md R150, R152). The pending actions are the model's own field (log 2). -/
def Obligations.CancelEndsTheDecodeAtABoundary : Prop :=
  ∀ (s : State), s.EngineTurn → s.unit = .parser → s.ctl.cancel = true →
    ∃ t, step s = .next t ∧ State.ErrorOnly { s with hostq := s.hostq.tail } t 11 0 s.cur.pos

/-! ### Host reads and writes -/

/-- A host read of a CSR returns the view R18 gives, by STATE, and changes nothing else; CTRL and STATUS
return the words whose bits StatusAndCtrlBitsShowTheFlags gives (10_state.md R17, R18; 20_memory.md R45,
R47). That a read is answered so also in a state in which the table of R158 does not allow it, as one of
the error record in IDLE or BUSY, is the model's reading (log 26). The pending actions and the read data
are the model's own fields (log 2, log 3). -/
def Obligations.CsrReadsAreGatedViews : Prop :=
  ∀ (s : State) (off : Nat) (q : List HostAction), off % 4 = 0 → off < 0x40 →
    s.HostTurn (.read .csr (s.params.csrBase + off) 4) q →
    ∃ w : U32,
      step s = .next { s with hostq := q, rdata := wordLE w } ∧
      (off = 0x00 → w = s.ctrlWord) ∧ (off = 0x04 → w = s.statusWord) ∧
      (off = 0x08 → w = s.err.code.setWidth 32) ∧ (off = 0x0C → w = s.err.info) ∧
      (off = 0x10 → w = s.err.pos) ∧ (off = 0x14 → w = s.cur.inLen) ∧
      (off = 0x18 → w = if s.ctl.run = .done then s.comp.frameCount else 0) ∧
      ((s.ctl.run = .done ∨ s.ctl.run = .error) →
        (off = 0x1C → w = s.scr.h ++ s.scr.w) ∧
        (off = 0x20 → w = s.outp.loopCount.setWidth 32) ∧ (off = 0x24 → w = s.outp.evtCount)) ∧
      ((s.ctl.run = .idle ∨ s.ctl.run = .busy) → off = 0x1C ∨ off = 0x20 ∨ off = 0x24 → w = 0) ∧
      (0x28 ≤ off → w = 0)

/-- STATUS and CTRL show each flag in the bit the CSR map gives it, and the interrupt output is `irq_pend`
gated by `irq_en` (10_state.md R17, R18; 60_exceptions.md R167). -/
def Obligations.StatusAndCtrlBitsShowTheFlags : Prop :=
  ∀ (s : State),
    s.statusWord.toNat % 4 =
      (match s.ctl.run with | .idle => 0 | .busy => 1 | .done => 2 | .error => 3) ∧
    s.statusWord.getLsbD 2 = s.ctl.irqPend ∧
    s.statusWord.getLsbD 3 =
      (decide (s.ctl.run = .done ∨ s.ctl.run = .error) && s.outp.evtOvf) ∧
    s.statusWord.getLsbD 4 =
      (decide (s.ctl.run = .done ∨ s.ctl.run = .error) && s.outp.loopValid) ∧
    s.statusWord.toNat < 32 ∧
    s.ctrlWord.getLsbD 0 = false ∧ s.ctrlWord.getLsbD 1 = s.ctl.cancel ∧
    s.ctrlWord.getLsbD 2 = s.ctl.irqEn ∧ s.ctrlWord.toNat < 8 ∧
    s.irq = (s.ctl.irqPend && s.ctl.irqEn)

/-- A host write to IN_LEN sets it unless BUSY; a write to FRAME_MEM, DELAY_MEM or EVT_MEM, or to a CSR
other than CTRL and IN_LEN, is ignored; a write to IN_MEM while BUSY and a CSR access of another form
are refused; a write to one of those memories, and a CSR access, that is not wholly inside its window
faults; a CTRL word with no command bit clears CANCEL and IRQ_EN and does nothing else
(20_memory.md R39, R47, R48, R49, R60; 45_decoder.md R148). The fault, and that the refusals come before
the test of the window, are the model's choice (log 17), and the pending actions are its own field
(log 2). -/
def Obligations.HostWritesActOnlyWhereTheyMay : Prop :=
  ∀ (s : State) (v : U32) (off addr n : Nat) (data : List Byte) (q : List HostAction),
    (s.HostTurn (.write .csr (s.params.csrBase + 0x14) (wordLE v)) q →
      step s =
        .next { s with
          hostq := q
          cur := if s.ctl.run = .busy then s.cur else { s.cur with inLen := v } }) ∧
    (off % 4 = 0 → off < 0x40 → off ≠ 0 → off ≠ 0x14 →
      s.HostTurn (.write .csr (s.params.csrBase + off) (wordLE v)) q →
      step s = .next { s with hostq := q }) ∧
    (v.getLsbD 0 = false → v.getLsbD 1 = false → v.getLsbD 2 = false → v.getLsbD 3 = false →
      s.HostTurn (.write .csr s.params.csrBase (wordLE v)) q →
      step s =
        .next { s with hostq := q, ctl := { s.ctl with cancel := false, irqEn := false } }) ∧
    (∀ win, win = .frameMem ∨ win = .delayMem ∨ win = .evtMem → s.params.base win ≤ addr →
      addr + data.length ≤ s.params.base win + s.params.size win →
      s.HostTurn (.write win addr data) q → step s = .next { s with hostq := q }) ∧
    (s.ctl.run = .busy → s.HostTurn (.write .inMem addr data) q →
      step s = .refused .inMemWriteWhileBusy) ∧
    (∀ win, win = .frameMem ∨ win = .delayMem ∨ win = .evtMem →
      addr < s.params.base win ∨ s.params.base win + s.params.size win < addr + data.length →
      s.HostTurn (.write win addr data) q → step s = .fault (.noSuchAddress win addr)) ∧
    (data.length ≠ 4 ∨ addr % 4 ≠ s.params.csrBase % 4 →
      s.HostTurn (.write .csr addr data) q → step s = .refused .csrAccessForm) ∧
    (n ≠ 4 ∨ addr % 4 ≠ s.params.csrBase % 4 →
      s.HostTurn (.read .csr addr n) q → step s = .refused .csrAccessForm) ∧
    (data.length = 4 → addr % 4 = s.params.csrBase % 4 →
      addr < s.params.csrBase ∨ s.params.csrBase + 0x40 ≤ addr →
      s.HostTurn (.write .csr addr data) q → step s = .fault (.noSuchAddress .csr addr)) ∧
    (addr % 4 = s.params.csrBase % 4 → addr < s.params.csrBase ∨ s.params.csrBase + 0x40 ≤ addr →
      s.HostTurn (.read .csr addr 4) q → step s = .fault (.noSuchAddress .csr addr))

/-- A host write to IN_MEM outside BUSY stores its bytes at their offsets, leaves every other byte and
everything else as it was, and keeps the memory canonical; a write with a byte at or past IN_CAP, or
below `IN_BASE`, stores nothing and faults (45_decoder.md R158; 20_memory.md R39, R40). The canonical form
and what an unwritten byte reads as are the model's choice (log 6), as are the fault (log 17) and the
pending actions (log 2). -/
def Obligations.InputWritesStoreTheirBytes : Prop :=
  ∀ (s : State) (off addr : Nat) (data : List Byte) (q : List HostAction), s.ctl.run ≠ .busy →
    (Memory.wf s.inMem = true → off + data.length ≤ s.params.inCap →
      s.HostTurn (.write .inMem (s.params.inBase + off) data) q →
      ∃ m, step s = .next { s with hostq := q, inMem := m } ∧ Memory.wf m = true ∧
        ∀ a, memByte m a =
          (if off ≤ a then
            match data[a - off]? with
            | some b => b
            | none => memByte s.inMem a
          else memByte s.inMem a)) ∧
    (addr < s.params.inBase ∨ s.params.inBase + s.params.inCap < addr + data.length →
      s.HostTurn (.write .inMem addr data) q → step s = .fault (.noSuchAddress .inMem addr))

/-- In DONE, the byte FRAME_MEM holds for channel c of pixel (x, y) of frame k stands at offset
k × scr_w × scr_h × 4 + (y × scr_w + x) × 4 + c, and DELAY_MEM holds delay k low byte first at 2k; in
DONE and ERROR, EVT_MEM holds record k at 20k: kind, label, two zero bytes, then off, len, data_off and
data_len, low byte first (20_memory.md R41; 45_decoder.md R157). -/
def Obligations.FramesDelaysAndEventsAreLaidOut : Prop :=
  ∀ (s : State) (k : Nat),
    (∀ x y c f p, s.ctl.run = .done → k < s.comp.frameCount.toNat → s.outp.frames[k]? = some f →
      f.length = s.scr.w.toNat * s.scr.h.toNat → x < s.scr.w.toNat → y < s.scr.h.toNat →
      f[y * s.scr.w.toNat + x]? = some p → c < 4 →
      s.definedByte .frameMem
          (k * s.scr.w.toNat * s.scr.h.toNat * 4 + (y * s.scr.w.toNat + x) * 4 + c) =
        some (if c = 0 then p.r else if c = 1 then p.g else if c = 2 then p.b else p.a)) ∧
    (∀ d, s.ctl.run = .done → k < s.comp.frameCount.toNat → s.outp.delays[k]? = some d →
      ∃ b0 b1, s.definedByte .delayMem (2 * k) = some b0 ∧
        s.definedByte .delayMem (2 * k + 1) = some b1 ∧ b0.toNat + 256 * b1.toNat = d.toNat) ∧
    (∀ r, s.ctl.run = .done ∨ s.ctl.run = .error → k < s.outp.evtCount.toNat →
      s.outp.events[k]? = some r →
      s.definedByte .evtMem (20 * k) = some r.kind ∧
      s.definedByte .evtMem (20 * k + 1) = some r.label ∧
      s.definedByte .evtMem (20 * k + 2) = some 0 ∧
      s.definedByte .evtMem (20 * k + 3) = some 0 ∧
      ∀ j, j < 4 →
        s.definedByte .evtMem (20 * k + 4 + j) = some (r.off.extractLsb' (8 * j) 8) ∧
        s.definedByte .evtMem (20 * k + 8 + j) = some (r.len.extractLsb' (8 * j) 8) ∧
        s.definedByte .evtMem (20 * k + 12 + j) = some (r.dataOff.extractLsb' (8 * j) 8) ∧
        s.definedByte .evtMem (20 * k + 16 + j) = some (r.dataLen.extractLsb' (8 * j) 8))

/-- A host read of a data window returns its bytes in increasing order and changes nothing but the read
data and the free-value counter, both the model's own; EVT_MEM is read so in DONE and ERROR, and a read
of it in IDLE or BUSY is refused; a read of another width than 1 to 4 bytes is refused, and one not wholly
inside its window, whose size R39 gives, faults (20_memory.md R39, R49; 45_decoder.md R158; log 3, log 7).
That IN_MEM may be read while BUSY is the model's reading (log 16); the refused widths, the fault and the
order of these tests are its choice (log 17), and the pending actions are its own field (log 2). -/
def Obligations.DataReadsReturnTheWindowBytes : Prop :=
  ∀ (s : State) (win : Window) (off addr n : Nat) (q : List HostAction),
    (s.params.size .inMem = s.params.inCap ∧
      s.params.size .frameMem = s.params.maxFrames * s.params.maxCanvasPixels * 4 ∧
      s.params.size .delayMem = s.params.maxFrames * 2 ∧
      s.params.size .evtMem = s.params.maxEvents * 20) ∧
    (win ≠ .csr → (win = .evtMem → s.ctl.run = .done ∨ s.ctl.run = .error) → 1 ≤ n → n ≤ 4 →
      off + n ≤ s.params.size win →
      s.HostTurn (.read win (s.params.base win + off) n) q →
      ∃ data, step s = .next { s with hostq := q, rdata := data, draws := s.draws + 1 } ∧
        data.length = n ∧
        (∀ i b, i < n → s.definedByte win (off + i) = some b → data[i]? = some b) ∧
        (win = .inMem → ∀ i, i < n → data[i]? = some (memByte s.inMem (off + i)))) ∧
    (win ≠ .csr → (win = .evtMem → s.ctl.run = .done ∨ s.ctl.run = .error) →
      (n < 1 ∨ 4 < n → s.HostTurn (.read win addr n) q → step s = .refused .dataReadWidth) ∧
      (1 ≤ n → n ≤ 4 →
        addr < s.params.base win ∨ s.params.base win + s.params.size win < addr + n →
        s.HostTurn (.read win addr n) q → step s = .fault (.noSuchAddress win addr))) ∧
    (s.ctl.run = .idle ∨ s.ctl.run = .busy → s.HostTurn (.read .evtMem addr n) q →
      step s = .refused .evtMemReadEarly)

/-! ### Steps -/

/-- The stream from the cursor on is the bytes of IN_MEM from `pos` to `in_len_l`, and an engine step,
whether or not the host acts again after it, runs the instruction that decodes there, with `blk_start` at
the block's first byte and `pos` past its last (10_state.md R22, R24; 20_memory.md R50; 45_decoder.md R152;
42_block_parser.md R116, R118). The pending actions, of which the step uses up the engine's turn, are the
model's own field (log 2). -/
def Obligations.AStepRunsTheDecodedBlock : Prop :=
  ∀ (s : State) (i : Instr) (rest : List Byte),
    s.streamRest.length = s.cur.inLenL.toNat - s.cur.pos.toNat ∧
    (∀ k, k < s.cur.inLenL.toNat - s.cur.pos.toNat →
      s.streamRest[k]? = some (memByte s.inMem (s.cur.pos.toNat + k))) ∧
    (s.AtBoundary →
      (s.ctl.phase = .atHeader → decodeHeader s.streamRest = .ok (i, rest) →
        step s =
          exec i { s with
            cur := { s.cur with
              blkStart := 0
              pos := BitVec.ofNat 32 (s.cur.pos.toNat + (s.streamRest.length - rest.length)) }
            hostq := s.hostq.tail }) ∧
      (s.ctl.phase = .atBlock → decodeBlock s.streamRest = .ok (i, rest) →
        step s =
          exec i { s with
            cur := { s.cur with
              blkStart := s.cur.pos
              pos := BitVec.ofNat 32 (s.cur.pos.toNat + (s.streamRest.length - rest.length)) }
            hostq := s.hostq.tail }))

/-- A step runs the code the LZW unit reads with `bit_pos` past it, the disposal `last_disp` names with
painting next, and the row of the CTRL word the host writes (41_lzw.md R97; 44_compositor.md R136;
45_decoder.md R148). That a code or a disposal is a step, and the unit field, are the model's own (log 1);
that a pending host write is the step that runs is its choice (log 2), and so is the row, the one of the
lowest command bit set, which carries the whole word (log 12). -/
def Obligations.AStepRunsTheCodeDisposalOrCommand : Prop :=
  ∀ (s : State) (c : Code) (i : Instr) (v : U32) (data : List Byte) (q : List HostAction),
    (s.ctl.run = .busy → s.unit = .lzw → s.lz.peekCode s.img.payload = some c →
      step s =
        exec (decodeCode s.lz.ctx c) { s with
          lz := { s.lz with
            bitPos := BitVec.ofNat 35 (s.lz.bitPos.toNat + s.lz.codeWidth.toNat) } }) ∧
    (s.ctl.run = .busy → s.unit = .dispose →
      step s = exec (decodeDisposal s.comp.lastDisp) { s with unit := .paint }) ∧
    (s.HostTurn (.write .csr s.params.csrBase data) q →
      ctrlWordOf s.params .csr s.params.csrBase data = some v → decodeCtrl v = some i →
      step s = exec i { s with hostq := q })

/-- Where no host action comes first every step goes on: no stream makes the engine stop; and in IDLE,
DONE and ERROR the engine takes no step (10_state.md R19; 45_decoder.md R154; 60_exceptions.md R165). That
such a step of the model changes nothing but its pending actions is its choice (log 23), and they are its
own field (log 2). -/
def Obligations.TheEngineNeverStopsAndRestsUnlessBusy : Prop :=
  ∀ (s : State), s.EngineNext →
    goesOn (step s) ∧ (s.ctl.run ≠ .busy → step s = .next { s with hostq := s.hostq.tail })

/-- No instruction stops: a block's step ends, with or without an error (45_decoder.md R152, R154); and
none changes IN_LEN (10_state.md R22; 45_decoder.md R149), a byte of IN_MEM (20_memory.md R60) or a
parameter (10_state.md R38). That every instruction answers a next state in every state, also where no run
reaches it and where R82 would choose another class of code, is the model's choice (log 10, log 20). The
pending actions and the read data, which none changes either, are its own fields (log 2, log 3). -/
def Obligations.NoInstructionStopsOrTouchesTheHostSide : Prop :=
  ∀ (i : Instr) (s : State), ∃ t, exec i s = .next t ∧ s.SameOutside t

/-- STATE changes only as R19 says: to IDLE by a hardware reset, to BUSY by a START of a stream that
fits, to DONE by the engine step that reads the trailer, and to ERROR by an engine step or a failing START,
each of which leaves an error record; the interrupt becomes pending only by such an engine step or START
(10_state.md R19; 42_block_parser.md R130; 45_decoder.md R149; 60_exceptions.md R160, R162, R167). The
pending actions are the model's own field (log 2). -/
def Obligations.StateChangesOnlyAsR19Says : Prop :=
  ∀ (s t : State), s.unit = .parser → step s = .next t →
    (t.ctl.run ≠ s.ctl.run →
      (t.ctl.run = .idle → ∃ q, s.hostq = .hwReset :: q) ∧
      (t.ctl.run = .busy → s.StartComing ∧ s.cur.inLen.toNat ≤ s.params.inCap) ∧
      (t.ctl.run = .done →
        s.EngineTurn ∧ s.ctl.cancel = false ∧ s.ctl.phase = .atBlock ∧
          ∃ rest, decodeBlock s.streamRest = .ok (.trailer, rest)) ∧
      (t.ctl.run = .error →
        s.EngineTurn ∧ 1 ≤ t.err.code.toNat ∧ t.err.code.toNat ≤ 11 ∧ t.err.code ≠ 6 ∨
          s.StartComing ∧ s.params.inCap < s.cur.inLen.toNat ∧
            t.err = { code := 10, info := 0, pos := 0 })) ∧
    (s.ctl.irqPend = false → t.ctl.irqPend = true →
      t.ctl.run = .done ∧ s.EngineTurn ∨
        t.ctl.run = .error ∧ (s.EngineTurn ∨ s.StartComing))

/-- Reset leaves the values R175 states, at power-on and as an action of the host at any time, which
changes no parameter; after it the engine takes no step until the host acts
(70_reset_and_hazards.md R175). That the host asks for it through its pending actions
is the model's own mechanism (log 2, log 15), and that a step with nothing to do answers the same state is
its choice (log 23); nothing is said of a register R175 leaves unspecified. -/
def Obligations.ResetLeavesTheStatedValues : Prop :=
  State.reset.ResetValues ∧ step State.reset = .next State.reset ∧
  ∀ (s : State) (q : List HostAction), s.HostTurn .hwReset q →
    ∃ t, step s = .next t ∧ t.ResetValues ∧ t.params = s.params ∧ t.hostq = q ∧
      (q = [] → step t = .next t)

/-! ### Invariants and whole runs -/

/-- The invariant holds at reset (70_reset_and_hazards.md R175; 10_state.md R18, R27, R33, R37). That the
input memory starts with nothing listed, in the canonical form, is the model's choice (log 6), and so is
the unit field (log 1). -/
def Obligations.TheInvariantHoldsAtReset : Prop := State.reset.Inv

/-- Every step keeps the invariant: the error record, the cursor's bound, the sizes of tables, canvas,
frames and event log, and the restore base (10_state.md R18, R24, R27, R33, R36, R37;
44_compositor.md R147; 45_decoder.md R154, R157). The canonical memory is the model's choice (log 6), and
so is the unit field (log 1). -/
def Obligations.EveryStepKeepsTheInvariant : Prop :=
  ∀ (s t : State), s.Inv → step s = .next t → t.Inv

/-- Every engine step, whether or not the host acts again after it, raises an error or moves the cursor
forward by at least one byte, never past the stream's length (45_decoder.md R154; 10_state.md R24). The
pending actions are the model's own field (log 2). -/
def Obligations.EveryEngineStepMovesTheCursor : Prop :=
  ∀ (s t : State), s.Inv → s.EngineTurn → step s = .next t →
    t.ctl.run = .error ∨
      s.cur.pos.toNat < t.cur.pos.toNat ∧ t.cur.pos.toNat ≤ t.cur.inLenL.toNat ∧
        t.cur.inLenL = s.cur.inLenL

/-- Every decode reaches DONE or ERROR within in_len_l + 1 engine steps (45_decoder.md R154). A host
access is no engine step, so none is pending here but the engine's turns (log 2). -/
def Obligations.EveryDecodeEndsWithinItsLength : Prop :=
  ∀ (s : State), s.Inv → s.ctl.run = .busy → (∀ a ∈ s.hostq, a = .engineTurn) →
    ∃ k t, k ≤ s.cur.inLenL.toNat + 1 ∧ Host.Core.run Sys2Proof.core k s = .next t ∧
      (t.ctl.run = .done ∨ t.ctl.run = .error)

/-- No engine step that does not raise an error changes a delivered frame or its delay
(10_state.md R36). The pending actions are the model's own field (log 2). -/
def Obligations.DeliveredFramesAreImmutable : Prop :=
  ∀ (s t : State), s.Inv → s.EngineTurn → step s = .next t →
    t.ctl.run ≠ .error →
    s.comp.frameCount.toNat ≤ t.comp.frameCount.toNat ∧
    ∀ k, k < s.comp.frameCount.toNat →
      t.outp.frames[k]? = s.outp.frames[k]? ∧ t.outp.delays[k]? = s.outp.delays[k]?

/-- The event log only grows, by at most the one record of the block the step completed; a step that
raises an error logs nothing (45_decoder.md R157; 60_exceptions.md R162). The pending actions are the
model's own field (log 2). -/
def Obligations.AnEngineStepLogsAtMostItsBlock : Prop :=
  ∀ (s t : State), s.Inv → s.EngineTurn → step s = .next t →
    (t.ctl.run = .error → t.outp.events = s.outp.events) ∧
    (t.ctl.run ≠ .error →
      t.outp.events = s.outp.events ∧ t.outp.evtOvf = true ∨
      ∃ r, t.outp.events = s.outp.events ++ [r] ∧ r.off = s.cur.pos ∧
        r.len = t.cur.pos - s.cur.pos)
end

