-- ==== Sys2Proof/Laws/State.lean ====
section
/-!
SUPPORT. One lemma per field per named update of the state, true by `rfl`, so that no later proof
unfolds a record update.
-/

namespace Sys2Proof.Machine

/-! ### State.drawn: the next free value (log 7). -/

@[simp] theorem State.drawn_params (s : State) : (s.drawn).params = s.params := rfl
@[simp] theorem State.drawn_ctl (s : State) : (s.drawn).ctl = s.ctl := rfl
@[simp] theorem State.drawn_cur (s : State) : (s.drawn).cur = s.cur := rfl
@[simp] theorem State.drawn_scr (s : State) : (s.drawn).scr = s.scr := rfl
@[simp] theorem State.drawn_tabs (s : State) : (s.drawn).tabs = s.tabs := rfl
@[simp] theorem State.drawn_gce (s : State) : (s.drawn).gce = s.gce := rfl
@[simp] theorem State.drawn_img (s : State) : (s.drawn).img = s.img := rfl
@[simp] theorem State.drawn_lz (s : State) : (s.drawn).lz = s.lz := rfl
@[simp] theorem State.drawn_idx (s : State) : (s.drawn).idx = s.idx := rfl
@[simp] theorem State.drawn_comp (s : State) : (s.drawn).comp = s.comp := rfl
@[simp] theorem State.drawn_outp (s : State) : (s.drawn).outp = s.outp := rfl
@[simp] theorem State.drawn_err (s : State) : (s.drawn).err = s.err := rfl
@[simp] theorem State.drawn_inMem (s : State) : (s.drawn).inMem = s.inMem := rfl
@[simp] theorem State.drawn_unit (s : State) : (s.drawn).unit = s.unit := rfl
@[simp] theorem State.drawn_hostq (s : State) : (s.drawn).hostq = s.hostq := rfl
@[simp] theorem State.drawn_rdata (s : State) : (s.drawn).rdata = s.rdata := rfl
@[simp] theorem State.drawn_draws (s : State) : (s.drawn).draws = s.draws + 1 := rfl

/-! ### State.releaseLzw: the LZW unit given up (10_state.md R30, R32). -/

@[simp] theorem State.releaseLzw_params (s : State) : (s.releaseLzw).params = s.params := rfl
@[simp] theorem State.releaseLzw_ctl (s : State) : (s.releaseLzw).ctl = s.ctl := rfl
@[simp] theorem State.releaseLzw_cur (s : State) : (s.releaseLzw).cur = s.cur := rfl
@[simp] theorem State.releaseLzw_scr (s : State) : (s.releaseLzw).scr = s.scr := rfl
@[simp] theorem State.releaseLzw_tabs (s : State) : (s.releaseLzw).tabs = s.tabs := rfl
@[simp] theorem State.releaseLzw_gce (s : State) : (s.releaseLzw).gce = s.gce := rfl
@[simp] theorem State.releaseLzw_img (s : State) : (s.releaseLzw).img = s.img := rfl
@[simp] theorem State.releaseLzw_lz (s : State) : (s.releaseLzw).lz = Lzw.free s.draws s.params.maxImagePixels := rfl
@[simp] theorem State.releaseLzw_idx (s : State) : (s.releaseLzw).idx = [] := rfl
@[simp] theorem State.releaseLzw_comp (s : State) : (s.releaseLzw).comp = s.comp := rfl
@[simp] theorem State.releaseLzw_outp (s : State) : (s.releaseLzw).outp = s.outp := rfl
@[simp] theorem State.releaseLzw_err (s : State) : (s.releaseLzw).err = s.err := rfl
@[simp] theorem State.releaseLzw_inMem (s : State) : (s.releaseLzw).inMem = s.inMem := rfl
@[simp] theorem State.releaseLzw_unit (s : State) : (s.releaseLzw).unit = s.unit := rfl
@[simp] theorem State.releaseLzw_hostq (s : State) : (s.releaseLzw).hostq = s.hostq := rfl
@[simp] theorem State.releaseLzw_rdata (s : State) : (s.releaseLzw).rdata = s.rdata := rfl
@[simp] theorem State.releaseLzw_draws (s : State) : (s.releaseLzw).draws = s.draws + 1 := rfl

/-! ### State.emit: the event log (45_decoder.md R157). -/

@[simp] theorem State.emit_params (k : EventKind) (label : Byte) (off len : Nat) (s : State) : (s.emit k label off len).params = s.params := rfl
@[simp] theorem State.emit_ctl (k : EventKind) (label : Byte) (off len : Nat) (s : State) : (s.emit k label off len).ctl = s.ctl := rfl
@[simp] theorem State.emit_cur (k : EventKind) (label : Byte) (off len : Nat) (s : State) : (s.emit k label off len).cur = s.cur := rfl
@[simp] theorem State.emit_scr (k : EventKind) (label : Byte) (off len : Nat) (s : State) : (s.emit k label off len).scr = s.scr := rfl
@[simp] theorem State.emit_tabs (k : EventKind) (label : Byte) (off len : Nat) (s : State) : (s.emit k label off len).tabs = s.tabs := rfl
@[simp] theorem State.emit_gce (k : EventKind) (label : Byte) (off len : Nat) (s : State) : (s.emit k label off len).gce = s.gce := rfl
@[simp] theorem State.emit_img (k : EventKind) (label : Byte) (off len : Nat) (s : State) : (s.emit k label off len).img = s.img := rfl
@[simp] theorem State.emit_lz (k : EventKind) (label : Byte) (off len : Nat) (s : State) : (s.emit k label off len).lz = s.lz := rfl
@[simp] theorem State.emit_idx (k : EventKind) (label : Byte) (off len : Nat) (s : State) : (s.emit k label off len).idx = s.idx := rfl
@[simp] theorem State.emit_comp (k : EventKind) (label : Byte) (off len : Nat) (s : State) : (s.emit k label off len).comp = s.comp := rfl
@[simp] theorem State.emit_err (k : EventKind) (label : Byte) (off len : Nat) (s : State) : (s.emit k label off len).err = s.err := rfl
@[simp] theorem State.emit_inMem (k : EventKind) (label : Byte) (off len : Nat) (s : State) : (s.emit k label off len).inMem = s.inMem := rfl
@[simp] theorem State.emit_unit (k : EventKind) (label : Byte) (off len : Nat) (s : State) : (s.emit k label off len).unit = s.unit := rfl
@[simp] theorem State.emit_hostq (k : EventKind) (label : Byte) (off len : Nat) (s : State) : (s.emit k label off len).hostq = s.hostq := rfl
@[simp] theorem State.emit_rdata (k : EventKind) (label : Byte) (off len : Nat) (s : State) : (s.emit k label off len).rdata = s.rdata := rfl
@[simp] theorem State.emit_draws (k : EventKind) (label : Byte) (off len : Nat) (s : State) : (s.emit k label off len).draws = s.draws := rfl

/-! ### State.raise: error entry (60_exceptions.md R162). -/

@[simp] theorem State.raise_params (e : DecodeError) (s : State) : (s.raise e).params = s.params := rfl
@[simp] theorem State.raise_ctl (e : DecodeError) (s : State) : (s.raise e).ctl = { s.ctl with run := .error, irqPend := true } := rfl
@[simp] theorem State.raise_scr (e : DecodeError) (s : State) : (s.raise e).scr = s.scr := rfl
@[simp] theorem State.raise_tabs (e : DecodeError) (s : State) : (s.raise e).tabs = s.tabs := rfl
@[simp] theorem State.raise_gce (e : DecodeError) (s : State) : (s.raise e).gce = s.gce := rfl
@[simp] theorem State.raise_img (e : DecodeError) (s : State) : (s.raise e).img = s.img := rfl
@[simp] theorem State.raise_lz (e : DecodeError) (s : State) : (s.raise e).lz = Lzw.free s.draws s.params.maxImagePixels := rfl
@[simp] theorem State.raise_idx (e : DecodeError) (s : State) : (s.raise e).idx = [] := rfl
@[simp] theorem State.raise_comp (e : DecodeError) (s : State) : (s.raise e).comp = Comp.free s.draws := rfl
@[simp] theorem State.raise_outp (e : DecodeError) (s : State) : (s.raise e).outp = s.outp := rfl
@[simp] theorem State.raise_err (e : DecodeError) (s : State) : (s.raise e).err = { code := e.code, info := e.info, pos := e.pos s.cur } := rfl
@[simp] theorem State.raise_inMem (e : DecodeError) (s : State) : (s.raise e).inMem = s.inMem := rfl
@[simp] theorem State.raise_unit (e : DecodeError) (s : State) : (s.raise e).unit = .parser := rfl
@[simp] theorem State.raise_hostq (e : DecodeError) (s : State) : (s.raise e).hostq = s.hostq := rfl
@[simp] theorem State.raise_rdata (e : DecodeError) (s : State) : (s.raise e).rdata = s.rdata := rfl
@[simp] theorem State.raise_draws (e : DecodeError) (s : State) : (s.raise e).draws = s.draws + 1 := rfl

/-! ### State.startRegs: the registers START writes (45_decoder.md R149). -/

@[simp] theorem State.startRegs_params (s : State) : (s.startRegs).params = s.params := rfl
@[simp] theorem State.startRegs_ctl (s : State) : (s.startRegs).ctl = { s.ctl with irqPend := false } := rfl
@[simp] theorem State.startRegs_cur (s : State) : (s.startRegs).cur = { s.cur with inLenL := s.cur.inLen, pos := 0, blkStart := 0 } := rfl
@[simp] theorem State.startRegs_scr (s : State) : (s.startRegs).scr = Screen.zero := rfl
@[simp] theorem State.startRegs_tabs (s : State) : (s.startRegs).tabs = Tables.absent := rfl
@[simp] theorem State.startRegs_gce (s : State) : (s.startRegs).gce = { s.gce with valid := false } := rfl
@[simp] theorem State.startRegs_img (s : State) : (s.startRegs).img = Img.free s.draws s.cur.inLen.toNat := rfl
@[simp] theorem State.startRegs_lz (s : State) : (s.startRegs).lz = Lzw.free s.draws s.params.maxImagePixels := rfl
@[simp] theorem State.startRegs_idx (s : State) : (s.startRegs).idx = [] := rfl
@[simp] theorem State.startRegs_comp (s : State) : (s.startRegs).comp = Comp.start := rfl
@[simp] theorem State.startRegs_outp (s : State) : (s.startRegs).outp = Output.start := rfl
@[simp] theorem State.startRegs_err (s : State) : (s.startRegs).err = ErrRec.none := rfl
@[simp] theorem State.startRegs_inMem (s : State) : (s.startRegs).inMem = s.inMem := rfl
@[simp] theorem State.startRegs_unit (s : State) : (s.startRegs).unit = .parser := rfl
@[simp] theorem State.startRegs_hostq (s : State) : (s.startRegs).hostq = s.hostq := rfl
@[simp] theorem State.startRegs_rdata (s : State) : (s.startRegs).rdata = s.rdata := rfl
@[simp] theorem State.startRegs_draws (s : State) : (s.startRegs).draws = s.draws + 1 := rfl

/-! ### State.loadHeader: the header's registers (42_block_parser.md R116). -/

@[simp] theorem State.loadHeader_params (op : HeaderOp) (s : State) : (s.loadHeader op).params = s.params := rfl
@[simp] theorem State.loadHeader_ctl (op : HeaderOp) (s : State) : (s.loadHeader op).ctl = s.ctl := rfl
@[simp] theorem State.loadHeader_cur (op : HeaderOp) (s : State) : (s.loadHeader op).cur = s.cur := rfl
@[simp] theorem State.loadHeader_gce (op : HeaderOp) (s : State) : (s.loadHeader op).gce = s.gce := rfl
@[simp] theorem State.loadHeader_img (op : HeaderOp) (s : State) : (s.loadHeader op).img = s.img := rfl
@[simp] theorem State.loadHeader_lz (op : HeaderOp) (s : State) : (s.loadHeader op).lz = s.lz := rfl
@[simp] theorem State.loadHeader_idx (op : HeaderOp) (s : State) : (s.loadHeader op).idx = s.idx := rfl
@[simp] theorem State.loadHeader_comp (op : HeaderOp) (s : State) : (s.loadHeader op).comp = s.comp := rfl
@[simp] theorem State.loadHeader_outp (op : HeaderOp) (s : State) : (s.loadHeader op).outp = s.outp := rfl
@[simp] theorem State.loadHeader_err (op : HeaderOp) (s : State) : (s.loadHeader op).err = s.err := rfl
@[simp] theorem State.loadHeader_inMem (op : HeaderOp) (s : State) : (s.loadHeader op).inMem = s.inMem := rfl
@[simp] theorem State.loadHeader_unit (op : HeaderOp) (s : State) : (s.loadHeader op).unit = s.unit := rfl
@[simp] theorem State.loadHeader_hostq (op : HeaderOp) (s : State) : (s.loadHeader op).hostq = s.hostq := rfl
@[simp] theorem State.loadHeader_rdata (op : HeaderOp) (s : State) : (s.loadHeader op).rdata = s.rdata := rfl
@[simp] theorem State.loadHeader_draws (op : HeaderOp) (s : State) : (s.loadHeader op).draws = s.draws := rfl

/-! ### State.commit (45_decoder.md R155). -/

@[simp] theorem State.commit_params (s : State) : (s.commit).params = s.params := rfl
@[simp] theorem State.commit_ctl (s : State) : (s.commit).ctl = { s.ctl with run := .done, irqPend := true } := rfl
@[simp] theorem State.commit_cur (s : State) : (s.commit).cur = s.cur := rfl
@[simp] theorem State.commit_scr (s : State) : (s.commit).scr = s.scr := rfl
@[simp] theorem State.commit_tabs (s : State) : (s.commit).tabs = s.tabs := rfl
@[simp] theorem State.commit_gce (s : State) : (s.commit).gce = s.gce := rfl
@[simp] theorem State.commit_img (s : State) : (s.commit).img = s.img := rfl
@[simp] theorem State.commit_lz (s : State) : (s.commit).lz = s.lz := rfl
@[simp] theorem State.commit_idx (s : State) : (s.commit).idx = s.idx := rfl
@[simp] theorem State.commit_comp (s : State) : (s.commit).comp = s.comp := rfl
@[simp] theorem State.commit_outp (s : State) : (s.commit).outp = s.outp := rfl
@[simp] theorem State.commit_err (s : State) : (s.commit).err = s.err := rfl
@[simp] theorem State.commit_inMem (s : State) : (s.commit).inMem = s.inMem := rfl
@[simp] theorem State.commit_unit (s : State) : (s.commit).unit = s.unit := rfl
@[simp] theorem State.commit_hostq (s : State) : (s.commit).hostq = s.hostq := rfl
@[simp] theorem State.commit_rdata (s : State) : (s.commit).rdata = s.rdata := rfl
@[simp] theorem State.commit_draws (s : State) : (s.commit).draws = s.draws := rfl

/-! ### State.loadImage: the image registers (42_block_parser.md R128). -/

@[simp] theorem State.loadImage_params (op : ImageOp) (s : State) : (s.loadImage op).params = s.params := rfl
@[simp] theorem State.loadImage_ctl (op : ImageOp) (s : State) : (s.loadImage op).ctl = s.ctl := rfl
@[simp] theorem State.loadImage_cur (op : ImageOp) (s : State) : (s.loadImage op).cur = s.cur := rfl
@[simp] theorem State.loadImage_scr (op : ImageOp) (s : State) : (s.loadImage op).scr = s.scr := rfl
@[simp] theorem State.loadImage_gce (op : ImageOp) (s : State) : (s.loadImage op).gce = s.gce := rfl
@[simp] theorem State.loadImage_lz (op : ImageOp) (s : State) : (s.loadImage op).lz = s.lz := rfl
@[simp] theorem State.loadImage_idx (op : ImageOp) (s : State) : (s.loadImage op).idx = s.idx := rfl
@[simp] theorem State.loadImage_comp (op : ImageOp) (s : State) : (s.loadImage op).comp = s.comp := rfl
@[simp] theorem State.loadImage_outp (op : ImageOp) (s : State) : (s.loadImage op).outp = s.outp := rfl
@[simp] theorem State.loadImage_err (op : ImageOp) (s : State) : (s.loadImage op).err = s.err := rfl
@[simp] theorem State.loadImage_inMem (op : ImageOp) (s : State) : (s.loadImage op).inMem = s.inMem := rfl
@[simp] theorem State.loadImage_unit (op : ImageOp) (s : State) : (s.loadImage op).unit = s.unit := rfl
@[simp] theorem State.loadImage_hostq (op : ImageOp) (s : State) : (s.loadImage op).hostq = s.hostq := rfl
@[simp] theorem State.loadImage_rdata (op : ImageOp) (s : State) : (s.loadImage op).rdata = s.rdata := rfl
@[simp] theorem State.loadImage_draws (op : ImageOp) (s : State) : (s.loadImage op).draws = s.draws := rfl

/-! ### State.skipCode: `bit_pos` past the code (41_lzw.md R101). -/

@[simp] theorem State.skipCode_params (s : State) : (s.skipCode).params = s.params := rfl
@[simp] theorem State.skipCode_ctl (s : State) : (s.skipCode).ctl = s.ctl := rfl
@[simp] theorem State.skipCode_cur (s : State) : (s.skipCode).cur = s.cur := rfl
@[simp] theorem State.skipCode_scr (s : State) : (s.skipCode).scr = s.scr := rfl
@[simp] theorem State.skipCode_tabs (s : State) : (s.skipCode).tabs = s.tabs := rfl
@[simp] theorem State.skipCode_gce (s : State) : (s.skipCode).gce = s.gce := rfl
@[simp] theorem State.skipCode_img (s : State) : (s.skipCode).img = s.img := rfl
@[simp] theorem State.skipCode_lz (s : State) : (s.skipCode).lz = s.lz.skipCode := rfl
@[simp] theorem State.skipCode_idx (s : State) : (s.skipCode).idx = s.idx := rfl
@[simp] theorem State.skipCode_comp (s : State) : (s.skipCode).comp = s.comp := rfl
@[simp] theorem State.skipCode_outp (s : State) : (s.skipCode).outp = s.outp := rfl
@[simp] theorem State.skipCode_err (s : State) : (s.skipCode).err = s.err := rfl
@[simp] theorem State.skipCode_inMem (s : State) : (s.skipCode).inMem = s.inMem := rfl
@[simp] theorem State.skipCode_unit (s : State) : (s.skipCode).unit = s.unit := rfl
@[simp] theorem State.skipCode_hostq (s : State) : (s.skipCode).hostq = s.hostq := rfl
@[simp] theorem State.skipCode_rdata (s : State) : (s.skipCode).rdata = s.rdata := rfl
@[simp] theorem State.skipCode_draws (s : State) : (s.skipCode).draws = s.draws := rfl

/-! ### State.lzwClear (41_lzw.md R102). -/

@[simp] theorem State.lzwClear_params (s : State) : (s.lzwClear).params = s.params := rfl
@[simp] theorem State.lzwClear_ctl (s : State) : (s.lzwClear).ctl = s.ctl := rfl
@[simp] theorem State.lzwClear_cur (s : State) : (s.lzwClear).cur = s.cur := rfl
@[simp] theorem State.lzwClear_scr (s : State) : (s.lzwClear).scr = s.scr := rfl
@[simp] theorem State.lzwClear_tabs (s : State) : (s.lzwClear).tabs = s.tabs := rfl
@[simp] theorem State.lzwClear_gce (s : State) : (s.lzwClear).gce = s.gce := rfl
@[simp] theorem State.lzwClear_img (s : State) : (s.lzwClear).img = s.img := rfl
@[simp] theorem State.lzwClear_lz (s : State) : (s.lzwClear).lz = { s.lz.reset s.img.minCode with prev := none } := rfl
@[simp] theorem State.lzwClear_idx (s : State) : (s.lzwClear).idx = s.idx := rfl
@[simp] theorem State.lzwClear_comp (s : State) : (s.lzwClear).comp = s.comp := rfl
@[simp] theorem State.lzwClear_outp (s : State) : (s.lzwClear).outp = s.outp := rfl
@[simp] theorem State.lzwClear_err (s : State) : (s.lzwClear).err = s.err := rfl
@[simp] theorem State.lzwClear_inMem (s : State) : (s.lzwClear).inMem = s.inMem := rfl
@[simp] theorem State.lzwClear_unit (s : State) : (s.lzwClear).unit = s.unit := rfl
@[simp] theorem State.lzwClear_hostq (s : State) : (s.lzwClear).hostq = s.hostq := rfl
@[simp] theorem State.lzwClear_rdata (s : State) : (s.lzwClear).rdata = s.rdata := rfl
@[simp] theorem State.lzwClear_draws (s : State) : (s.lzwClear).draws = s.draws := rfl

/-! ### State.fillIdx: IDX written (42_block_parser.md R128). -/

@[simp] theorem State.fillIdx_params (s : State) : (s.fillIdx).params = s.params := rfl
@[simp] theorem State.fillIdx_ctl (s : State) : (s.fillIdx).ctl = s.ctl := rfl
@[simp] theorem State.fillIdx_cur (s : State) : (s.fillIdx).cur = s.cur := rfl
@[simp] theorem State.fillIdx_scr (s : State) : (s.fillIdx).scr = s.scr := rfl
@[simp] theorem State.fillIdx_tabs (s : State) : (s.fillIdx).tabs = s.tabs := rfl
@[simp] theorem State.fillIdx_gce (s : State) : (s.fillIdx).gce = s.gce := rfl
@[simp] theorem State.fillIdx_img (s : State) : (s.fillIdx).img = s.img := rfl
@[simp] theorem State.fillIdx_lz (s : State) : (s.fillIdx).lz = s.lz := rfl
@[simp] theorem State.fillIdx_comp (s : State) : (s.fillIdx).comp = s.comp := rfl
@[simp] theorem State.fillIdx_outp (s : State) : (s.fillIdx).outp = s.outp := rfl
@[simp] theorem State.fillIdx_err (s : State) : (s.fillIdx).err = s.err := rfl
@[simp] theorem State.fillIdx_inMem (s : State) : (s.fillIdx).inMem = s.inMem := rfl
@[simp] theorem State.fillIdx_hostq (s : State) : (s.fillIdx).hostq = s.hostq := rfl
@[simp] theorem State.fillIdx_rdata (s : State) : (s.fillIdx).rdata = s.rdata := rfl
@[simp] theorem State.fillIdx_draws (s : State) : (s.fillIdx).draws = s.draws := rfl

/-! ### State.clearPrevious (44_compositor.md R138). -/

@[simp] theorem State.clearPrevious_params (s : State) : (s.clearPrevious).params = s.params := rfl
@[simp] theorem State.clearPrevious_ctl (s : State) : (s.clearPrevious).ctl = s.ctl := rfl
@[simp] theorem State.clearPrevious_cur (s : State) : (s.clearPrevious).cur = s.cur := rfl
@[simp] theorem State.clearPrevious_scr (s : State) : (s.clearPrevious).scr = s.scr := rfl
@[simp] theorem State.clearPrevious_tabs (s : State) : (s.clearPrevious).tabs = s.tabs := rfl
@[simp] theorem State.clearPrevious_gce (s : State) : (s.clearPrevious).gce = s.gce := rfl
@[simp] theorem State.clearPrevious_img (s : State) : (s.clearPrevious).img = s.img := rfl
@[simp] theorem State.clearPrevious_lz (s : State) : (s.clearPrevious).lz = s.lz := rfl
@[simp] theorem State.clearPrevious_idx (s : State) : (s.clearPrevious).idx = s.idx := rfl
@[simp] theorem State.clearPrevious_outp (s : State) : (s.clearPrevious).outp = s.outp := rfl
@[simp] theorem State.clearPrevious_err (s : State) : (s.clearPrevious).err = s.err := rfl
@[simp] theorem State.clearPrevious_inMem (s : State) : (s.clearPrevious).inMem = s.inMem := rfl
@[simp] theorem State.clearPrevious_unit (s : State) : (s.clearPrevious).unit = s.unit := rfl
@[simp] theorem State.clearPrevious_hostq (s : State) : (s.clearPrevious).hostq = s.hostq := rfl
@[simp] theorem State.clearPrevious_rdata (s : State) : (s.clearPrevious).rdata = s.rdata := rfl
@[simp] theorem State.clearPrevious_draws (s : State) : (s.clearPrevious).draws = s.draws := rfl

/-! ### State.deliver (44_compositor.md R145). -/

@[simp] theorem State.deliver_params (s : State) : (s.deliver).params = s.params := rfl
@[simp] theorem State.deliver_ctl (s : State) : (s.deliver).ctl = s.ctl := rfl
@[simp] theorem State.deliver_cur (s : State) : (s.deliver).cur = s.cur := rfl
@[simp] theorem State.deliver_scr (s : State) : (s.deliver).scr = s.scr := rfl
@[simp] theorem State.deliver_tabs (s : State) : (s.deliver).tabs = s.tabs := rfl
@[simp] theorem State.deliver_gce (s : State) : (s.deliver).gce = s.gce := rfl
@[simp] theorem State.deliver_img (s : State) : (s.deliver).img = s.img := rfl
@[simp] theorem State.deliver_lz (s : State) : (s.deliver).lz = s.lz := rfl
@[simp] theorem State.deliver_idx (s : State) : (s.deliver).idx = s.idx := rfl
@[simp] theorem State.deliver_comp (s : State) : (s.deliver).comp = { s.comp with frameCount := s.comp.frameCount + 1 } := rfl
@[simp] theorem State.deliver_err (s : State) : (s.deliver).err = s.err := rfl
@[simp] theorem State.deliver_inMem (s : State) : (s.deliver).inMem = s.inMem := rfl
@[simp] theorem State.deliver_unit (s : State) : (s.deliver).unit = s.unit := rfl
@[simp] theorem State.deliver_hostq (s : State) : (s.deliver).hostq = s.hostq := rfl
@[simp] theorem State.deliver_rdata (s : State) : (s.deliver).rdata = s.rdata := rfl
@[simp] theorem State.deliver_draws (s : State) : (s.deliver).draws = s.draws := rfl

/-! ### State.recordPrevious (44_compositor.md R146). -/

@[simp] theorem State.recordPrevious_params (s : State) : (s.recordPrevious).params = s.params := rfl
@[simp] theorem State.recordPrevious_ctl (s : State) : (s.recordPrevious).ctl = s.ctl := rfl
@[simp] theorem State.recordPrevious_cur (s : State) : (s.recordPrevious).cur = s.cur := rfl
@[simp] theorem State.recordPrevious_scr (s : State) : (s.recordPrevious).scr = s.scr := rfl
@[simp] theorem State.recordPrevious_tabs (s : State) : (s.recordPrevious).tabs = s.tabs := rfl
@[simp] theorem State.recordPrevious_gce (s : State) : (s.recordPrevious).gce = { s.gce with valid := false } := rfl
@[simp] theorem State.recordPrevious_img (s : State) : (s.recordPrevious).img = s.img := rfl
@[simp] theorem State.recordPrevious_lz (s : State) : (s.recordPrevious).lz = s.lz := rfl
@[simp] theorem State.recordPrevious_idx (s : State) : (s.recordPrevious).idx = s.idx := rfl
@[simp] theorem State.recordPrevious_outp (s : State) : (s.recordPrevious).outp = s.outp := rfl
@[simp] theorem State.recordPrevious_err (s : State) : (s.recordPrevious).err = s.err := rfl
@[simp] theorem State.recordPrevious_inMem (s : State) : (s.recordPrevious).inMem = s.inMem := rfl
@[simp] theorem State.recordPrevious_unit (s : State) : (s.recordPrevious).unit = s.unit := rfl
@[simp] theorem State.recordPrevious_hostq (s : State) : (s.recordPrevious).hostq = s.hostq := rfl
@[simp] theorem State.recordPrevious_rdata (s : State) : (s.recordPrevious).rdata = s.rdata := rfl
@[simp] theorem State.recordPrevious_draws (s : State) : (s.recordPrevious).draws = s.draws := rfl

/-! ### State.endImage: the end of an image block (42_block_parser.md R128). -/

@[simp] theorem State.endImage_params (s : State) : (s.endImage).params = s.params := rfl
@[simp] theorem State.endImage_ctl (s : State) : (s.endImage).ctl = s.ctl := rfl
@[simp] theorem State.endImage_cur (s : State) : (s.endImage).cur = s.cur := rfl
@[simp] theorem State.endImage_scr (s : State) : (s.endImage).scr = s.scr := rfl
@[simp] theorem State.endImage_tabs (s : State) : (s.endImage).tabs = s.tabs := rfl
@[simp] theorem State.endImage_gce (s : State) : (s.endImage).gce = s.gce := rfl
@[simp] theorem State.endImage_img (s : State) : (s.endImage).img = s.img := rfl
@[simp] theorem State.endImage_idx (s : State) : (s.endImage).idx = [] := rfl
@[simp] theorem State.endImage_comp (s : State) : (s.endImage).comp = s.comp := rfl
@[simp] theorem State.endImage_err (s : State) : (s.endImage).err = s.err := rfl
@[simp] theorem State.endImage_inMem (s : State) : (s.endImage).inMem = s.inMem := rfl
@[simp] theorem State.endImage_unit (s : State) : (s.endImage).unit = .parser := rfl
@[simp] theorem State.endImage_hostq (s : State) : (s.endImage).hostq = s.hostq := rfl
@[simp] theorem State.endImage_rdata (s : State) : (s.endImage).rdata = s.rdata := rfl

/-! ### State.advance: `pos` past a block's bytes (40_bitstream.md R89). -/

@[simp] theorem State.advance_params (rest : List Byte) (s : State) : (s.advance rest).params = s.params := rfl
@[simp] theorem State.advance_ctl (rest : List Byte) (s : State) : (s.advance rest).ctl = s.ctl := rfl
@[simp] theorem State.advance_scr (rest : List Byte) (s : State) : (s.advance rest).scr = s.scr := rfl
@[simp] theorem State.advance_tabs (rest : List Byte) (s : State) : (s.advance rest).tabs = s.tabs := rfl
@[simp] theorem State.advance_gce (rest : List Byte) (s : State) : (s.advance rest).gce = s.gce := rfl
@[simp] theorem State.advance_img (rest : List Byte) (s : State) : (s.advance rest).img = s.img := rfl
@[simp] theorem State.advance_lz (rest : List Byte) (s : State) : (s.advance rest).lz = s.lz := rfl
@[simp] theorem State.advance_idx (rest : List Byte) (s : State) : (s.advance rest).idx = s.idx := rfl
@[simp] theorem State.advance_comp (rest : List Byte) (s : State) : (s.advance rest).comp = s.comp := rfl
@[simp] theorem State.advance_outp (rest : List Byte) (s : State) : (s.advance rest).outp = s.outp := rfl
@[simp] theorem State.advance_err (rest : List Byte) (s : State) : (s.advance rest).err = s.err := rfl
@[simp] theorem State.advance_inMem (rest : List Byte) (s : State) : (s.advance rest).inMem = s.inMem := rfl
@[simp] theorem State.advance_unit (rest : List Byte) (s : State) : (s.advance rest).unit = s.unit := rfl
@[simp] theorem State.advance_hostq (rest : List Byte) (s : State) : (s.advance rest).hostq = s.hostq := rfl
@[simp] theorem State.advance_rdata (rest : List Byte) (s : State) : (s.advance rest).rdata = s.rdata := rfl
@[simp] theorem State.advance_draws (rest : List Byte) (s : State) : (s.advance rest).draws = s.draws := rfl

/-! ### State.cutHeader: a header cut short (42_block_parser.md R115, R116). -/

@[simp] theorem State.cutHeader_params (s : State) : (s.cutHeader).params = s.params := rfl
@[simp] theorem State.cutHeader_ctl (s : State) : (s.cutHeader).ctl = s.ctl := rfl
@[simp] theorem State.cutHeader_cur (s : State) : (s.cutHeader).cur = s.cur := rfl
@[simp] theorem State.cutHeader_scr (s : State) : (s.cutHeader).scr = s.scr.cutHeader s.streamRest := rfl
@[simp] theorem State.cutHeader_tabs (s : State) : (s.cutHeader).tabs = s.tabs := rfl
@[simp] theorem State.cutHeader_gce (s : State) : (s.cutHeader).gce = s.gce := rfl
@[simp] theorem State.cutHeader_img (s : State) : (s.cutHeader).img = s.img := rfl
@[simp] theorem State.cutHeader_lz (s : State) : (s.cutHeader).lz = s.lz := rfl
@[simp] theorem State.cutHeader_idx (s : State) : (s.cutHeader).idx = s.idx := rfl
@[simp] theorem State.cutHeader_comp (s : State) : (s.cutHeader).comp = s.comp := rfl
@[simp] theorem State.cutHeader_outp (s : State) : (s.cutHeader).outp = s.outp := rfl
@[simp] theorem State.cutHeader_err (s : State) : (s.cutHeader).err = s.err := rfl
@[simp] theorem State.cutHeader_inMem (s : State) : (s.cutHeader).inMem = s.inMem := rfl
@[simp] theorem State.cutHeader_unit (s : State) : (s.cutHeader).unit = s.unit := rfl
@[simp] theorem State.cutHeader_hostq (s : State) : (s.cutHeader).hostq = s.hostq := rfl
@[simp] theorem State.cutHeader_rdata (s : State) : (s.cutHeader).rdata = s.rdata := rfl
@[simp] theorem State.cutHeader_draws (s : State) : (s.cutHeader).draws = s.draws := rfl

/-! ### State.cutImage: an image cut short (42_block_parser.md R128). -/

@[simp] theorem State.cutImage_params (s : State) : (s.cutImage).params = s.params := rfl
@[simp] theorem State.cutImage_ctl (s : State) : (s.cutImage).ctl = s.ctl := rfl
@[simp] theorem State.cutImage_cur (s : State) : (s.cutImage).cur = s.cur := rfl
@[simp] theorem State.cutImage_scr (s : State) : (s.cutImage).scr = s.scr := rfl
@[simp] theorem State.cutImage_tabs (s : State) : (s.cutImage).tabs = s.tabs.cutImage s.streamRest := rfl
@[simp] theorem State.cutImage_gce (s : State) : (s.cutImage).gce = s.gce := rfl
@[simp] theorem State.cutImage_img (s : State) : (s.cutImage).img = s.img.cutImage s.streamRest := rfl
@[simp] theorem State.cutImage_lz (s : State) : (s.cutImage).lz = s.lz := rfl
@[simp] theorem State.cutImage_idx (s : State) : (s.cutImage).idx = s.idx := rfl
@[simp] theorem State.cutImage_comp (s : State) : (s.cutImage).comp = s.comp := rfl
@[simp] theorem State.cutImage_outp (s : State) : (s.cutImage).outp = s.outp := rfl
@[simp] theorem State.cutImage_err (s : State) : (s.cutImage).err = s.err := rfl
@[simp] theorem State.cutImage_inMem (s : State) : (s.cutImage).inMem = s.inMem := rfl
@[simp] theorem State.cutImage_unit (s : State) : (s.cutImage).unit = s.unit := rfl
@[simp] theorem State.cutImage_hostq (s : State) : (s.cutImage).hostq = s.hostq := rfl
@[simp] theorem State.cutImage_rdata (s : State) : (s.cutImage).rdata = s.rdata := rfl
@[simp] theorem State.cutImage_draws (s : State) : (s.cutImage).draws = s.draws := rfl

/-! ### The fields an update sets to a value worth naming -/

@[simp] theorem State.raise_inLen (e : DecodeError) (s : State) :
    (s.raise e).cur.inLen = s.cur.inLen := rfl
@[simp] theorem State.raise_inLenL (e : DecodeError) (s : State) :
    (s.raise e).cur.inLenL = s.cur.inLenL := rfl
@[simp] theorem State.raise_blkStart (e : DecodeError) (s : State) :
    (s.raise e).cur.blkStart = s.cur.blkStart := rfl
@[simp] theorem State.emit_outp (k : EventKind) (label : Byte) (off len : Nat) (s : State) :
    (s.emit k label off len).outp =
      s.outp.emit s.params.maxEvents
        { kind := k.code, label, off := s.cur.blkStart, len := s.cur.pos - s.cur.blkStart,
          dataOff := BitVec.ofNat 32 off, dataLen := BitVec.ofNat 32 len } := rfl
@[simp] theorem State.advance_inLen (rest : List Byte) (s : State) :
    (s.advance rest).cur.inLen = s.cur.inLen := rfl
@[simp] theorem State.advance_inLenL (rest : List Byte) (s : State) :
    (s.advance rest).cur.inLenL = s.cur.inLenL := rfl
@[simp] theorem State.advance_blkStart (rest : List Byte) (s : State) :
    (s.advance rest).cur.blkStart = s.cur.blkStart := rfl

end Sys2Proof.Machine
end

