-- ==== Sys2Proof/Laws/Ops.lean ====
section
/-!
SUPPORT. One lemma per shared operation that says all it can do: error entry, the event log, a CTRL
write, and START.
-/

namespace Sys2Proof.Machine

/-! ### What no instruction changes -/

theorem State.SameOutside.refl (s : State) : s.SameOutside s where
  params := rfl
  inMem _ := rfl
  inLen := rfl
  hostq := rfl
  rdata := rfl

theorem State.SameOutside.trans {s t u : State} (h : s.SameOutside t) (h' : t.SameOutside u) :
    s.SameOutside u where
  params := h'.params.trans h.params
  inMem a := (h'.inMem a).trans (h.inMem a)
  inLen := h'.inLen.trans h.inLen
  hostq := h'.hostq.trans h.hostq
  rdata := h'.rdata.trans h.rdata

/-- The host's side is the same when its fields are. -/
theorem State.SameOutside.of_eq {s t : State} (h1 : t.params = s.params) (h2 : t.inMem = s.inMem)
    (h3 : t.cur.inLen = s.cur.inLen) (h4 : t.hostq = s.hostq) (h5 : t.rdata = s.rdata) :
    s.SameOutside t where
  params := h1
  inMem _ := by rw [h2]
  inLen := h3
  hostq := h4
  rdata := h5

/-! ### Error entry -/

/-- Error entry writes the error record, ERROR and `irq_pend`, and changes nothing that
60_exceptions.md R162 keeps. -/
theorem State.raise_errorOnly (e : DecodeError) (s : State) :
    s.ErrorOnly (s.raise e) e.code e.info (e.pos s.cur) where
  entered :=
    { run := rfl, record := rfl, screen := ⟨rfl, rfl⟩, output := rfl, gce := rfl, cursor := rfl,
      outside := .of_eq rfl rfl rfl rfl rfl }
  scr := rfl
  tabs := rfl
  img := rfl

/-- Error entry from a state that a block changed only where the host cannot see. -/
theorem State.ErrorEntered.of_same {s s' t : State} {code : Byte} {info pos : U32}
    (h : s'.ErrorEntered t code info pos) (hctl : s'.ctl = s.ctl) (hw : s'.scr.w = s.scr.w)
    (hh : s'.scr.h = s.scr.h) (ho : s'.outp = s.outp) (hg : s'.gce = s.gce) (hc : s'.cur = s.cur)
    (hs : s.SameOutside s') : s.ErrorEntered t code info pos where
  run := by rw [h.run, hctl]
  record := h.record
  screen := ⟨h.screen.1.trans hw, h.screen.2.trans hh⟩
  output := h.output.trans ho
  gce := h.gce.trans hg
  cursor := by rw [← hc]; exact h.cursor
  outside := hs.trans h.outside

/-- The codes error entry can write (60_exceptions.md R160). -/
theorem DecodeError.code_range (e : DecodeError) : 1 ≤ e.code.toNat ∧ e.code.toNat ≤ 11 := by
  cases e <;> exact ⟨by simp [DecodeError.code], by simp [DecodeError.code]⟩

/-! ### The event log -/

theorem Output.emit_of_room {n : Nat} {o : Output} (r : EventRec) (h : o.evtCount.toNat < n) :
    o.emit n r =
      { o with events := o.events.take o.evtCount.toNat ++ [r], evtCount := o.evtCount + 1 } := by
  simp [Output.emit, h]

theorem Output.emit_of_full {n : Nat} {o : Output} (r : EventRec) (h : n ≤ o.evtCount.toNat) :
    o.emit n r = { o with evtOvf := true } := by
  simp [Output.emit, Nat.not_lt.2 h]

@[simp] theorem Output.emit_frames (n : Nat) (r : EventRec) (o : Output) :
    (o.emit n r).frames = o.frames := by
  unfold Output.emit; split <;> rfl

@[simp] theorem Output.emit_delays (n : Nat) (r : EventRec) (o : Output) :
    (o.emit n r).delays = o.delays := by
  unfold Output.emit; split <;> rfl

@[simp] theorem Output.emit_loopCount (n : Nat) (r : EventRec) (o : Output) :
    (o.emit n r).loopCount = o.loopCount := by
  unfold Output.emit; split <;> rfl

@[simp] theorem Output.emit_loopValid (n : Nat) (r : EventRec) (o : Output) :
    (o.emit n r).loopValid = o.loopValid := by
  unfold Output.emit; split <;> rfl

/-! ### CTRL writes and START -/

/-- The bits a CTRL write sets or clears whatever else it does (45_decoder.md R148). -/
def Ctl.written (v : U32) (c : Ctl) : Ctl :=
  { c with
    cancel := v.getLsbD 1
    irqEn := v.getLsbD 2
    irqPend := if v.getLsbD 3 then false else c.irqPend }

/-- A CTRL write that starts nothing. -/
theorem State.ctrlWrite_of_hold {v : U32} {s : State}
    (h : v.getLsbD 0 = false ∨ s.ctl.run = .busy) :
    s.ctrlWrite v = { s with ctl := s.ctl.written v } := by
  unfold State.ctrlWrite Ctl.written
  by_cases h3 : v.getLsbD 3 = true <;> simp only [h3, if_true, if_false, Bool.false_eq_true] <;>
    exact if_neg fun h' => h.elim (fun h0 => by rw [h0] at h'; cases h'.1) fun hb => h'.2 hb

/-- A CTRL write that starts a decode. -/
theorem State.ctrlWrite_of_start {v : U32} {s : State} (h : v.getLsbD 0 = true)
    (hr : s.ctl.run ≠ .busy) :
    s.ctrlWrite v = State.start { s with ctl := s.ctl.written v } := by
  unfold State.ctrlWrite Ctl.written
  by_cases h3 : v.getLsbD 3 = true <;> simp only [h3, if_true, if_false, Bool.false_eq_true] <;>
    exact if_pos ⟨h, hr⟩

/-- START of a stream that fits the input memory (45_decoder.md R149). -/
theorem State.start_of_fits {s : State} (h : s.cur.inLen.toNat ≤ s.params.inCap) :
    s.start =
      { s.startRegs with ctl := { s.startRegs.ctl with run := .busy, phase := .atHeader } } := by
  have h' : ¬ s.startRegs.params.inCap < s.startRegs.cur.inLenL.toNat := Nat.not_lt.2 h
  simp only [State.start, if_neg h']

/-- START of a stream that does not fit (45_decoder.md R149). -/
theorem State.start_of_tooLong {s : State} (h : s.params.inCap < s.cur.inLen.toNat) :
    s.start = s.startRegs.raise (.resourceExhausted .input) := by
  have h' : s.startRegs.params.inCap < s.startRegs.cur.inLenL.toNat := h
  simp only [State.start, if_pos h']

/-- START leaves the host's side as it was. -/
theorem State.start_sameOutside (s : State) : s.SameOutside s.start := by
  rcases Nat.lt_or_ge s.params.inCap s.cur.inLen.toNat with h | h
  · rw [State.start_of_tooLong h]
    exact .of_eq rfl rfl rfl rfl rfl
  · rw [State.start_of_fits h]
    exact .of_eq rfl rfl rfl rfl rfl

/-- A CTRL write leaves the host's side as it was. -/
theorem State.ctrlWrite_sameOutside (v : U32) (s : State) : s.SameOutside (s.ctrlWrite v) := by
  by_cases h : v.getLsbD 0 = false ∨ s.ctl.run = .busy
  · rw [State.ctrlWrite_of_hold h]
    exact .of_eq rfl rfl rfl rfl rfl
  · have h' : v.getLsbD 0 = true ∧ s.ctl.run ≠ .busy := by simpa using h
    rw [State.ctrlWrite_of_start h'.1 h'.2]
    exact (State.SameOutside.of_eq (s := s) (t := { s with ctl := s.ctl.written v })
      rfl rfl rfl rfl rfl).trans (State.start_sameOutside _)

end Sys2Proof.Machine
end

