-- ==== Sys2Proof/Laws/Compositor.lean ====
section
/-!
SUPPORT. The canvas primitives pixel by pixel, and what each step of the compositor changes.
-/

namespace Sys2Proof.Machine

/-! ### The canvas -/

@[simp] theorem clearRegion_length (scrW : Nat) (l t w h : U16) (canvas : List Pixel) :
    (clearRegion scrW l t w h canvas).length = canvas.length := by
  simp [clearRegion]

@[simp] theorem copyRegion_length (draw : Nat) (frame : List Pixel) (scrW : Nat) (l t w h : U16)
    (canvas : List Pixel) :
    (copyRegion draw frame scrW l t w h canvas).length = canvas.length := by
  simp [copyRegion]

@[simp] theorem putPixel_length (scrW scrH x y : Nat) (v : Pixel) (canvas : List Pixel) :
    (putPixel scrW scrH x y v canvas).length = canvas.length := by
  unfold putPixel; split <;> simp

/-- The place of pixel (x, y) in a row-major list. -/
theorem rowMajor_mod {scrW x y : Nat} (hx : x < scrW) : (y * scrW + x) % scrW = x := by
  rw [Nat.mul_comm, Nat.mul_add_mod, Nat.mod_eq_of_lt hx]

theorem rowMajor_div {scrW x y : Nat} (hx : x < scrW) : (y * scrW + x) / scrW = y := by
  rw [Nat.mul_comm, Nat.mul_add_div (by omega), Nat.div_eq_of_lt hx, Nat.add_zero]

/-- ClearRegion, pixel by pixel (20_memory.md R53). -/
theorem clearRegion_getElem? {scrW x y : Nat} (l t w h : U16) {canvas : List Pixel} (hx : x < scrW)
    (hy : y * scrW + x < canvas.length) :
    (clearRegion scrW l t w h canvas)[y * scrW + x]? =
      if inRect l t w h x y then some transparentPixel else canvas[y * scrW + x]? := by
  simp only [clearRegion, List.getElem?_mapIdx, rowMajor_mod hx, rowMajor_div hx]
  rw [List.getElem?_eq_getElem hy]
  split <;> simp_all

/-- CopyRegion from a frame of the canvas's size, pixel by pixel (20_memory.md R54). -/
theorem copyRegion_getElem? {scrW x y : Nat} (draw : Nat) (l t w h : U16)
    {frame canvas : List Pixel} (hx : x < scrW) (hy : y * scrW + x < canvas.length)
    (hf : frame.length = canvas.length) :
    (copyRegion draw frame scrW l t w h canvas)[y * scrW + x]? =
      if inRect l t w h x y then frame[y * scrW + x]? else canvas[y * scrW + x]? := by
  simp only [copyRegion, List.getElem?_mapIdx, rowMajor_mod hx, rowMajor_div hx]
  rw [List.getElem?_eq_getElem hy, List.getElem?_eq_getElem (by omega)]
  split <;> simp_all

/-! ### Disposal, tracking and painting -/

/-- Disposal changes the canvas only (44_compositor.md R136 to R140). -/
theorem State.disposePrevious_eq (s : State) :
    s.disposePrevious =
      { s with comp := { s.comp with canvas := s.disposePrevious.comp.canvas } } := by
  unfold State.disposePrevious State.restorePrevious State.clearPrevious
  split
  · rfl
  · split <;> rfl
  · rfl

/-- Running the decoded disposal is `disposePrevious` (44_compositor.md R136). -/
theorem exec_decodeDisposal (s : State) :
    exec (decodeDisposal s.comp.lastDisp) s = .next s.disposePrevious := by
  unfold State.disposePrevious
  generalize s.comp.lastDisp = d
  revert d
  have h : ∀ d : BitVec 3, decodeDisposal d = .dispose0 ∨ decodeDisposal d = .dispose1 ∨
      decodeDisposal d = .dispose2 ∨ decodeDisposal d = .dispose3 ∨
      decodeDisposal d = .disposeRsvd d := by decide
  intro d
  rcases h d with h | h | h | h | h <;> rw [h] <;> rfl

/-- Tracking changes the restore base only (44_compositor.md R141). -/
theorem State.trackRestore_eq (s : State) :
    s.trackRestore =
      { s with comp := { s.comp with restoreFrom := s.trackRestore.comp.restoreFrom } } := by
  unfold State.trackRestore; split <;> rfl

/-- Painting keeps the canvas's size (44_compositor.md R144). -/
theorem paintFrom_length {e : PaintEnv} {i : Nat} {idx : List Sym} {canvas painted : List Pixel}
    (h : paintFrom e i idx canvas = .ok painted) : painted.length = canvas.length := by
  induction idx generalizing i canvas with
  | nil =>
    simp only [paintFrom, Except.ok.injEq] at h
    rw [h]
  | cons v vs ih =>
    rw [paintFrom] at h
    split at h
    · exact ih h
    · split at h
      · cases h
      · rw [ih h, putPixel_length]

/-- The three ends of `composite`: no table, an index out of range, or a delivered frame unless the
frame store is full (44_compositor.md R135). -/
theorem State.composite_cases (s : State) :
    (s.trackRestore.palette = none ∧ s.composite = s.trackRestore.raise .noColorTable) ∨
    ∃ table len, s.trackRestore.palette = some (table, len) ∧
      ((∃ v, paintFrom (s.trackRestore.paintEnv table len) 0 s.idx s.comp.canvas = .error v ∧
        s.composite = s.trackRestore.raise (.pixelIndexOutOfRange v)) ∨
      ∃ canvas, paintFrom (s.trackRestore.paintEnv table len) 0 s.idx s.comp.canvas = .ok canvas ∧
        s.composite = State.deliverAndRecord
          { s.trackRestore with comp := { s.trackRestore.comp with canvas := canvas } }) := by
  have h1 : s.trackRestore.idx = s.idx := by rw [State.trackRestore_eq]
  have h2 : s.trackRestore.comp.canvas = s.comp.canvas := by rw [State.trackRestore_eq]
  unfold State.composite
  cases hp : s.trackRestore.palette with
  | none => exact .inl ⟨rfl, rfl⟩
  | some p =>
    obtain ⟨table, len⟩ := p
    refine .inr ⟨table, len, rfl, ?_⟩
    simp only [State.paintAndDeliver, h1, h2]
    cases paintFrom (s.trackRestore.paintEnv table len) 0 s.idx s.comp.canvas with
    | error v => exact .inl ⟨v, rfl, rfl⟩
    | ok canvas => exact .inr ⟨canvas, rfl, rfl⟩

/-- `composite` always ends the block. -/
theorem State.composite_unit (s : State) : s.composite.unit = .parser := by
  rcases s.composite_cases with ⟨-, h⟩ | ⟨_, _, -, ⟨_, -, h⟩ | ⟨_, -, h⟩⟩ <;> rw [h]
  · rfl
  · rfl
  · unfold State.deliverAndRecord; split <;> rfl

/-- The end of the block leaves the host's side as it was. -/
theorem State.deliverAndRecord_sameOutside (s : State) : s.SameOutside s.deliverAndRecord := by
  unfold State.deliverAndRecord
  split
  · exact .of_eq (by simp) (by simp) (by simp) (by simp) (by simp)
  · exact (State.raise_errorOnly _ _).entered.outside

/-- `composite` leaves the host's side as it was. -/
theorem State.composite_sameOutside (s : State) : s.SameOutside s.composite := by
  have ht : s.SameOutside s.trackRestore := by
    rw [State.trackRestore_eq]
    exact .of_eq rfl rfl rfl rfl rfl
  rcases s.composite_cases with ⟨-, h⟩ | ⟨_, _, -, ⟨_, -, h⟩ | ⟨canvas, -, h⟩⟩ <;> rw [h]
  · exact ht.trans (State.raise_errorOnly _ _).entered.outside
  · exact ht.trans (State.raise_errorOnly _ _).entered.outside
  · exact (ht.trans (State.SameOutside.of_eq
      (t := { s.trackRestore with comp := { s.trackRestore.comp with canvas := canvas } })
      rfl rfl rfl rfl rfl)).trans (State.deliverAndRecord_sameOutside _)

end Sys2Proof.Machine
end

