-- ==== Sys2Proof/Laws/Encoding.lean ====
section
/-!
SUPPORT. The byte reader and the encoder, piece by piece: each read answers a value exactly when the
bytes are that value's encoding with the rest after it. Packed bytes give their fields back, and the
fields give the packed byte back.
-/

namespace Sys2Proof

/-- A bind of reads answers when both parts do. -/
theorem reader_bind_ok {α β : Type} {x : Except Short α} {f : α → Except Short β} {b : β} :
    (x >>= f) = .ok b ↔ ∃ a, x = .ok a ∧ f a = .ok b := by
  cases x <;> simp [bind, Except.bind]

/-! ### Reads -/

theorem readBytes_ok {n : Nat} {bs d rest : List Byte} :
    readBytes n bs = .ok (d, rest) ↔ d.length = n ∧ bs = d ++ rest := by
  unfold readBytes
  split
  · simp only [Except.ok.injEq, Prod.mk.injEq]
    constructor
    · rintro ⟨rfl, rfl⟩
      exact ⟨by simpa using ‹n ≤ bs.length›, (List.take_append_drop n bs).symm⟩
    · rintro ⟨rfl, rfl⟩
      simp
  · simp only [reduceCtorEq, false_iff, not_and]
    rintro rfl rfl
    simp at *

theorem readByte_ok {b : Byte} {bs rest : List Byte} :
    readByte bs = .ok (b, rest) ↔ bs = b :: rest := by
  cases bs <;> simp [readByte]

/-- The two bytes of a u16 make it again (20_memory.md R43). -/
theorem le16_bytes (v : U16) : le16 (v.extractLsb' 0 8) (v.extractLsb' 8 8) = v := by
  unfold le16
  ext i hi
  simp only [BitVec.getElem_append, BitVec.getElem_extractLsb']
  split
  · rw [BitVec.getLsbD_eq_getElem (by omega)]
    congr 1
    omega
  · rw [BitVec.getLsbD_eq_getElem (by omega)]
    congr 1
    omega

theorem le16_toNat (b0 b1 : Byte) : (le16 b0 b1).toNat = b0.toNat + 256 * b1.toNat := by
  unfold le16
  have hb := b0.isLt
  rw [BitVec.toNat_append, ← Nat.shiftLeft_add_eq_or_of_lt (by omega), Nat.shiftLeft_eq]
  omega

/-- The bytes of the u16 that two bytes make are those bytes. -/
theorem u16Bytes_le16 (b0 b1 : Byte) : u16Bytes (le16 b0 b1) = [b0, b1] := by
  have h0 := b0.isLt
  have h1 := b1.isLt
  simp only [u16Bytes, List.cons.injEq, and_true]
  constructor <;> apply BitVec.eq_of_toNat_eq <;>
    simp only [BitVec.extractLsb'_toNat, le16_toNat, Nat.shiftRight_eq_div_pow] <;> omega

theorem readU16_ok {v : U16} {bs rest : List Byte} :
    readU16 bs = .ok (v, rest) ↔ bs = u16Bytes v ++ rest := by
  constructor
  · intro h
    unfold readU16 at h
    split at h
    · simp only [Except.ok.injEq, Prod.mk.injEq] at h
      obtain ⟨rfl, rfl⟩ := h
      rw [u16Bytes_le16]
      rfl
    · simp at h
  · rintro rfl
    simp only [u16Bytes, List.cons_append, List.nil_append, readU16, le16_bytes]

theorem tableBytes_length (t : List Rgb) : (tableBytes t).length = 3 * t.length := by
  induction t with
  | nil => rfl
  | cons c t ih =>
    simp only [tableBytes, List.flatMap_cons, List.length_append, List.length_cons,
      List.length_nil] at *
    omega

theorem triples_tableBytes (t : List Rgb) : triples (tableBytes t) = t := by
  induction t with
  | nil => rfl
  | cons c t ih =>
    have h : tableBytes (c :: t) = c.r :: c.g :: c.b :: tableBytes t := rfl
    rw [h, triples, ih]

theorem tableBytes_triples (n : Nat) (bs : List Byte) (h : bs.length = 3 * n) :
    tableBytes (triples bs) = bs ∧ (triples bs).length = n := by
  induction n generalizing bs with
  | zero =>
    obtain rfl : bs = [] := List.eq_nil_of_length_eq_zero (by omega)
    exact ⟨rfl, rfl⟩
  | succ n ih =>
    match bs, h with
    | r :: g :: b :: bs, h =>
      obtain ⟨h1, h2⟩ := ih bs (by simp only [List.length_cons] at h; omega)
      refine ⟨?_, by rw [triples, List.length_cons, h2]⟩
      have h3 : tableBytes (⟨r, g, b⟩ :: triples bs) = r :: g :: b :: tableBytes (triples bs) := rfl
      rw [triples, h3, h1]
    | [], h => simp at h
    | [_], h => simp at h; omega
    | [_, _], h => simp at h; omega

theorem readOptTable_ok {flag : Bool} {size : BitVec 3} {t : List Rgb} {bs rest : List Byte} :
    readOptTable flag size bs = .ok (t, rest) ↔
      tableOk flag size t = true ∧ bs = tableBytes t ++ rest := by
  cases flag with
  | false =>
    simp only [readOptTable, Bool.false_eq_true, if_false, Except.ok.injEq, Prod.mk.injEq, tableOk,
      decide_eq_true_eq, List.length_eq_zero_iff]
    constructor
    · rintro ⟨rfl, rfl⟩
      exact ⟨rfl, rfl⟩
    · rintro ⟨rfl, rfl⟩
      exact ⟨rfl, rfl⟩
  | true =>
    simp only [readOptTable, if_true, readColorTable, tableOk, decide_eq_true_eq]
    constructor
    · intro h
      split at h
      · simp at h
      · rename_i d r hd
        simp only [Except.ok.injEq, Prod.mk.injEq] at h
        obtain ⟨rfl, rfl⟩ := h
        obtain ⟨h1, rfl⟩ := readBytes_ok.1 hd
        obtain ⟨h2, h3⟩ := tableBytes_triples _ _ h1
        exact ⟨h3, by rw [h2]⟩
    · rintro ⟨h, rfl⟩
      rw [readBytes_ok.2 ⟨by rw [tableBytes_length, h], rfl⟩]
      simp only [triples_tableBytes]

/-! ### Sub-block chains -/

theorem chainBytes_nil : chainBytes [] = [0x00] := rfl

theorem chainBytes_cons (d : List Byte) (ds : Chain) :
    chainBytes (d :: ds) = BitVec.ofNat 8 d.length :: (d ++ chainBytes ds) := by
  simp [chainBytes]

theorem chainOk_cons (d : List Byte) (ds : Chain) :
    chainOk (d :: ds) = true ↔ (1 ≤ d.length ∧ d.length ≤ 255) ∧ chainOk ds = true := by
  simp [chainOk]

theorem length_lt_chainBytes (data : Chain) : data.length < (chainBytes data).length := by
  induction data with
  | nil => simp [chainBytes_nil]
  | cons d ds ih =>
    simp only [chainBytes_cons, List.length_cons, List.length_append]
    omega

theorem readChain_of_bytes {data : Chain} (h : chainOk data = true) (rest : List Byte) {n : Nat}
    (hn : data.length < n) : readChain n (chainBytes data ++ rest) = .ok (data, rest) := by
  induction data generalizing n with
  | nil =>
    obtain ⟨n, rfl⟩ : ∃ k, n = k + 1 := ⟨n - 1, by simp at hn; omega⟩
    rfl
  | cons d ds ih =>
    obtain ⟨n, rfl⟩ : ∃ k, n = k + 1 := ⟨n - 1, by omega⟩
    obtain ⟨⟨h1, h2⟩, h3⟩ := (chainOk_cons d ds).1 h
    have hl : (BitVec.ofNat 8 d.length).toNat = d.length := by
      rw [BitVec.toNat_ofNat]
      omega
    have hne : BitVec.ofNat 8 d.length ≠ 0 := by
      intro h0
      rw [h0] at hl
      simp at hl
      omega
    rw [chainBytes_cons, List.cons_append, List.append_assoc]
    simp only [readChain, hne, if_false, hl, readBytes_ok.2 ⟨rfl, rfl⟩]
    rw [ih h3 (by simp only [List.length_cons] at hn; omega)]

theorem readChain_bytes {n : Nat} {data : Chain} {bs rest : List Byte}
    (h : readChain n bs = .ok (data, rest)) :
    chainOk data = true ∧ bs = chainBytes data ++ rest := by
  induction n generalizing bs data with
  | zero => simp [readChain] at h
  | succ n ih =>
    match bs with
    | [] => simp [readChain] at h
    | b :: bs =>
      rw [readChain] at h
      split at h
      · rename_i hb
        simp only [Except.ok.injEq, Prod.mk.injEq] at h
        obtain ⟨rfl, rfl⟩ := h
        exact ⟨rfl, by rw [hb]; rfl⟩
      · rename_i hb
        split at h
        · simp at h
        · rename_i d r hd
          split at h
          · simp at h
          · rename_i ds r' hds
            simp only [Except.ok.injEq, Prod.mk.injEq] at h
            obtain ⟨rfl, rfl⟩ := h
            obtain ⟨h1, rfl⟩ := readBytes_ok.1 hd
            obtain ⟨h2, rfl⟩ := ih hds
            have h3 : b.toNat ≠ 0 := fun h0 => hb (BitVec.eq_of_toNat_eq h0)
            have h4 := b.isLt
            refine ⟨(chainOk_cons d ds).2 ⟨by omega, h2⟩, ?_⟩
            rw [chainBytes_cons, h1, BitVec.ofNat_toNat, BitVec.setWidth_eq, List.cons_append,
              List.append_assoc]

theorem readSubBlocks_ok {data : Chain} {bs rest : List Byte} :
    readSubBlocks bs = .ok (data, rest) ↔ chainOk data = true ∧ bs = chainBytes data ++ rest := by
  constructor
  · exact readChain_bytes
  · rintro ⟨h, rfl⟩
    refine readChain_of_bytes h rest ?_
    have := length_lt_chainBytes data
    rw [List.length_append]
    omega

/-! ### Packed bytes -/

/-- The fields of a header packed byte (30_encoding.md R65). -/
theorem headerPacked_fields (a c : Bool) (b d : BitVec 3) :
    let p : Byte := BitVec.ofBool a ++ b ++ BitVec.ofBool c ++ d
    p.getLsbD 7 = a ∧ p.extractLsb' 4 3 = b ∧ p.getLsbD 3 = c ∧ p.extractLsb' 0 3 = d := by
  revert a b c d
  decide

/-- A header packed byte from its fields (30_encoding.md R65). -/
theorem headerPacked_of_fields (p : Byte) :
    BitVec.ofBool (p.getLsbD 7) ++ p.extractLsb' 4 3 ++ BitVec.ofBool (p.getLsbD 3)
      ++ p.extractLsb' 0 3 = p := by
  revert p
  decide

/-- The fields of a GCE packed byte (30_encoding.md R68). -/
theorem gcePacked_fields (a b : BitVec 3) (c d : Bool) :
    let p : Byte := a ++ b ++ BitVec.ofBool c ++ BitVec.ofBool d
    p.extractLsb' 5 3 = a ∧ p.extractLsb' 2 3 = b ∧ p.getLsbD 1 = c ∧ p.getLsbD 0 = d := by
  revert a b c d
  decide

/-- A GCE packed byte from its fields (30_encoding.md R68). -/
theorem gcePacked_of_fields (p : Byte) :
    p.extractLsb' 5 3 ++ p.extractLsb' 2 3 ++ BitVec.ofBool (p.getLsbD 1)
      ++ BitVec.ofBool (p.getLsbD 0) = p := by
  revert p
  decide

/-- The fields of an image packed byte (30_encoding.md R75). -/
theorem imagePacked_fields (a b c : Bool) (d : BitVec 2) (e : BitVec 3) :
    let p : Byte := BitVec.ofBool a ++ BitVec.ofBool b ++ BitVec.ofBool c ++ d ++ e
    p.getLsbD 7 = a ∧ p.getLsbD 6 = b ∧ p.getLsbD 5 = c ∧ p.extractLsb' 3 2 = d ∧
      p.extractLsb' 0 3 = e := by
  revert a b c d e
  decide

/-- An image packed byte from its fields (30_encoding.md R75). -/
theorem imagePacked_of_fields (p : Byte) :
    BitVec.ofBool (p.getLsbD 7) ++ BitVec.ofBool (p.getLsbD 6) ++ BitVec.ofBool (p.getLsbD 5)
      ++ p.extractLsb' 3 2 ++ p.extractLsb' 0 3 = p := by
  revert p
  decide

end Sys2Proof
end

