-- ==== Sys2Proof/Laws/Lzw.lean ====
section
/-!
SUPPORT. The register operations of the LZW unit: what each leaves in every register, what the
invariant gives of the dictionary, and the shape of one turn of the loop.
-/

namespace Sys2Proof.Machine

/-! ### `settle`: `prev` and the width -/

@[simp] theorem Lzw.settle_clearCode (c : Code) (l : Lzw) :
    (l.settle c).clearCode = l.clearCode := by
  unfold Lzw.settle Lzw.grow; split <;> rfl

@[simp] theorem Lzw.settle_eoiCode (c : Code) (l : Lzw) : (l.settle c).eoiCode = l.eoiCode := by
  unfold Lzw.settle Lzw.grow; split <;> rfl

@[simp] theorem Lzw.settle_prev (c : Code) (l : Lzw) : (l.settle c).prev = some c := by
  unfold Lzw.settle Lzw.grow; split <;> rfl

@[simp] theorem Lzw.settle_bitPos (c : Code) (l : Lzw) : (l.settle c).bitPos = l.bitPos := by
  unfold Lzw.settle Lzw.grow; split <;> rfl

@[simp] theorem Lzw.settle_dictLen (c : Code) (l : Lzw) : (l.settle c).dictLen = l.dictLen := by
  unfold Lzw.settle Lzw.grow; split <;> rfl

@[simp] theorem Lzw.settle_out (c : Code) (l : Lzw) : (l.settle c).out = l.out := by
  unfold Lzw.settle Lzw.grow; split <;> rfl

@[simp] theorem Lzw.settle_dict (c : Code) (l : Lzw) : (l.settle c).dict = l.dict := by
  unfold Lzw.settle Lzw.grow; split <;> rfl

/-- LzwGrow, as a number (41_lzw.md R108). -/
theorem Lzw.settle_codeWidth (c : Code) (l : Lzw) :
    (l.settle c).codeWidth.toNat =
      if l.dictLen.toNat = 2 ^ l.codeWidth.toNat ∧ l.codeWidth.toNat < 12 then
        l.codeWidth.toNat + 1
      else l.codeWidth.toNat := by
  by_cases h : l.dictLen.toNat = 2 ^ l.codeWidth.toNat ∧ l.codeWidth.toNat < 12
  · simp only [Lzw.settle, Lzw.grow, if_pos h, BitVec.toNat_ofNat]
    omega
  · simp only [Lzw.settle, Lzw.grow, if_neg h]

/-! ### `append` and `learnKnown` -/

/-- An append with every entry listed and room for one more (41_lzw.md R104, R105). -/
theorem Lzw.append_of_listed {l : Lzw} (e : List Sym) (hl : l.dict.length = l.dictLen.toNat) :
    l.append e =
      { l with
        dict := l.dict ++ [.seq e]
        dictLen := BitVec.ofNat 13 (l.dictLen.toNat + 1) } := by
  unfold Lzw.append
  rw [← hl, List.take_length]

@[simp] theorem Lzw.append_clearCode (e : List Sym) (l : Lzw) : (l.append e).clearCode = l.clearCode := rfl
@[simp] theorem Lzw.append_eoiCode (e : List Sym) (l : Lzw) : (l.append e).eoiCode = l.eoiCode := rfl
@[simp] theorem Lzw.append_codeWidth (e : List Sym) (l : Lzw) : (l.append e).codeWidth = l.codeWidth := rfl
@[simp] theorem Lzw.append_prev (e : List Sym) (l : Lzw) : (l.append e).prev = l.prev := rfl
@[simp] theorem Lzw.append_bitPos (e : List Sym) (l : Lzw) : (l.append e).bitPos = l.bitPos := rfl
@[simp] theorem Lzw.append_out (e : List Sym) (l : Lzw) : (l.append e).out = l.out := rfl

@[simp] theorem Lzw.learnKnown_clearCode (d : Nat) (c : Code) (l : Lzw) :
    (l.learnKnown d c).clearCode = l.clearCode := by
  unfold Lzw.learnKnown; repeat' split
  all_goals rfl

@[simp] theorem Lzw.learnKnown_eoiCode (d : Nat) (c : Code) (l : Lzw) :
    (l.learnKnown d c).eoiCode = l.eoiCode := by
  unfold Lzw.learnKnown; repeat' split
  all_goals rfl

@[simp] theorem Lzw.learnKnown_codeWidth (d : Nat) (c : Code) (l : Lzw) :
    (l.learnKnown d c).codeWidth = l.codeWidth := by
  unfold Lzw.learnKnown; repeat' split
  all_goals rfl

@[simp] theorem Lzw.learnKnown_prev (d : Nat) (c : Code) (l : Lzw) :
    (l.learnKnown d c).prev = l.prev := by
  unfold Lzw.learnKnown; repeat' split
  all_goals rfl

@[simp] theorem Lzw.learnKnown_bitPos (d : Nat) (c : Code) (l : Lzw) :
    (l.learnKnown d c).bitPos = l.bitPos := by
  unfold Lzw.learnKnown; repeat' split
  all_goals rfl

@[simp] theorem Lzw.learnKnown_out (d : Nat) (c : Code) (l : Lzw) :
    (l.learnKnown d c).out = l.out := by
  unfold Lzw.learnKnown; repeat' split
  all_goals rfl

/-- Right after a clear code, and with a full dictionary, a known code appends nothing
(41_lzw.md R104, R107). -/
theorem Lzw.learnKnown_of_skip {d : Nat} {c : Code} {l : Lzw}
    (h : l.prev = none ∨ 4096 ≤ l.dictLen.toNat) : l.learnKnown d c = l := by
  unfold Lzw.learnKnown
  split
  · rfl
  · rename_i p hp
    rcases h with h | h
    · rw [h] at hp
      cases hp
    · exact if_neg (by omega)

/-- Otherwise it appends the previous entry with the entry's first symbol (41_lzw.md R104). -/
theorem Lzw.learnKnown_of_append {d : Nat} {c p : Code} {l : Lzw} (hp : l.prev = some p)
    (h : l.dictLen.toNat < 4096) :
    l.learnKnown d c = l.append (l.entry d p ++ l.entryHead d c) := by
  simp only [Lzw.learnKnown, hp, if_pos h]

/-! ### The dictionary -/

/-- A listed entry is the one read (10_state.md R31). -/
theorem Lzw.entry_of_slot {d : Nat} {l : Lzw} {c : Code} {xs : List Sym}
    (h : l.dict[c.toNat]? = some (.seq xs)) : l.entry d c = xs := by
  simp only [Lzw.entry, h]

theorem Lzw.Inv.dictLen_le {m : Byte} {l : Lzw} (h : l.Inv m) : l.dictLen.toNat ≤ 4096 :=
  Nat.le_trans h.lenHigh (Nat.pow_le_pow_right (n := 2) (by omega) h.widthHigh)

/-- LzwCheckMin's range (41_lzw.md R98). -/
theorem minCodeOk_iff (m : Byte) : minCodeOk m = true ↔ 1 ≤ m.toNat ∧ m.toNat ≤ 11 :=
  decide_eq_true_iff

theorem minCodeOk_eq_false_iff (m : Byte) : minCodeOk m = false ↔ m.toNat < 1 ∨ 11 < m.toNat := by
  rw [← Bool.not_eq_true, minCodeOk_iff]
  omega

theorem Lzw.Inv.minCodeOk {m : Byte} {l : Lzw} (h : l.Inv m) : minCodeOk m = true :=
  (minCodeOk_iff m).2 h.minCode

/-- A data code's entry is listed and has a first symbol (41_lzw.md R109). -/
theorem Lzw.Inv.data_entry {m : Byte} {l : Lzw} (h : l.Inv m) {c : Code} (hc : l.IsDataCode c) :
    ∃ y ys, l.dict[c.toNat]? = some (.seq (y :: ys)) := by
  obtain ⟨xs, hx, hne⟩ := h.dataSlot c hc
  obtain ⟨y, ys, rfl⟩ := List.exists_cons_of_ne_nil hne
  exact ⟨y, ys, hx⟩

/-- The entry a KWKWK code makes (41_lzw.md R105). -/
theorem Lzw.rebuilt_of_slot {d : Nat} {l : Lzw} {p : Code} {y : Sym} {ys : List Sym}
    (hp : l.prev = some p) (h : l.dict[p.toNat]? = some (.seq (y :: ys))) :
    l.rebuilt d = y :: ys ++ [y] := by
  simp [Lzw.rebuilt, hp, Lzw.entryHead, Lzw.entry_of_slot h]

/-! ### Reading a code -/

@[simp] theorem Lzw.skipCode_clearCode (l : Lzw) : l.skipCode.clearCode = l.clearCode := rfl
@[simp] theorem Lzw.skipCode_eoiCode (l : Lzw) : l.skipCode.eoiCode = l.eoiCode := rfl
@[simp] theorem Lzw.skipCode_codeWidth (l : Lzw) : l.skipCode.codeWidth = l.codeWidth := rfl
@[simp] theorem Lzw.skipCode_prev (l : Lzw) : l.skipCode.prev = l.prev := rfl
@[simp] theorem Lzw.skipCode_dictLen (l : Lzw) : l.skipCode.dictLen = l.dictLen := rfl
@[simp] theorem Lzw.skipCode_out (l : Lzw) : l.skipCode.out = l.out := rfl
@[simp] theorem Lzw.skipCode_dict (l : Lzw) : l.skipCode.dict = l.dict := rfl
@[simp] theorem Lzw.skipCode_ctx (l : Lzw) : l.skipCode.ctx = l.ctx := rfl

/-- Moving past a code keeps the invariant: it names no bit position (41_lzw.md R109). -/
theorem Lzw.Inv.skipCode {m : Byte} {l : Lzw} (h : l.Inv m) : l.skipCode.Inv m where
  minCode := h.minCode
  clear := h.clear
  eoi := h.eoi
  widthLow := h.widthLow
  widthHigh := h.widthHigh
  lenLow := h.lenLow
  lenHigh := h.lenHigh
  lenRoom := h.lenRoom
  listed := h.listed
  clearSlot := h.clearSlot
  eoiSlot := h.eoiSlot
  dataSlot := h.dataSlot
  symbols := h.symbols
  outSymbols := h.outSymbols
  prevData := h.prevData

/-! ### The class of a code, and one turn of the loop -/

/-- The five classes, each with what it says of the code (30_encoding.md R82). -/
theorem decodeCode_cases (x : CodeCtx) (c : Code) :
    (decodeCode x c = .lzwClear c ∧ c = x.clearCode) ∨
    (decodeCode x c = .lzwEoi c ∧ c ≠ x.clearCode ∧ c = x.eoiCode) ∨
    (decodeCode x c = .lzwKnown c ∧ c ≠ x.clearCode ∧ c ≠ x.eoiCode ∧
      c.toNat < x.dictLen.toNat) ∨
    (decodeCode x c = .lzwKwkwk c ∧ c ≠ x.clearCode ∧ c ≠ x.eoiCode ∧
      c.toNat = x.dictLen.toNat ∧ x.prev ≠ none) ∨
    (decodeCode x c = .lzwInvalid c ∧ c ≠ x.clearCode ∧ c ≠ x.eoiCode ∧
      x.dictLen.toNat ≤ c.toNat) := by
  unfold decodeCode
  by_cases h1 : c = x.clearCode
  · exact .inl ⟨if_pos h1, h1⟩
  · by_cases h2 : c = x.eoiCode
    · exact .inr (.inl ⟨by rw [if_neg h1, if_pos h2], h1, h2⟩)
    · rw [if_neg h1, if_neg h2]
      by_cases h3 : c.toNat < x.dictLen.toNat
      · exact .inr (.inr (.inl ⟨if_pos h3, h1, h2, h3⟩))
      · rw [if_neg h3]
        by_cases h4 : c.toNat = x.dictLen.toNat ∧ x.prev ≠ none
        · exact .inr (.inr (.inr (.inl ⟨if_pos h4, h1, h2, h4.1, h4.2⟩)))
        · exact .inr (.inr (.inr (.inr ⟨if_neg h4, h1, h2, by omega⟩)))

/-- Running the decoded code is the loop body `lzwCode` (41_lzw.md R97). -/
theorem exec_decodeCode (c : Code) (s : State) :
    exec (decodeCode s.lz.ctx c) s = .next (s.lzwCode c) := by
  unfold State.lzwCode
  rcases decodeCode_cases s.lz.ctx c with h | h | h | h | h <;> rw [h.1] <;> rfl

/-- Emit either passes the image's pixel count or appends and settles (41_lzw.md R97, R110). -/
theorem State.emitSyms_of_fits {xs : List Sym} {c : Code} {s : State}
    (h : s.lz.out.length + xs.length ≤ s.img.pixels) :
    s.emitSyms xs c = { s with lz := Lzw.settle c { s.lz with out := s.lz.out ++ xs } } := by
  simp only [State.emitSyms, if_neg (Nat.not_lt.2 h)]

theorem State.emitSyms_of_overlong {xs : List Sym} {c : Code} {s : State}
    (h : s.img.pixels < s.lz.out.length + xs.length) :
    s.emitSyms xs c = s.raise (.pixelCountMismatch (s.lz.out.length + xs.length)) := by
  simp only [State.emitSyms, if_pos h]

/-- One turn of the unit the engine stands in is one step of the machine (log 1). -/
theorem step_lzw {s : State} (hr : s.ctl.run = .busy) (hu : s.unit = .lzw) :
    step s = .next s.lzwTurn := by
  have hu' : s.unit ≠ .parser := by rw [hu]; simp
  have h : step s = s.fetchUnit.outcome := by simp [step, State.fetch, hr, hu']
  rw [h, State.fetchUnit, hu]
  unfold State.lzwTurn
  cases s.lz.peekCode s.img.payload with
  | none => rfl
  | some c => exact exec_decodeCode c s.skipCode

end Sys2Proof.Machine
end

