-- ==== Sys2Proof/Laws/Image.lean ====
section
/-!
SUPPORT. One turn of a unit, turn by turn: where it can leave the engine, and that it leaves the host's
side as it was.
-/

namespace Sys2Proof.Machine

/-- The ends of an Emit: an error at a block boundary, or the loop goes on. -/
theorem State.emitSyms_sameOutside (xs : List Sym) (c : Code) (s : State) :
    s.SameOutside (s.emitSyms xs c) := by
  unfold State.emitSyms
  split <;> exact .of_eq rfl rfl rfl rfl rfl

/-- The loop body leaves the host's side as it was. -/
theorem State.lzwCode_sameOutside (c : Code) (s : State) : s.SameOutside (s.lzwCode c) := by
  unfold State.lzwCode
  split
  · exact .of_eq rfl rfl rfl rfl rfl
  · unfold State.lzwEoi
    split <;> exact .of_eq rfl rfl rfl rfl rfl
  · exact (State.SameOutside.of_eq (s := s) (t := { s with lz := s.lz.learnKnown s.draws c })
      rfl rfl rfl rfl rfl).trans (State.emitSyms_sameOutside _ _ _)
  · exact (State.SameOutside.of_eq (s := s) (t := { s with lz := s.lz.append (s.lz.rebuilt s.draws) })
      rfl rfl rfl rfl rfl).trans (State.emitSyms_sameOutside _ _ _)
  · exact .of_eq rfl rfl rfl rfl rfl

/-- One unit turn leaves the host's side as it was. -/
theorem State.unitTurn_sameOutside (s : State) : s.SameOutside s.unitTurn := by
  unfold State.unitTurn
  split
  · exact .refl s
  · unfold State.lzwTurn
    split
    · exact .of_eq rfl rfl rfl rfl rfl
    · exact (State.SameOutside.of_eq (s := s) (t := s.skipCode) rfl rfl rfl rfl rfl).trans
        (State.lzwCode_sameOutside _ _)
  · exact .of_eq rfl rfl rfl rfl rfl
  · rw [State.disposePrevious_eq]
    exact .of_eq rfl rfl rfl rfl rfl
  · exact State.composite_sameOutside s

/-- Any number of unit turns leaves the host's side as it was. -/
theorem State.runUnits_sameOutside (n : Nat) (s : State) : s.SameOutside (s.runUnits n) := by
  induction n generalizing s with
  | zero => exact .refl s
  | succ n ih =>
    rw [State.runUnits]
    split
    · exact .refl s
    · exact (State.unitTurn_sameOutside s).trans (ih _)

/-- At a block boundary no unit turns. -/
theorem State.runUnits_of_parser {s : State} (n : Nat) (h : s.unit = .parser) :
    s.runUnits n = s := by
  cases n with
  | zero => rfl
  | succ n => rw [State.runUnits, if_pos h]

/-- Inside a block the unit the engine stands in turns first. -/
theorem State.runUnits_succ {s : State} (n : Nat) (h : s.unit ≠ .parser) :
    s.runUnits (n + 1) = s.unitTurn.runUnits n := by
  rw [State.runUnits, if_neg h]

/-- One step inside a block is one unit turn (log 1). -/
theorem step_of_inside {s : State} (hr : s.ctl.run = .busy) (hu : s.unit ≠ .parser) :
    step s = .next s.unitTurn := by
  have h : step s = s.fetchUnit.outcome := by simp [step, State.fetch, hr, hu]
  cases hs : s.unit with
  | parser => exact absurd hs hu
  | lzw =>
    rw [step_lzw hr hs, State.unitTurn, hs]
  | reorder => rw [h, State.fetchUnit, State.unitTurn, hs]; rfl
  | dispose =>
    rw [h, State.fetchUnit, State.unitTurn, hs]
    exact exec_decodeDisposal { s with unit := .paint }
  | paint => rw [h, State.fetchUnit, State.unitTurn, hs]; rfl

/-! ### Reading codes -/

/-- A code that is read lies inside the payload (41_lzw.md R101). -/
theorem Lzw.peekCode_some {payload : List Byte} {l : Lzw} {c : Code}
    (h : l.peekCode payload = some c) :
    l.bitPos.toNat + l.codeWidth.toNat ≤ 8 * payload.length := by
  unfold Lzw.peekCode at h
  split at h
  · cases h
  · omega

/-- `bit_pos` does not wrap on a payload of a 32-bit stream (10_state.md R29, R30). -/
theorem Lzw.skipCode_bitPos {payload : List Byte} {l : Lzw} {c : Code}
    (h : l.peekCode payload = some c) (hp : payload.length < 2 ^ 32) :
    l.skipCode.bitPos.toNat = l.bitPos.toNat + l.codeWidth.toNat := by
  have h' := Lzw.peekCode_some h
  simp only [Lzw.skipCode, BitVec.toNat_ofNat]
  omega

/-- The width after LzwReset for an accepted minimum code size (41_lzw.md R98, R100). -/
theorem Lzw.reset_codeWidth {m : Byte} (l : Lzw) (h : minCodeOk m = true) :
    (l.reset m).codeWidth.toNat = m.toNat + 1 := by
  have h' := (minCodeOk_iff m).1 h
  simp only [Lzw.reset, BitVec.toNat_ofNat]
  omega

/-! ### The front of an image step, in the spec's own terms -/

@[simp] theorem State.loadImage_img (op : ImageOp) (s : State) :
    (s.loadImage op).img = imageRegs op := rfl
@[simp] theorem State.loadImage_tabs (op : ImageOp) (s : State) :
    (s.loadImage op).tabs = imageTabs op s.tabs := rfl

/-- The palette the compositor selects is the active table (44_compositor.md R142). -/
theorem State.palette_eq_some_iff {op : ImageOp} {s : State} {table : List Rgb} {len : BitVec 9} :
    (s.loadImage op).palette = some (table, len) ↔ s.ActiveTable op table len := by
  have hl : (s.loadImage op).img.lctFlag = op.lctFlag := rfl
  have hg : (s.loadImage op).scr.gctFlag = s.scr.gctFlag := rfl
  have ht : (s.loadImage op).tabs = imageTabs op s.tabs := rfl
  simp only [State.palette, State.ActiveTable, hl, hg, ht, imageTabs]
  cases op.lctFlag <;> cases s.scr.gctFlag <;> simp [eq_comm]

/-- There is no palette exactly when there is neither table (44_compositor.md R142). -/
theorem State.palette_eq_none_iff {op : ImageOp} {s : State} :
    (s.loadImage op).palette = none ↔ op.lctFlag = false ∧ s.scr.gctFlag = false := by
  have hl : (s.loadImage op).img.lctFlag = op.lctFlag := rfl
  have hg : (s.loadImage op).scr.gctFlag = s.scr.gctFlag := rfl
  simp only [State.palette, hl, hg]
  cases op.lctFlag <;> cases s.scr.gctFlag <;> simp

/-- The canvas an image is painted on (44_compositor.md R135). -/
theorem State.disposedCanvas_iff {s : State} {canvas : List Pixel} :
    s.DisposedCanvas canvas ↔
      canvas = if s.comp.frameCount = 0 then s.comp.canvas else s.disposePrevious.comp.canvas := by
  unfold State.DisposedCanvas
  rw [exec_decodeDisposal]
  split <;> simp_all

/-- Painting an image, by the model's own names for what it paints with (44_compositor.md R144). -/
theorem State.paintsTo_iff {op : ImageOp} {s : State} {out : List Sym} {table : List Rgb}
    {len : BitVec 9} {r : Except Sym (List Pixel)} :
    s.PaintsTo op out table len r ↔
      paintFrom ((s.loadImage op).paintEnv table len) 0 (imageIdx op out)
        (if s.comp.frameCount = 0 then s.comp.canvas else s.disposePrevious.comp.canvas) = r := by
  unfold State.PaintsTo
  simp only [State.disposedCanvas_iff, exists_eq_left]
  rfl

end Sys2Proof.Machine
end

