-- ==== Sys2Proof/Laws/Memory.lean ====
section
/-!
SUPPORT. Input memory: read after write, and that every operation keeps the canonical form.
-/

namespace Sys2Proof.Machine

/-- Every listed address of `m` is above `a`. -/
def memAbove (a : Nat) (m : List Host.Cell) : Prop := ∀ c ∈ m, a < c.1

theorem memSorted_cons {k : Nat} {v : Byte} {m : List Host.Cell} :
    memSorted ((k, v) :: m) = true ↔ memAbove k m ∧ memSorted m = true := by
  induction m generalizing k v with
  | nil => simp [memSorted, memAbove]
  | cons c m ih =>
    obtain ⟨k', v'⟩ := c
    simp only [memSorted, Bool.and_eq_true, decide_eq_true_eq, memAbove, List.mem_cons,
      forall_eq_or_imp]
    constructor
    · rintro ⟨hlt, hs⟩
      exact ⟨⟨hlt, fun c hc => Nat.lt_trans hlt ((ih.1 hs).1 c hc)⟩, hs⟩
    · rintro ⟨⟨hlt, -⟩, hs⟩
      exact ⟨hlt, hs⟩

/-- A byte below every listed address reads as unwritten. -/
theorem memByte_of_above {a : Nat} {m : List Host.Cell} (h : memAbove a m) :
    memByte m a = unwrittenByte := by
  induction m with
  | nil => rfl
  | cons c m ih =>
    obtain ⟨k, v⟩ := c
    have hk : a < k := h (k, v) (by simp)
    have : k ≠ a := by omega
    simp only [memByte, if_neg this]
    exact ih fun c hc => h c (by simp [hc])

/-- Read after write: the written byte at its address, every other byte as before. -/
theorem memByte_memSet {m : List Host.Cell} (hm : memSorted m = true) (a x : Nat) (b : Byte) :
    memByte (memSet m a b) x = if x = a then b else memByte m x := by
  induction m with
  | nil =>
    by_cases hb : b = unwrittenByte <;> by_cases hx : x = a <;>
      simp [memSet, memByte, hb, hx, eq_comm (a := a)]
  | cons c m ih =>
    obtain ⟨k, v⟩ := c
    obtain ⟨hab, hs⟩ := memSorted_cons.1 hm
    rcases Nat.lt_trichotomy k a with hlt | heq | hgt
    · by_cases hx : k = x
      · subst hx
        have hka : ¬ k = a := by omega
        simp [memSet, memByte, hlt, hka]
      · simp [memSet, memByte, hlt, hx, ih hs]
    · subst heq
      by_cases hb : b = unwrittenByte
      · by_cases hx : x = k
        · subst hx
          simp [memSet, hb, memByte_of_above hab]
        · have : ¬ k = x := fun h => hx h.symm
          simp [memSet, memByte, hb, hx, this]
      · by_cases hx : x = k
        · simp [memSet, memByte, hb, hx]
        · have : ¬ k = x := fun h => hx h.symm
          simp [memSet, memByte, hb, hx, this]
    · have h1 : ¬ k < a := by omega
      have h2 : ¬ k = a := by omega
      by_cases hb : b = unwrittenByte
      · by_cases hx : x = a
        · subst hx
          have : memByte ((k, v) :: m) x = unwrittenByte := by
            apply memByte_of_above
            intro c hc
            rcases List.mem_cons.1 hc with rfl | hc
            · exact hgt
            · exact Nat.lt_trans hgt (hab c hc)
          simp [memSet, h1, h2, hb, this]
        · simp [memSet, h1, h2, hb, hx]
      · by_cases hx : x = a
        · simp [memSet, memByte, h1, h2, hb, hx]
        · have : ¬ a = x := fun h => hx h.symm
          simp [memSet, memByte, h1, h2, hb, hx, this]

theorem memAbove_memSet {m : List Host.Cell} {l a : Nat} {b : Byte} (h : memAbove l m)
    (ha : l < a) : memAbove l (memSet m a b) := by
  induction m with
  | nil =>
    by_cases hb : b = unwrittenByte <;> simp [memSet, memAbove, hb, ha]
  | cons c m ih =>
    obtain ⟨k, v⟩ := c
    have hk : l < k := h (k, v) (by simp)
    have hm : memAbove l m := fun c hc => h c (by simp [hc])
    unfold memSet
    split
    · intro c hc
      rcases List.mem_cons.1 hc with rfl | hc
      · exact hk
      · exact ih hm c hc
    · split
      · split
        · exact hm
        · intro c hc
          rcases List.mem_cons.1 hc with rfl | hc
          · exact ha
          · exact hm c hc
      · split
        · exact h
        · intro c hc
          rcases List.mem_cons.1 hc with rfl | hc
          · exact ha
          · exact h c hc

theorem memSorted_memSet {m : List Host.Cell} (hm : memSorted m = true) (a : Nat) (b : Byte) :
    memSorted (memSet m a b) = true := by
  induction m with
  | nil => by_cases hb : b = unwrittenByte <;> simp [memSet, memSorted, hb]
  | cons c m ih =>
    obtain ⟨k, v⟩ := c
    obtain ⟨hab, hs⟩ := memSorted_cons.1 hm
    unfold memSet
    split
    · exact memSorted_cons.2 ⟨memAbove_memSet hab (by assumption), ih hs⟩
    · split
      · rename_i h
        subst h
        split
        · exact hs
        · exact memSorted_cons.2 ⟨hab, hs⟩
      · split
        · exact hm
        · refine memSorted_cons.2 ⟨?_, hm⟩
          intro c hc
          rcases List.mem_cons.1 hc with rfl | hc
          · show a < k
            omega
          · have := hab c hc
            omega

theorem memSet_all {m : List Host.Cell} {a : Nat} {b : Byte}
    (h : ∀ c ∈ m, c.2 ≠ unwrittenByte) : ∀ c ∈ memSet m a b, c.2 ≠ unwrittenByte := by
  induction m with
  | nil => by_cases hb : b = unwrittenByte <;> simp [memSet, hb]
  | cons c m ih =>
    obtain ⟨k, v⟩ := c
    have hm : ∀ c ∈ m, c.2 ≠ unwrittenByte := fun c hc => h c (by simp [hc])
    have hv : v ≠ unwrittenByte := h (k, v) (by simp)
    unfold memSet
    split
    · intro c hc
      rcases List.mem_cons.1 hc with rfl | hc
      · exact hv
      · exact ih hm c hc
    · split
      · split
        · exact hm
        · rename_i hb
          intro c hc
          rcases List.mem_cons.1 hc with rfl | hc
          · exact hb
          · exact hm c hc
      · split
        · exact h
        · rename_i hb
          intro c hc
          rcases List.mem_cons.1 hc with rfl | hc
          · exact hb
          · exact h c hc

theorem Memory.wf_iff {m : List Host.Cell} :
    Memory.wf m = true ↔ memSorted m = true ∧ ∀ c ∈ m, c.2 ≠ unwrittenByte := by
  simp [Memory.wf]

theorem Memory.wf_nil : Memory.wf [] = true := rfl

/-- Writing a byte keeps the canonical form. -/
theorem Memory.wf_memSet {m : List Host.Cell} (hm : Memory.wf m = true) (a : Nat) (b : Byte) :
    Memory.wf (memSet m a b) = true :=
  Memory.wf_iff.2
    ⟨memSorted_memSet (Memory.wf_iff.1 hm).1 a b, memSet_all (Memory.wf_iff.1 hm).2⟩

/-- Writing consecutive bytes keeps the canonical form. -/
theorem Memory.wf_memWrite {m : List Host.Cell} (hm : Memory.wf m = true) (a : Nat)
    (bs : List Byte) : Memory.wf (memWrite m a bs) = true := by
  induction bs generalizing m a with
  | nil => exact hm
  | cons b bs ih => exact ih (Memory.wf_memSet hm a b) (a + 1)

/-- Read after a write of consecutive bytes: the written bytes at their addresses, every other byte as
before. -/
theorem memByte_memWrite {m : List Host.Cell} (hm : Memory.wf m = true) (a x : Nat)
    (bs : List Byte) :
    memByte (memWrite m a bs) x =
      if a ≤ x then
        match bs[x - a]? with
        | some b => b
        | none => memByte m x
      else memByte m x := by
  induction bs generalizing m a with
  | nil => simp [memWrite]
  | cons b bs ih =>
    rw [memWrite, ih (Memory.wf_memSet hm a b), memByte_memSet (Memory.wf_iff.1 hm).1]
    rcases Nat.lt_trichotomy x a with h | h | h
    · simp only [show ¬ a + 1 ≤ x by omega, show ¬ x = a by omega, show ¬ a ≤ x by omega, if_false]
    · subst h
      simp
    · have hx : x - a = (x - (a + 1)) + 1 := by omega
      simp only [hx, show a + 1 ≤ x by omega, show ¬ x = a by omega, show a ≤ x by omega, if_true,
        if_false, List.getElem?_cons_succ]

/-- Dropping the cells below an address keeps the canonical form. -/
theorem Memory.wf_filter {m : List Host.Cell} (hm : Memory.wf m = true)
    (p : Host.Cell → Bool) : Memory.wf (m.filter p) = true := by
  rw [Memory.wf_iff] at hm ⊢
  refine ⟨?_, fun c hc => hm.2 c (List.mem_of_mem_filter hc)⟩
  obtain ⟨hs, -⟩ := hm
  induction m with
  | nil => rfl
  | cons c m ih =>
    obtain ⟨k, v⟩ := c
    obtain ⟨hab, hs⟩ := memSorted_cons.1 hs
    rw [List.filter_cons]
    split
    · exact memSorted_cons.2 ⟨fun c hc => hab c (List.mem_of_mem_filter hc), ih hs⟩
    · exact ih hs

end Sys2Proof.Machine
end

