-- ==== Sys2Proof/Laws/PerInstr.lean ====
section
/-!
SUPPORT. One statement per instruction: the length the opcode table gives its encoding
(30_encoding.md R64 to R76, R86; the length column of spec/opcode_table.json).
-/

namespace Sys2Proof.Laws.BlockLength

/-- The bytes of a color table (30_encoding.md R66). -/
def tableSize (flag : Bool) (size : BitVec 3) : Nat := if flag then 3 * tableLen size else 0

/-- The bytes of a sub-block chain: one length byte before each sub-block, and the terminator
(30_encoding.md R77). -/
def chainSize (data : Chain) : Nat := (data.map fun d => d.length + 1).sum + 1

/-- The length column of the opcode table; none for what is not stream bytes. -/
def tableLength : Instr → Option Nat
  | .header op => some (13 + tableSize op.gctFlag op.gctSize)
  | .badSignature _ _ _ => some 3
  | .extGce _ => some 8
  | .extComment data => some (2 + chainSize data)
  | .extPlaintext _ _ data => some (15 + chainSize data)
  | .extAppNetscape _ => some 19
  | .extApp op => some (14 + chainSize op.data)
  | .extUnknown _ data => some (2 + chainSize data)
  | .image op => some (11 + tableSize op.lctFlag op.lctSize + chainSize op.data)
  | .trailer => some 1
  | .illegalSentinel _ => some 1
  | .lzwClear _ => none
  | .lzwEoi _ => none
  | .lzwKnown _ => none
  | .lzwKwkwk _ => none
  | .lzwInvalid _ => none
  | .dispose0 => none
  | .dispose1 => none
  | .dispose2 => none
  | .dispose3 => none
  | .disposeRsvd _ => none
  | .ctrlStart _ => none
  | .ctrlCancel _ => none
  | .ctrlIrqEn _ => none
  | .ctrlIrqAck _ => none

/-- The number of stream bytes an encoding has; none for what is not stream bytes. -/
def encodedLength : Encoded → Option Nat
  | .bytes bs => some bs.length
  | .code _ => none
  | .disposal _ => none
  | .word _ => none

/-- A well-formed instruction's encoding has the length the opcode table gives it. -/
def Statement (i : Instr) : Prop := WellFormed i = true → encodedLength (encode i) = tableLength i

theorem chainBytes_size (data : Chain) : (chainBytes data).length = chainSize data := by
  induction data with
  | nil => rfl
  | cons d ds ih =>
    rw [chainBytes_cons, List.length_cons, List.length_append, ih]
    simp only [chainSize, List.map_cons, List.sum_cons]
    omega

theorem tableBytes_size {flag : Bool} {size : BitVec 3} {t : List Rgb}
    (h : tableOk flag size t = true) : (tableBytes t).length = tableSize flag size := by
  have h' : t.length = if flag then tableLen size else 0 := of_decide_eq_true h
  rw [tableBytes_length, h', tableSize]
  split <;> rfl

theorem header (op : HeaderOp) : Statement (.header op) := by
  intro h
  obtain ⟨hv, ht⟩ := Bool.and_eq_true_iff.1 h
  have hv' : op.version.length = 3 := of_decide_eq_true hv
  simp only [encode, encodedLength, tableLength, headerBytes, gifSignature, u16Bytes,
    List.length_append, List.length_cons, List.length_nil, tableBytes_size ht, hv']

theorem badSignature (s0 s1 s2 : Byte) : Statement (.badSignature s0 s1 s2) := fun _ => rfl

theorem extGce (op : GceOp) : Statement (.extGce op) := fun _ => rfl

theorem extComment (data : Chain) : Statement (.extComment data) := by
  intro _
  simp only [encode, encodedLength, tableLength, List.length_append, List.length_cons,
    List.length_nil, chainBytes_size]

theorem extPlaintext (size : Byte) (hdr : List Byte) (data : Chain) :
    Statement (.extPlaintext size hdr data) := by
  intro h
  obtain ⟨hh, -⟩ := Bool.and_eq_true_iff.1 h
  have hh' : hdr.length = 12 := of_decide_eq_true hh
  simp only [encode, encodedLength, tableLength, List.length_append, List.length_cons,
    List.length_nil, chainBytes_size, hh']

theorem extAppNetscape (op : NetscapeOp) : Statement (.extAppNetscape op) := by
  intro h
  have ha : op.auth.length = 3 := of_decide_eq_true h
  simp only [encode, encodedLength, tableLength, netscapeBytes, netscapeId, u16Bytes,
    List.length_append, List.length_cons, List.length_nil, ha]

theorem extApp (op : AppOp) : Statement (.extApp op) := by
  intro h
  simp only [WellFormed, Bool.and_eq_true, decide_eq_true_eq] at h
  obtain ⟨⟨⟨hi, -⟩, ha⟩, -⟩ := h
  simp only [encode, encodedLength, tableLength, appBytes, List.length_append, List.length_cons,
    List.length_nil, chainBytes_size, hi, ha]

theorem extUnknown (label : Byte) (data : Chain) : Statement (.extUnknown label data) := by
  intro _
  simp only [encode, encodedLength, tableLength, List.length_append, List.length_cons,
    List.length_nil, chainBytes_size]

theorem image (op : ImageOp) : Statement (.image op) := by
  intro h
  obtain ⟨ht, -⟩ := Bool.and_eq_true_iff.1 h
  simp only [encode, encodedLength, tableLength, imageBytes, u16Bytes, List.length_append,
    List.length_cons, List.length_nil, chainBytes_size, tableBytes_size ht]
  congr 1
  omega

theorem trailer : Statement .trailer := fun _ => rfl

theorem illegalSentinel (b : Byte) : Statement (.illegalSentinel b) := fun _ => rfl

theorem lzwClear (c : Code) : Statement (.lzwClear c) := fun _ => rfl

theorem lzwEoi (c : Code) : Statement (.lzwEoi c) := fun _ => rfl

theorem lzwKnown (c : Code) : Statement (.lzwKnown c) := fun _ => rfl

theorem lzwKwkwk (c : Code) : Statement (.lzwKwkwk c) := fun _ => rfl

theorem lzwInvalid (c : Code) : Statement (.lzwInvalid c) := fun _ => rfl

theorem dispose0 : Statement .dispose0 := fun _ => rfl

theorem dispose1 : Statement .dispose1 := fun _ => rfl

theorem dispose2 : Statement .dispose2 := fun _ => rfl

theorem dispose3 : Statement .dispose3 := fun _ => rfl

theorem disposeRsvd (d : BitVec 3) : Statement (.disposeRsvd d) := fun _ => rfl

theorem ctrlStart (v : U32) : Statement (.ctrlStart v) := fun _ => rfl

theorem ctrlCancel (v : U32) : Statement (.ctrlCancel v) := fun _ => rfl

theorem ctrlIrqEn (v : U32) : Statement (.ctrlIrqEn v) := fun _ => rfl

theorem ctrlIrqAck (v : U32) : Statement (.ctrlIrqAck v) := fun _ => rfl

end Sys2Proof.Laws.BlockLength
end

