-- ==== Sys2Proof/Laws/Step.lean ====
section
/-!
SUPPORT. What a step is, by the agent and unit that moves: each lemma names the case and what `step`
answers in it.
-/

namespace Sys2Proof.Machine

/-- The stream from the cursor on has the bytes of IN_MEM up to `in_len_l` (10_state.md R22, R24). -/
theorem State.streamRest_length (s : State) :
    s.streamRest.length = s.cur.inLenL.toNat - s.cur.pos.toNat := by
  simp [State.streamRest, memRead]

theorem State.streamRest_get {s : State} {k : Nat} (h : k < s.cur.inLenL.toNat - s.cur.pos.toNat) :
    s.streamRest[k]? = some (memByte s.inMem (s.cur.pos.toNat + k)) := by
  simp [State.streamRest, memRead, h]

/-- Inside an image step the unit the engine stands in moves. -/
theorem step_of_unit {s : State} (hr : s.ctl.run = .busy) (hu : s.unit ≠ .parser) :
    step s = s.fetchUnit.outcome := by
  simp [step, State.fetch, hr, hu]

/-- At a block boundary where no host action comes first the engine moves. -/
theorem step_of_engine {s : State} (hu : s.ctl.run = .busy → s.unit = .parser)
    (hq : s.EngineNext) :
    step s = (State.fetchEngine { s with hostq := s.hostq.tail }).outcome := by
  have h : ¬ (s.ctl.run = .busy ∧ s.unit ≠ .parser) := fun h => h.2 (hu h.1)
  rcases hq with hq | ⟨q, hq⟩
  · have hs : ({ s with hostq := s.hostq.tail } : State) = s := by rw [hq, List.tail_nil, ← hq]
    rw [hs]
    simp only [step, State.fetch, if_neg h, hq]
  · simp only [step, State.fetch, if_neg h, hq, List.tail_cons]

/-- At a block boundary of an uncancelled decode the engine fetches the header or the next block. -/
theorem step_of_boundary {s : State} (h : s.AtBoundary) :
    step s = (match s.ctl.phase with
      | .atHeader =>
        State.fetchHeader { s with cur := { s.cur with blkStart := 0 }, hostq := s.hostq.tail }
      | .atBlock =>
        State.fetchBlock
          { s with cur := { s.cur with blkStart := s.cur.pos }, hostq := s.hostq.tail }).outcome := by
  rw [step_of_engine (fun _ => h.parser) h.turn.2]
  cases hp : s.ctl.phase <;>
    simp only [State.fetchEngine, h.turn.1, h.notCancelled, ne_eq, not_true_eq_false, if_false, hp,
      Bool.false_eq_true]

/-- A cancelled decode ends at its next block boundary (45_decoder.md R150). -/
theorem step_of_cancelled {s : State} (hu : s.unit = .parser) (ht : s.EngineTurn)
    (hc : s.ctl.cancel = true) :
    step s = .next (State.raise .cancelled { s with hostq := s.hostq.tail }) := by
  rw [step_of_engine (fun _ => hu) ht.2]
  simp only [State.fetchEngine, ht.1, hc, ne_eq, not_true_eq_false, if_false, if_true,
    Fetched.outcome]

/-- Outside BUSY the engine's turn does nothing (10_state.md R19; log 23). -/
theorem step_of_rest {s : State} (hr : s.ctl.run ≠ .busy) (hq : s.EngineNext) :
    step s = .next { s with hostq := s.hostq.tail } := by
  rw [step_of_engine (fun h => absurd h hr) hq]
  simp only [State.fetchEngine, hr, ne_eq, not_false_eq_true, if_true, Fetched.outcome]

/-- A hardware reset. -/
theorem step_of_hwReset {s : State} {q : List HostAction} (h : s.HostTurn .hwReset q) :
    step s = .next (State.hwReset { s with hostq := q }) := by
  have h' : ¬ (s.ctl.run = .busy ∧ s.unit ≠ .parser) := fun h' => h'.2 (h.boundary h'.1)
  simp only [step, State.fetch, if_neg h', h.next, Fetched.outcome]

/-- A host read. -/
theorem step_of_read {s : State} {win : Window} {addr n : Nat} {q : List HostAction}
    (h : s.HostTurn (.read win addr n) q) :
    step s = State.hostRead win addr n { s with hostq := q } := by
  have h' : ¬ (s.ctl.run = .busy ∧ s.unit ≠ .parser) := fun h' => h'.2 (h.boundary h'.1)
  simp only [step, State.fetch, if_neg h', h.next, Fetched.outcome]

/-- A host write that carries no command. -/
theorem step_of_write {s : State} {win : Window} {addr : Nat} {data : List Byte}
    {q : List HostAction} (h : s.HostTurn (.write win addr data) q)
    (hc : ctrlWordOf s.params win addr data = none) :
    step s = State.hostWrite win addr data { s with hostq := q } := by
  have h' : ¬ (s.ctl.run = .busy ∧ s.unit ≠ .parser) := fun h' => h'.2 (h.boundary h'.1)
  simp only [step, State.fetch, if_neg h', h.next, State.fetchWrite, hc,
    Fetched.outcome]

/-- A host write of a CTRL command. -/
theorem step_of_command {s : State} {win : Window} {addr : Nat} {data : List Byte}
    {q : List HostAction} {v : U32} {i : Instr} (h : s.HostTurn (.write win addr data) q)
    (hc : ctrlWordOf s.params win addr data = some v) (hi : decodeCtrl v = some i) :
    step s = exec i { s with hostq := q } := by
  have h' : ¬ (s.ctl.run = .busy ∧ s.unit ≠ .parser) := fun h' => h'.2 (h.boundary h'.1)
  simp only [step, State.fetch, if_neg h', h.next, State.fetchWrite, hc, hi,
    Fetched.outcome]

/-- A host write of a CTRL word with no command bit. -/
theorem step_of_noCommand {s : State} {win : Window} {addr : Nat} {data : List Byte}
    {q : List HostAction} {v : U32} (h : s.HostTurn (.write win addr data) q)
    (hc : ctrlWordOf s.params win addr data = some v) (hi : decodeCtrl v = none) :
    step s = State.hostWrite win addr data { s with hostq := q } := by
  have h' : ¬ (s.ctl.run = .busy ∧ s.unit ≠ .parser) := fun h' => h'.2 (h.boundary h'.1)
  simp only [step, State.fetch, if_neg h', h.next, State.fetchWrite, hc, hi,
    Fetched.outcome]

/-! ### The registers of a block cut short -/

/-- A header cut short leaves the screen size (60_exceptions.md R162; log 9). -/
@[simp] theorem Screen.cutHeader_size (bs : List Byte) (c : Screen) :
    (c.cutHeader bs).w = c.w ∧ (c.cutHeader bs).h = c.h := by
  unfold Screen.cutHeader; split <;> exact ⟨rfl, rfl⟩

/-- A header cut short before its packed byte writes no register (42_block_parser.md R115, R116). -/
theorem Screen.cutHeader_of_short {bs : List Byte} (h : bs.length ≤ 10) (c : Screen) :
    c.cutHeader bs = c := by
  simp [Screen.cutHeader, List.getElem?_eq_none h]

/-- A 16-bit field whose two bytes were read. -/
theorem u16At_of_bytes {bs : List Byte} {k : Nat} {b0 b1 : Byte} (h0 : bs[k]? = some b0)
    (h1 : bs[k + 1]? = some b1) (old : U16) : u16At bs k old = le16 b0 b1 := by
  simp [u16At, h0, h1]

/-- A 16-bit field the stream does not hold whole. -/
theorem u16At_of_short {bs : List Byte} {k : Nat} (h : bs.length ≤ k + 1) (old : U16) :
    u16At bs k old = old := by
  simp [u16At, List.getElem?_eq_none h]

/-- An image cut short writes no payload (42_block_parser.md R128). -/
@[simp] theorem Img.cutImage_payload (bs : List Byte) (m : Img) :
    (m.cutImage bs).payload = m.payload := by
  unfold Img.cutImage; split
  · rfl
  · dsimp only; split <;> rfl

/-- An image cut short leaves the global table (10_state.md R27). -/
@[simp] theorem Tables.cutImage_gct (bs : List Byte) (t : Tables) :
    (t.cutImage bs).gct = t.gct ∧ (t.cutImage bs).gctLen = t.gctLen := by
  unfold Tables.cutImage; split
  · exact ⟨rfl, rfl⟩
  · split <;> exact ⟨rfl, rfl⟩

/-! ### Host accesses -/

/-- Four bytes of a word read back as the word (20_memory.md R45). -/
theorem ofBytesLE_wordLE (v : U32) : ofBytesLE (wordLE v) = v := by
  simp only [wordLE, ofBytesLE]
  ext i hi
  simp only [BitVec.getElem_append, BitVec.getElem_extractLsb']
  split
  · simp [BitVec.getLsbD_eq_getElem hi]
  · split
    · rw [BitVec.getLsbD_eq_getElem (by omega)]; congr 1; omega
    · split
      · rw [BitVec.getLsbD_eq_getElem (by omega)]; congr 1; omega
      · rw [BitVec.getLsbD_eq_getElem (by omega)]; congr 1; omega

/-- The CTRL word of a well-formed write at CTRL. -/
theorem ctrlWordOf_ctrl {p : Params} {data : List Byte} (h : data.length = 4) :
    ctrlWordOf p .csr p.csrBase data = some (ofBytesLE data) := by
  simp [ctrlWordOf, csrForm, h, Params.base]

/-- A write anywhere but at CTRL carries no CTRL word. -/
theorem ctrlWordOf_other {p : Params} {win : Window} {addr : Nat} {data : List Byte}
    (h : win ≠ .csr ∨ addr ≠ p.csrBase ∨ data.length ≠ 4) :
    ctrlWordOf p win addr data = none := by
  unfold ctrlWordOf
  apply if_neg
  rintro ⟨h1, h2, h3⟩
  have h2 := (of_decide_eq_true h2).1
  rcases h with h | h | h
  · exact h h1
  · exact h h3
  · exact h h2

end Sys2Proof.Machine
end

