-- ==== Sys2Proof/Tests/Slice0.lean ====
section
/-!
SUPPORT. Tests of the model on fixed values, each expected result from the spec, and for each statement
with hypotheses a witness that meets them.
-/

namespace Sys2Proof.Tests

open Sys2Proof Sys2Proof.Machine

/-! ### WellFormed refuses (30_encoding.md R64 to R84) -/

/-- A HEADER of 1 × 1 with a table of two entries. -/
def hdr : HeaderOp where
  version := [0x38, 0x39, 0x61]
  width := 1
  height := 1
  gctFlag := true
  colorRes := 0
  sort := false
  gctSize := 0
  bgIndex := 0
  aspect := 0
  gct := [⟨0x00, 0x00, 0x00⟩, ⟨0xFF, 0xFF, 0xFF⟩]

/-- An IMAGE of 1 × 1: codes CLEAR (4), KNOWN (1), EOI (5), of 3 bits each, minimum code size 2. -/
def img : ImageOp where
  left := 0
  top := 0
  width := 1
  height := 1
  lctFlag := false
  interlace := false
  sort := false
  rsvd := 0
  lctSize := 0
  lct := []
  minCode := 2
  data := [[0x4C, 0x01]]

def app : AppOp where
  size := 11
  id := [0x58, 0x4D, 0x50, 0x20, 0x44, 0x61, 0x74, 0x61]
  auth := [0x58, 0x4D, 0x50]
  data := [[0x41]]

def nets : NetscapeOp where
  size := 11
  auth := [0x32, 0x2E, 0x30]
  subSize := 3
  subId := 1
  loopCount := 5
  term := 0

def gce : GceOp where
  size := 4
  rsvd := 0
  disp := 2
  ui := false
  tf := true
  delay := 10
  ti := 3
  term := 0

theorem test_wf_good :
    [Instr.header hdr, .badSignature 0x47 0x49 0x44, .extGce gce, .extComment [[0x68]],
      .extPlaintext 12 (List.replicate 12 0) [], .extAppNetscape nets, .extApp app,
      .extUnknown 0xAA [[0x55]], .image img, .trailer, .illegalSentinel 0x00, .lzwClear 4, .lzwEoi 5,
      .lzwKnown 0, .lzwKwkwk 6, .lzwInvalid 7, .dispose0, .dispose1, .dispose2, .dispose3,
      .disposeRsvd 4, .ctrlStart 0x1, .ctrlCancel 0x2, .ctrlIrqEn 0x4, .ctrlIrqAck 0x8].all
      WellFormed = true := by decide

theorem test_wf_headerVersion : WellFormed (.header { hdr with version := [0x38] }) = false := by
  decide

theorem test_wf_headerTable : WellFormed (.header { hdr with gctSize := 1 }) = false := by decide

theorem test_wf_headerNoTable : WellFormed (.header { hdr with gctFlag := false }) = false := by
  decide

theorem test_wf_signature : WellFormed (.badSignature 0x47 0x49 0x46) = false := by decide

theorem test_wf_chainEmptyBlock : WellFormed (.extComment [[]]) = false := by decide

theorem test_wf_chainLongBlock : WellFormed (.extComment [List.replicate 256 0]) = false := by
  decide +kernel

theorem test_wf_plaintextHeader : WellFormed (.extPlaintext 12 [0] []) = false := by decide

theorem test_wf_netscapeAuth : WellFormed (.extAppNetscape { nets with auth := [] }) = false := by
  decide

theorem test_wf_appIdLength : WellFormed (.extApp { app with id := [0x58] }) = false := by decide

theorem test_wf_appIdNetscape : WellFormed (.extApp { app with id := netscapeId }) = false := by
  decide

theorem test_wf_appAuth : WellFormed (.extApp { app with auth := [] }) = false := by decide

theorem test_wf_appChain : WellFormed (.extApp { app with data := [[]] }) = false := by decide

theorem test_wf_unknownLabel :
    [0xF9, 0xFE, 0x01, 0xFF].all (fun l => !WellFormed (.extUnknown l [])) = true := by decide

theorem test_wf_imageTable : WellFormed (.image { img with lctFlag := true }) = false := by decide

theorem test_wf_imageChain : WellFormed (.image { img with data := [[]] }) = false := by decide

theorem test_wf_sentinel :
    [0x21, 0x2C, 0x3B].all (fun b => !WellFormed (.illegalSentinel b)) = true := by decide

theorem test_wf_codes :
    [Instr.lzwClear 1, .lzwClear 5, .lzwEoi 4, .lzwKwkwk 3, .lzwInvalid 3].all
      (fun i => !WellFormed i) = true := by decide

theorem test_wf_disposal : WellFormed (.disposeRsvd 3) = false := by decide

theorem test_wf_ctrl :
    [Instr.ctrlStart 0x2, .ctrlCancel 0x3, .ctrlCancel 0x4, .ctrlIrqEn 0x6, .ctrlIrqEn 0x8,
      .ctrlIrqAck 0xC, .ctrlIrqAck 0x0].all (fun i => !WellFormed i) = true := by decide

/-! ### Decoding: words written out from the formats of 30_encoding.md -/

/-- R64, R65: packed byte 0x80 is the table flag with size field 0. -/
theorem test_decode_header :
    decodeHeader
      [0x47, 0x49, 0x46, 0x38, 0x39, 0x61, 0x01, 0x00, 0x01, 0x00, 0x80, 0x00, 0x00, 0x00, 0x00, 0x00,
        0xFF, 0xFF, 0xFF, 0x3B] = .ok (.header hdr, [0x3B]) := by decide

/-- R65: p = 0xF9 is flag 1, color_res 7, sort 1, size 1; 0x0102 little-endian is 02 01. -/
theorem test_decode_headerPacked :
    decodeHeader
      ([0x47, 0x49, 0x46, 0x38, 0x37, 0x61, 0x02, 0x01, 0x03, 0x00, 0xF9, 0x07, 0x31]
        ++ List.replicate 12 0x11) =
      .ok
        (.header
          { version := [0x38, 0x37, 0x61], width := 0x0102, height := 3, gctFlag := true,
            colorRes := 7, sort := true, gctSize := 1, bgIndex := 7, aspect := 0x31,
            gct := List.replicate 4 ⟨0x11, 0x11, 0x11⟩ }, []) := by decide

/-- R115: three other bytes. -/
theorem test_decode_badSignature :
    decodeHeader [0x89, 0x50, 0x4E, 0x47] = .ok (.badSignature 0x89 0x50 0x4E, [0x47]) := by decide

/-- R67, R68: g = 0xEE is reserved 7, disposal 3, user input 1, transparency 0. -/
theorem test_decode_gce :
    decodeBlock [0x21, 0xF9, 0x04, 0xEE, 0x34, 0x12, 0x05, 0x00] =
      .ok
        (.extGce
          { size := 4, rsvd := 7, disp := 3, ui := true, tf := false, delay := 0x1234, ti := 5,
            term := 0 }, []) := by decide

/-- R69. -/
theorem test_decode_comment :
    decodeBlock [0x21, 0xFE, 0x02, 0x68, 0x69, 0x01, 0x21, 0x00, 0x3B] =
      .ok (.extComment [[0x68, 0x69], [0x21]], [0x3B]) := by decide

/-- R70. -/
theorem test_decode_plaintext :
    decodeBlock ([0x21, 0x01, 0x0C] ++ List.replicate 12 0x07 ++ [0x01, 0x54, 0x00]) =
      .ok (.extPlaintext 12 (List.replicate 12 0x07) [[0x54]], []) := by decide

/-- R71, R72: the loop count 0x0005 is 05 00. -/
theorem test_decode_netscape :
    decodeBlock
      [0x21, 0xFF, 0x0B, 0x4E, 0x45, 0x54, 0x53, 0x43, 0x41, 0x50, 0x45, 0x32, 0x2E, 0x30, 0x03, 0x01,
        0x05, 0x00, 0x00] = .ok (.extAppNetscape nets, []) := by decide

/-- R71. -/
theorem test_decode_app :
    decodeBlock
      [0x21, 0xFF, 0x0B, 0x58, 0x4D, 0x50, 0x20, 0x44, 0x61, 0x74, 0x61, 0x58, 0x4D, 0x50, 0x01, 0x41,
        0x00] = .ok (.extApp app, []) := by decide

/-- R73. -/
theorem test_decode_unknown :
    decodeBlock [0x21, 0x02, 0x00] = .ok (.extUnknown 0x02 [], []) := by decide

/-- R74, R75: q = 0xF8 is flags 1 1 1, reserved 3, size 0, so a table of two entries follows. -/
theorem test_decode_image :
    decodeBlock
      [0x2C, 0x01, 0x00, 0x02, 0x00, 0x03, 0x00, 0x04, 0x00, 0xF8, 0x0A, 0x0B, 0x0C, 0x0D, 0x0E, 0x0F,
        0x02, 0x01, 0x4C, 0x00] =
      .ok
        (.image
          { left := 1, top := 2, width := 3, height := 4, lctFlag := true, interlace := true,
            sort := true, rsvd := 3, lctSize := 0, lct := [⟨0x0A, 0x0B, 0x0C⟩, ⟨0x0D, 0x0E, 0x0F⟩],
            minCode := 2, data := [[0x4C]] }, []) := by decide

/-- R76, R80. -/
theorem test_decode_sentinels :
    decodeBlock [0x3B] = .ok (.trailer, []) ∧
      decodeBlock [0x00, 0x21] = .ok (.illegalSentinel 0x00, [0x21]) := by decide

/-- R82 at m = 2 right after a clear code (6 entries), and with a previous data code. -/
theorem test_decode_codes :
    decodeCode ⟨4, 5, 6, none⟩ 4 = .lzwClear 4 ∧ decodeCode ⟨4, 5, 6, none⟩ 5 = .lzwEoi 5 ∧
      decodeCode ⟨4, 5, 6, none⟩ 3 = .lzwKnown 3 ∧ decodeCode ⟨4, 5, 6, none⟩ 6 = .lzwInvalid 6 ∧
      decodeCode ⟨4, 5, 6, some 1⟩ 6 = .lzwKwkwk 6 ∧
      decodeCode ⟨4, 5, 6, some 1⟩ 7 = .lzwInvalid 7 := by decide

/-- R83. -/
theorem test_decode_disposals :
    [0, 1, 2, 3, 4, 7].map decodeDisposal =
      [.dispose0, .dispose1, .dispose2, .dispose3, .disposeRsvd 4, .disposeRsvd 7] := by decide

/-- R84. -/
theorem test_decode_ctrl :
    [0x1, 0x2, 0x4, 0x8, 0x0, 0x10].map decodeCtrl =
      [some (.ctrlStart 0x1), some (.ctrlCancel 0x2), some (.ctrlIrqEn 0x4), some (.ctrlIrqAck 0x8),
        none, none] := by decide

/-- R89: a block that ends early, by the read that fails. -/
theorem test_decode_short :
    decodeBlock [] = .error ⟨1, 0⟩ ∧ decodeBlock [0x2C, 0x00] = .error ⟨2, 1⟩ ∧
      decodeBlock [0x21, 0xFE, 0x02, 0x68] = .error ⟨2, 1⟩ ∧
      decodeHeader [0x47, 0x49] = .error ⟨3, 2⟩ := by decide

/-! ### One step of each instruction -/

/-- A block boundary of a decode on a 2 × 2 screen with a table of two entries, at cursor 13. -/
def small : State :=
  { State.reset with
    ctl := { run := .busy, phase := .atBlock, cancel := false, irqEn := false, irqPend := false }
    cur := { inLen := 40, inLenL := 40, blkStart := 13, pos := 20 }
    scr := { Screen.zero with w := 2, h := 2, gctFlag := true }
    tabs := { Tables.absent with gct := hdr.gct, gctLen := 2 }
    comp := { Comp.start with canvas := blankCanvas 4 } }

/-- What a step leaves, or the state itself where it stops. -/
def after (i : Instr) (s : State) : State :=
  match exec i s with
  | .next t => t
  | .fault _ => s
  | .refused _ => s

def white : Pixel := ⟨0xFF, 0xFF, 0xFF, 0xFF⟩

/-- R116, R117. -/
theorem test_header :
    (after (.header { hdr with width := 3, height := 2 }) small).scr.w = 3 ∧
      (after (.header { hdr with width := 3, height := 2 }) small).comp.canvas.length = 6 := by decide

/-- R115, R160: "GID" is code 1, ERRINFO 0x00444947, ERRPOS 0. -/
theorem test_badSignature :
    (after (.badSignature 0x47 0x49 0x44) small).err = { code := 1, info := 0x00444947, pos := 0 } := by
  decide

/-- R121, R157: the record of a block of 7 bytes at offset 13. -/
theorem test_gce :
    (after (.extGce gce) small).gce.delay = 10 ∧
      (after (.extGce gce) small).outp.events =
        [{ kind := 2, label := 0xF9, off := 13, len := 7, dataOff := 0, dataLen := 0 }] := by decide

/-- R123: data from the byte after the label. -/
theorem test_comment :
    (after (.extComment [[0x68, 0x69], [0x21]]) small).outp.events =
      [{ kind := 3, label := 0xFE, off := 13, len := 7, dataOff := 15, dataLen := 3 }] := by decide

/-- R124: data after size and header bytes. -/
theorem test_plaintext :
    (after (.extPlaintext 12 [] [[0x54]]) small).outp.events =
      [{ kind := 4, label := 0x01, off := 13, len := 7, dataOff := 28, dataLen := 1 }] := by decide

/-- R125: data after size, identifier and authentication code. -/
theorem test_app :
    (after (.extApp app) small).outp.events =
      [{ kind := 5, label := 0xFF, off := 13, len := 7, dataOff := 27, dataLen := 1 }] := by decide

/-- R126. -/
theorem test_netscape :
    (after (.extAppNetscape nets) small).outp.loopCount = 5 ∧
      (after (.extAppNetscape nets) small).outp.loopValid = true := by decide

/-- R127. -/
theorem test_unknown :
    (after (.extUnknown 0xAA [[0x55]]) small).outp.events =
      [{ kind := 7, label := 0xAA, off := 13, len := 7, dataOff := 15, dataLen := 1 }] := by decide

/-- R128, R144, R145: index 1 painted at (0, 0), the frame delivered. -/
theorem test_image :
    (after (.image img) small).outp.frames = [white :: blankCanvas 3] ∧
      (after (.image img) small).comp.frameCount = 1 := by decide

/-- R129, R160: minimum code size 0 is code 7. -/
theorem test_image_minCode :
    (after (.image { img with minCode := 0 }) small).err = { code := 7, info := 0, pos := 13 } := by
  decide

/-- R130, R155. -/
theorem test_trailer :
    (after .trailer small).ctl.run = .done ∧ (after .trailer small).ctl.irqPend = true := by decide

/-- R119. -/
theorem test_illegalSentinel :
    (after (.illegalSentinel 0x99) small).err = { code := 3, info := 0x99, pos := 13 } := by decide

/-- An image of 4 pixels with minimum code size 2 in the LZW loop: previous code 1, entry 6 = [1, 2]. -/
def looping : State :=
  { small with
    img := { State.reset.img with w := 4, h := 1, minCode := 2 }
    lz :=
      { clearCode := 4, eoiCode := 5, codeWidth := 3, prev := some 1, bitPos := 9, dictLen := 7,
        out := [1], dict := freshDict 4 ++ [.seq [1, 2]] }
    unit := .lzw }

/-- R102: the dictionary is back to 6 entries. -/
theorem test_lzwClear :
    (after (.lzwClear 4) looping).lz.dictLen = 6 ∧ (after (.lzwClear 4) looping).lz.prev = none := by
  decide

/-- R111: 1 index decoded, 4 wanted. -/
theorem test_lzwEoi :
    (after (.lzwEoi 5) looping).err = { code := 8, info := 1, pos := 13 } := by decide

/-- R104, R108: entry 7 = [1] ++ [2]; 8 entries are 2^3, so the width grows. -/
theorem test_lzwKnown :
    (after (.lzwKnown 2) looping).lz.dict[7]? = some (.seq [1, 2]) ∧
      (after (.lzwKnown 2) looping).lz.codeWidth = 4 := by decide

/-- R105: entry 7 = [1] ++ [1], emitted. -/
theorem test_lzwKwkwk :
    (after (.lzwKwkwk 7) looping).lz.dict[7]? = some (.seq [1, 1]) ∧
      (after (.lzwKwkwk 7) looping).lz.out = [1, 1, 1] := by decide

/-- R106. -/
theorem test_lzwInvalid :
    (after (.lzwInvalid 9) looping).err = { code := 4, info := 9, pos := 13 } := by decide

/-- A white canvas, one black frame delivered, the previous image at (1, 1) of 5 × 1. -/
def disposing : State :=
  { small with
    comp :=
      { canvas := List.replicate 4 white, frameCount := 1, lastDisp := 2, restoreFrom := some 0,
        prevLeft := 1, prevTop := 1, prevW := 5, prevH := 1 }
    outp := { Output.start with frames := [List.replicate 4 ⟨0, 0, 0, 0xFF⟩], delays := [7] } }

/-- R137, R140. -/
theorem test_dispose0 : after .dispose0 disposing = disposing := by rfl
theorem test_dispose1 : after .dispose1 disposing = disposing := by rfl
theorem test_disposeRsvd : after (.disposeRsvd 5) disposing = disposing := by rfl

/-- R138, R52: the rectangle is clipped to the canvas. -/
theorem test_dispose2 :
    (after .dispose2 disposing).comp.canvas = [white, white, white, transparentPixel] := by decide

/-- R139: from frame 0. -/
theorem test_dispose3 :
    (after .dispose3 disposing).comp.canvas = [white, white, white, ⟨0, 0, 0, 0xFF⟩] := by decide

/-- R149. -/
theorem test_ctrlStart :
    (after (.ctrlStart 0x5) State.reset).ctl =
      { run := .busy, phase := .atHeader, cancel := false, irqEn := true, irqPend := false } := by
  decide

/-- R150: while BUSY nothing but the bits changes. -/
theorem test_ctrlCancel : (after (.ctrlCancel 0x2) small).ctl.cancel = true := by decide

/-- R151. -/
theorem test_ctrlIrqEn : (after (.ctrlIrqEn 0x4) small).ctl.irqEn = true := by decide

/-- R151: acknowledging leaves IRQ_EN to bit 2, here 0. -/
theorem test_ctrlIrqAck :
    (after (.ctrlIrqAck 0x8) { small with ctl := { small.ctl with irqPend := true, irqEn := true } }).ctl
      = small.ctl := by decide

/-! ### Opcode-table words (log 13, log 14) -/

theorem test_word_gce : decodeTableWord 16 0x21F9 = some (.extGce
    { size := 0, rsvd := 0, disp := 0, ui := false, tf := false, delay := 0, ti := 0, term := 0 }) := by
  decide

theorem test_word_trailer :
    (match step (State.reset.withFetchWord 8 0x3B) with
      | .next t => decide (t.ctl.run = .done)
      | .fault _ => false
      | .refused _ => false) = true := by decide

/-- R132: an image of 10 rows. -/
theorem test_rowOrder : rowOrder 10 = [0, 8, 4, 2, 6, 1, 3, 5, 7, 9] := by decide

/-! ### Witnesses: encoding -/

/-- DecodingAnEncodedInstructionGivesItBack: each kind of encoding. -/
theorem wit_decodeEncoded :
    (WellFormed (.header hdr) = true ∧ encode (.header hdr) = .bytes (headerBytes hdr)) ∧
      (WellFormed (.lzwEoi 2049) = true ∧ encode (.lzwEoi 2049) = .code 2049) ∧
      (WellFormed (.disposeRsvd 7) = true ∧ encode (.disposeRsvd 7) = .disposal 7) ∧
      (WellFormed (.ctrlIrqAck 0xFFFFFFF8) = true ∧
        encode (.ctrlIrqAck 0xFFFFFFF8) = .word 0xFFFFFFF8) := by decide

/-- EncodingADecodedBlockGivesItsBytes. -/
theorem wit_encodeDecoded :
    decodeHeader [0x47, 0x49, 0x44] = .ok (.badSignature 0x47 0x49 0x44, []) ∧
      decodeBlock [0x3B] = .ok (.trailer, []) := by decide

/-- ReadsReturnAllTheirBytesOrFail: the whole input, and one byte too many. -/
theorem wit_reads : 2 ≤ [0x01#8, 0x02#8].length ∧ [0x01#8, 0x02#8].length < 3 := by decide

/-- APackedCodeIsReadBack: the widest code at the end of the bits. -/
theorem wit_packedCode :
    (12 : Nat) ≤ 12 ∧ (0xFFF : Code).toNat < 2 ^ 12 ∧
      ([true] ++ codeBits 0xFFF 12 ++ []).length ≤ 13 := by decide

/-- A stream of `bs` at the cursor, in phase `p`. -/
def atStream (p : Phase) (bs : List Byte) : State := State.reset.placeStream p bs

theorem at_boundary (p : Phase) (bs : List Byte) : (atStream p bs).AtBoundary :=
  ⟨⟨rfl, .inl rfl⟩, rfl, rfl⟩

/-- A state in which the host gives the engine its turn and then reads STATUS (R177). -/
def turning (s : State) : State := { s with hostq := [.engineTurn, .read .csr 4 4] }

theorem turning_boundary (p : Phase) (bs : List Byte) : (turning (atStream p bs)).AtBoundary :=
  ⟨⟨rfl, .inr ⟨_, rfl⟩⟩, rfl, rfl⟩

/-- ACutShortBlockIsEndOfStream: a header cut in its signature, a block cut before its first byte; and
the same with the host acting again after the step. -/
theorem wit_cutShort :
    ((turning (atStream .atBlock [])).AtBoundary ∧ (turning (atStream .atBlock [])).ctl.phase = .atBlock ∧
      decodeBlock (turning (atStream .atBlock [])).streamRest = .error ⟨1, 0⟩) ∧
    ((atStream .atHeader [0x47, 0x49]).AtBoundary ∧ (atStream .atHeader [0x47, 0x49]).ctl.phase = .atHeader ∧
      decodeHeader (atStream .atHeader [0x47, 0x49]).streamRest = .error ⟨3, 2⟩) ∧
    ((atStream .atBlock []).AtBoundary ∧ (atStream .atBlock []).ctl.phase = .atBlock ∧
      decodeBlock (atStream .atBlock []).streamRest = .error ⟨1, 0⟩) :=
  ⟨⟨turning_boundary _ _, by decide, by decide⟩, ⟨at_boundary _ _, by decide, by decide⟩, at_boundary _ _, by decide, by decide⟩

/-- A header of a 1 × 1 screen up to its packed byte 0x91, background index 7 and aspect 0x31. -/
def headerStart : List Byte :=
  [0x47, 0x49, 0x46, 0x38, 0x39, 0x61, 0x01, 0, 0x01, 0, 0x91, 0x07, 0x31]

/-- ACutShortBlockKeepsWhatItRead, header: cut before the packed byte, after it, and in the table. -/
theorem wit_cutHeader :
    decodeHeader (atStream .atHeader (headerStart.take 10)).streamRest = .error ⟨1, 0⟩ ∧
      (atStream .atHeader (headerStart.take 10)).streamRest.length ≤ 10 ∧
      decodeHeader (atStream .atHeader (headerStart.take 11)).streamRest = .error ⟨1, 0⟩ ∧
      (atStream .atHeader (headerStart.take 11)).streamRest[10]? = some 0x91 ∧
      decodeHeader (atStream .atHeader headerStart).streamRest = .error ⟨12, 0⟩ ∧
      (atStream .atHeader headerStart).streamRest[12]? = some 0x31 := by decide

/-- An image descriptor of flags byte 0xA0, a table of two entries, and a minimum code size of 5. -/
def imageStart : List Byte :=
  [0x2C, 0x02, 0x01, 0, 0, 0x01, 0, 0x01, 0, 0xA0, 0x10, 0x20, 0x30, 0x40, 0x50, 0x60, 0x05]

/-- ACutShortBlockKeepsWhatItRead, image: cut in a field, before the flags, in the table, after the
table, and in the chain of an image without a table. -/
theorem wit_cutImage :
    decodeBlock (imageStart.take 2) = .error ⟨2, 1⟩ ∧ (imageStart.take 2).head? = some 0x2C ∧
      (imageStart.take 2).length ≤ 1 + 1 ∧
      decodeBlock (imageStart.take 9) = .error ⟨1, 0⟩ ∧ (imageStart.take 9).length ≤ 9 ∧
      (imageStart.take 9)[8]? = some 0 ∧
      decodeBlock (imageStart.take 15) = .error ⟨6, 5⟩ ∧ (0xA0 : Byte).getLsbD 7 = true ∧
      15 < 10 + 3 * 2 ^ (((0xA0 : Byte).extractLsb' 0 3).toNat + 1) ∧
      decodeBlock (imageStart.take 16) = .error ⟨1, 0⟩ ∧ (imageStart.take 16).length = 16 ∧
      10 + 3 * 2 ^ (((0xA0 : Byte).extractLsb' 0 3).toNat + 1) ≤ 16 ∧
      decodeBlock (imageStart.take 9 ++ [0x20, 0x05]) = .error ⟨1, 0⟩ ∧
      (0x20 : Byte).getLsbD 7 = false := by decide

/-! ### Witnesses: LZW -/

/-- The LZW registers of an image with minimum code size 1 after `n` entries [0] were appended. -/
def filled (n : Nat) (width : BitVec 4) (prev : Option Code) (out : List Sym) : Lzw where
  clearCode := 2
  eoiCode := 3
  codeWidth := width
  prev := prev
  bitPos := 0
  dictLen := BitVec.ofNat 13 (n + 4)
  out := out
  dict := [Slot.seq [0], Slot.seq [1], Slot.seq [], Slot.sentinel] ++ List.replicate n (Slot.seq [0])

theorem filled_inv {n : Nat} {width : BitVec 4} {prev : Option Code} {out : List Sym}
    (hn : n ≤ 4092) (hw : 2 ≤ width.toNat ∧ width.toNat ≤ 12) (hl : n + 4 ≤ 2 ^ width.toNat)
    (hr : prev ≠ none → n + 4 < 2 ^ width.toNat ∨ width.toNat = 12)
    (ho : ∀ v ∈ out, v.toNat < 2) (hp : ∀ p, prev = some p → p.toNat < 2) :
    (filled n width prev out).Inv 1 := by
  have hd : (BitVec.ofNat 13 (n + 4)).toNat = n + 4 := by
    rw [BitVec.toNat_ofNat]
    omega
  have hdl : (filled n width prev out).dictLen.toNat = n + 4 := hd
  have hdict : (filled n width prev out).dict.length = n + 4 := by
    show ([Slot.seq [0], .seq [1], .seq [], .sentinel] ++ List.replicate n (Slot.seq [0])).length = n + 4
    simp only [List.length_append, List.length_replicate, List.length_cons, List.length_nil]
    omega
  constructor
  · decide
  · rfl
  · rfl
  · exact hw.1
  · exact hw.2
  · rw [hdl]
    show 2 + 2 ≤ n + 4
    omega
  · rw [hdl]
    exact hl
  · rw [hdl]
    exact hr
  · rw [hdict, hdl]
  · rfl
  · rfl
  · rintro c ⟨h1, h2, h3⟩
    rw [hdl] at h1
    have h2' : c.toNat ≠ 2 := fun h => h2 (BitVec.eq_of_toNat_eq h)
    have h3' : c.toNat ≠ 3 := fun h => h3 (BitVec.eq_of_toNat_eq h)
    show ∃ xs, ([Slot.seq [0], .seq [1], .seq [], .sentinel] ++ List.replicate n (Slot.seq [0]))[c.toNat]?
      = some (.seq xs) ∧ xs ≠ []
    rcases Nat.lt_or_ge c.toNat 4 with h | h
    · have h4 : c.toNat = 0 ∨ c.toNat = 1 := by omega
      rcases h4 with h4 | h4 <;> rw [h4]
      · exact ⟨[0], rfl, by simp⟩
      · exact ⟨[1], rfl, by simp⟩
    · refine ⟨[0], ?_, by simp⟩
      rw [List.getElem?_append_right h, List.getElem?_replicate, if_pos]
      simp only [List.length_cons, List.length_nil]
      omega
  · intro xs hx v hv
    change Slot.seq xs ∈ [Slot.seq [0], .seq [1], .seq [], .sentinel] ++ List.replicate n (Slot.seq [0])
      at hx
    show v.toNat < 2
    have h' : xs = [0] ∨ xs = [1] ∨ xs = [] := by
      rcases List.mem_append.1 hx with h | h
      · simpa using h
      · have := List.eq_of_mem_replicate h
        simp only [Slot.seq.injEq] at this
        exact .inl this
    rcases h' with rfl | rfl | rfl
    · simp only [List.mem_singleton] at hv
      subst hv
      decide
    · simp only [List.mem_singleton] at hv
      subst hv
      decide
    · cases hv
  · exact ho
  · intro p h
    have h' := hp p h
    refine ⟨?_, ?_, ?_⟩
    · rw [hdl]
      omega
    · intro h2
      have h2' : p.toNat = 2 := congrArg BitVec.toNat h2
      omega
    · intro h3
      have h3' : p.toNat = 3 := congrArg BitVec.toNat h3
      omega

/-- An image of `w` × 1 with minimum code size 1 and those registers. -/
def filling (w : U16) (payload : List Byte) (l : Lzw) : State :=
  { small with
    img := { State.reset.img with w := w, h := 1, minCode := 1, payload := payload }
    lz := l
    unit := .lzw }

theorem filling_inv {w : U16} {payload : List Byte} {l : Lzw} (h : l.Inv 1)
    (hf : l.out.length ≤ w.toNat) : (filling w payload l).LzwInv where
  lzw := h
  outFits := by
    show l.out.length ≤ w.toNat * 1
    omega

/-- Right after a clear code; with a previous code; with a full dictionary. -/
theorem fresh_inv : (filled 0 2 none []).Inv 1 :=
  filled_inv (by omega) (by decide) (by decide) (by simp) (by simp) (by simp)

theorem learning_inv : (filled 1 3 (some 1) [1]).Inv 1 :=
  filled_inv (by omega) (by decide) (by decide) (by decide) (by decide)
    (by rintro p h; cases h; decide)

theorem full_inv : (filled 4092 12 (some 1) [1]).Inv 1 :=
  filled_inv (by omega) (by decide) (by decide) (by decide) (by decide)
    (by rintro p h; cases h; decide)

/-- EoiCodeChecksThePixelCount: the count met, and not met. -/
theorem wit_eoi :
    (filling 1 [] (filled 1 3 (some 1) [1])).lz.out.length =
        (filling 1 [] (filled 1 3 (some 1) [1])).img.pixels ∧
      (filling 2 [] (filled 1 3 (some 1) [1])).lz.out.length ≠
        (filling 2 [] (filled 1 3 (some 1) [1])).img.pixels := by decide

/-- KnownCodeEmitsAndAppends: no previous code, the last free place with 2 pixels of 2, and a full
dictionary. -/
theorem wit_known :
    ((filling 1 [] (filled 0 2 none [])).LzwInv ∧ (filled 0 2 none []).IsDataCode 1 ∧
      (filled 0 2 none []).dict[(1 : Code).toNat]? = some (.seq [1])) ∧
    ((filling 2 [] (filled 1 3 (some 1) [1])).LzwInv ∧ (filled 1 3 (some 1) [1]).IsDataCode 4 ∧
      (filled 1 3 (some 1) [1]).dict[(4 : Code).toNat]? = some (.seq [0]) ∧
      (filled 1 3 (some 1) [1]).prev = some 1) ∧
    ((filling 2 [] (filled 4092 12 (some 1) [1])).LzwInv ∧
      (filled 4092 12 (some 1) [1]).IsDataCode 0 ∧
      (filled 4092 12 (some 1) [1]).dict[(0 : Code).toNat]? = some (.seq [0]) ∧
      (filled 4092 12 (some 1) [1]).dictLen.toNat = 4096) :=
  ⟨⟨filling_inv fresh_inv (by decide), ⟨by decide, by decide, by decide⟩, rfl⟩,
    ⟨filling_inv learning_inv (by decide), ⟨by decide, by decide, by decide⟩, rfl, rfl⟩,
    ⟨filling_inv full_inv (by decide), ⟨by decide, by decide, by decide⟩, rfl, by decide⟩⟩

/-- KwkwkCodeRebuildsTheEntry: exactly 3 pixels of 3. -/
theorem wit_kwkwk :
    (filling 3 [] (filled 1 3 (some 1) [1])).LzwInv ∧ (filled 1 3 (some 1) [1]).prev = some 1 ∧
      (5 : Code).toNat = (filled 1 3 (some 1) [1]).dictLen.toNat ∧
      (filled 1 3 (some 1) [1]).dict[(1 : Code).toNat]? = some (.seq [1]) ∧
      (filled 1 3 (some 1) [1]).out.length + ([(1 : Sym)].length + 1) ≤
        (filling 3 [] (filled 1 3 (some 1) [1])).img.pixels :=
  ⟨filling_inv learning_inv (by decide), rfl, by decide, rfl, by decide⟩

/-- OverlongOutputIsReported: one pixel too many, for each class. -/
theorem wit_overlong :
    (filling 1 [] (filled 1 3 (some 1) [1])).LzwInv ∧ (filled 1 3 (some 1) [1]).IsDataCode 1 ∧
      (filled 1 3 (some 1) [1]).dict[(1 : Code).toNat]? = some (.seq [1]) ∧
      (filling 1 [] (filled 1 3 (some 1) [1])).img.pixels < 1 + [(1 : Sym)].length ∧
      (filled 1 3 (some 1) [1]).prev = some 1 ∧
      (filling 1 [] (filled 1 3 (some 1) [1])).img.pixels < 1 + ([(1 : Sym)].length + 1) :=
  ⟨filling_inv learning_inv (by decide), ⟨by decide, by decide, by decide⟩, rfl, by decide, rfl,
    by decide⟩

/-- EveryImageStartsTheLzwInvariant: the smallest and the largest minimum code size. -/
theorem wit_imageStart :
    img.width.toNat * img.height.toNat ≤ small.params.maxImagePixels ∧ 1 ≤ (1 : Byte).toNat ∧
      (11 : Byte).toNat ≤ 11 ∧ minCodeOk 1 = true ∧ minCodeOk 11 = true ∧ minCodeOk 0 = false ∧
      minCodeOk 12 = false := by decide

/-- EveryCodeKeepsTheLzwInvariant and LzwReadsOnlyItsOwnInputs: the code 1, of 2 bits. -/
theorem wit_codeStep :
    (filling 1 [0x01] (filled 0 2 none [])).LzwInv ∧
      (filling 1 [0x01] (filled 0 2 none [])).ctl.run = .busy ∧
      (filling 1 [0x01] (filled 0 2 none [])).unit = .lzw ∧
      ∃ t, step (filling 1 [0x01] (filled 0 2 none [])) = .next t ∧ t.unit = .lzw :=
  ⟨filling_inv fresh_inv (by decide), rfl, rfl,
    ⟨_, step_lzw (s := filling 1 [0x01] (filled 0 2 none [])) rfl rfl, by decide⟩⟩

/-- LzwReadsOnlyItsOwnInputs: a second state that differs in the screen and the pending GCE. -/
theorem wit_codeInputs :
    let s := filling 1 [0x01] (filled 0 2 none [])
    let s' : State := { s with scr := Screen.zero, gce := { s.gce with valid := true } }
    s' ≠ s ∧ s'.ctl.run = .busy ∧ s'.unit = .lzw ∧ s'.lz = s.lz ∧ s'.img.minCode = s.img.minCode ∧
      s'.img.payload = s.img.payload ∧ s'.img.pixels = s.img.pixels ∧ s'.draws = s.draws := by
  refine ⟨fun h => ?_, rfl, rfl, rfl, rfl, rfl, rfl, rfl⟩
  exact absurd (congrArg (fun s => s.gce.valid) h) (by decide)

/-- PayloadThatEndsBeforeEoiIsReported: one bit too few for a code of 9 bits. -/
theorem wit_payloadEnd :
    let s := filling 1 [0x01] (filled 252 9 none [])
    s.ctl.run = .busy ∧ s.unit = .lzw ∧
      8 * s.img.payload.length < s.lz.bitPos.toNat + s.lz.codeWidth.toNat := by decide

/-- LzwDecodeEndsWithinItsPayload: an empty payload and its one code read. -/
theorem wit_lzwEnds :
    1 ≤ (1 : Byte).toNat ∧ (1 : Byte).toNat ≤ 11 ∧ ([] : List Byte).length < 2 ^ 32 ∧ 4 * ([] : List Byte).length + 1 ≤ 1 := by
  decide

/-- LiteralCodesDecodeToTheirPixels. -/
theorem wit_literal :
    1 ≤ (11 : Byte).toNat ∧ (11 : Byte).toNat ≤ 11 ∧ (∀ v ∈ [(0 : Sym), 1], v.toNat < 2 ^ (11 : Byte).toNat) ∧
      [(0 : Sym), 1].length ≤ 2 ^ 31 := by decide

/-! ### Witnesses: images -/

/-- TheImageStepIsOnePass and AnImageDeliversItsFrame: the first image of a decode, with the global
table. -/
theorem wit_firstImage :
    (img.data.flatten.length < 2 ^ 32 ∧
      img.width.toNat * img.height.toNat ≤ small.params.maxImagePixels ∧
      lzwDecode small.draws img.minCode img.data.flatten (img.width.toNat * img.height.toNat) =
        .ok [1] ∧ small.comp.frameCount.toNat < small.params.maxFrames) ∧
      small.ActiveTable img hdr.gct 2 ∧
      small.PaintsTo img [1] hdr.gct 2 (.ok (white :: blankCanvas 3)) :=
  ⟨by decide, .inr (by decide), small.comp.canvas, .inl ⟨rfl, rfl⟩, by decide⟩

/-- AnImageDeliversItsFrame: an image after a disposal, with a local table. -/
theorem wit_nextImage :
    (disposing.comp.frameCount ≠ 0 ∧
      disposing.comp.frameCount.toNat < disposing.params.maxFrames) ∧
      disposing.ActiveTable { img with lctFlag := true, lct := hdr.gct } hdr.gct 2 ∧
      disposing.PaintsTo { img with lctFlag := true, lct := hdr.gct } [1] hdr.gct 2
        (.ok [white, white, white, transparentPixel]) :=
  ⟨by decide, .inl ⟨rfl, rfl, by decide⟩, _, .inr ⟨by decide, _, rfl, rfl⟩, by decide⟩

/-- ImageErrorsComeInOrder: a size one above the capacity, and the two ends of the accepted codes. -/
theorem wit_imageErrors1 :
    ({ small with params := { small.params with maxImagePixels := 0 } } : State).params.maxImagePixels <
        img.width.toNat * img.height.toNat ∧
      (({ img with minCode := 0 } : ImageOp).minCode.toNat < 1 ∧
        11 < ({ img with minCode := 12 } : ImageOp).minCode.toNat) ∧
      lzwDecode small.draws img.minCode [] 1 = .error (.endOfPayload 0) ∧
      lzwDecode small.draws 12 [] 1 = .error (.invalidMinCodeSize 12) := by decide

/-- ImageErrorsComeInOrder: no table, an index equal to the table length, and a full frame store. -/
theorem wit_imageErrors2 :
    (img.lctFlag = false ∧
      ({ small with scr := { small.scr with gctFlag := false } } : State).scr.gctFlag = false ∧
      ({ small with params := { small.params with maxFrames := 0 } } : State).params.maxFrames ≤
        small.comp.frameCount.toNat) ∧
      small.PaintsTo img [2] hdr.gct 2 (.error 2) :=
  ⟨by decide, small.comp.canvas, .inl ⟨rfl, rfl⟩, by decide⟩

/-- DeinterlaceMovesRowsWhole: nine rows of one. -/
theorem wit_deinterlace : (List.replicate 9 (1 : Sym)).length = 1 * 9 := by decide

/-- Disposal2ClearsThePreviousRectangle and Disposal3RestoresThePreviousRectangle: the last pixel. -/
theorem wit_disposal :
    1 < disposing.scr.w.toNat ∧
      1 * disposing.scr.w.toNat + 1 < disposing.comp.canvas.length ∧
      disposing.comp.restoreFrom = some 0 ∧
      disposing.outp.frames[(0 : U32).toNat]? = some (List.replicate 4 ⟨0, 0, 0, 0xFF⟩) ∧
      (List.replicate 4 (⟨0, 0, 0, 0xFF⟩ : Pixel)).length = disposing.comp.canvas.length ∧
      small.comp.restoreFrom = none ∧ 1 < small.scr.w.toNat ∧
      1 * small.scr.w.toNat + 1 < small.comp.canvas.length := by decide

/-- PaintingSetsExactlyTheOpaquePixels: an image that reaches past the screen, with a transparent
index. -/
theorem wit_paint :
    let e : PaintEnv :=
      { table := hdr.gct, tableLen := 2, gce := { small.gce with valid := true, tf := true, ti := 0 },
        img := { small.img with left := 1, top := 1, w := 2, h := 1 }, scr := small.scr, draw := 0 }
    [(1 : Sym), 0].length = e.img.w.toNat * e.img.h.toNat ∧
      (blankCanvas 4).length = e.scr.w.toNat * e.scr.h.toNat ∧
      paintFrom e 0 [1, 0] (blankCanvas 4) = .ok (blankCanvas 3 ++ [white]) ∧
      1 < e.scr.w.toNat ∧ 1 < e.scr.h.toNat ∧
      ¬ (e.gce.valid = true ∧ e.gce.tf = true ∧ (1 : Sym).toNat = e.gce.ti.toNat) ∧
      (e.gce.valid = true ∧ e.gce.tf = true ∧ (0 : Sym).toNat = e.gce.ti.toNat) ∧
      e.table[(1 : Sym).toNat]? = some ⟨0xFF, 0xFF, 0xFF⟩ := by decide

/-! ### Witnesses: blocks and the event log -/

/-- HeaderOpensTheScreen and AnOversizedCanvasIsReported: a screen of exactly the capacity, and one
above it. -/
theorem wit_header :
    ({ hdr with width := 256, height := 256 } : HeaderOp).width.toNat * 256 ≤
        small.params.maxCanvasPixels ∧
      small.params.maxCanvasPixels < ({ hdr with width := 257 } : HeaderOp).width.toNat * 256 := by
  decide

/-- EventsAreAppendedWhileThereIsRoom: one place left, and none. -/
theorem wit_events :
    Output.start.events.length = Output.start.evtCount.toNat ∧
      Output.start.evtCount.toNat + 1 < 2 ^ 32 ∧ Output.start.evtCount.toNat < 1 ∧
      0 ≤ Output.start.evtCount.toNat := by decide

/-! ### Witnesses: host -/

/-- CtrlWritesSetTheControlBits, StartBeginsADecode, StartOfTooLongAStreamIsReported: IN_LEN equal to
the capacity, and one above it. -/
theorem wit_ctrl :
    (0xFFFFFFFE : U32).getLsbD 0 = false ∧ small.ctl.run = .busy ∧ (0x1 : U32).getLsbD 0 = true ∧
      State.reset.ctl.run ≠ .busy ∧
      (State.writeInLen 0x100000 State.reset).cur.inLen.toNat ≤ State.reset.params.inCap ∧
      State.reset.params.inCap < (State.writeInLen 0x100001 State.reset).cur.inLen.toNat := by decide

/-- CancelEndsTheDecodeAtABoundary: with nothing pending, and with the engine's turn. -/
theorem wit_cancel :
    let s : State := { small with ctl := { small.ctl with cancel := true } }
    (s.EngineTurn ∧ s.unit = .parser ∧ s.ctl.cancel = true) ∧
      (turning s).EngineTurn ∧ (turning s).unit = .parser ∧ (turning s).ctl.cancel = true :=
  ⟨⟨⟨rfl, .inl rfl⟩, rfl, rfl⟩, ⟨rfl, .inr ⟨_, rfl⟩⟩, rfl, rfl⟩

/-- A state in which the host's next action is `a`. -/
def asked (r : RunState) (a : HostAction) : State :=
  { small with ctl := { small.ctl with run := r }, hostq := [a] }

theorem asked_turn (r : RunState) (a : HostAction) : (asked r a).HostTurn a [] :=
  ⟨rfl, fun _ => rfl⟩

/-- CsrReadsAreGatedViews: a word of each clause, at the ends of its range, by STATE. -/
theorem wit_csrRead :
    (∀ r off, (asked r (.read .csr (small.params.csrBase + off) 4)).HostTurn
        (.read .csr (small.params.csrBase + off) 4) []) ∧
      (∀ off ∈ [0x00, 0x04, 0x08, 0x0C, 0x10, 0x14, 0x18, 0x1C, 0x20, 0x24, 0x28, 0x3C],
        off % 4 = 0 ∧ off < 0x40) ∧
      0x28 ≤ 0x28 ∧ (asked .done .hwReset).ctl.run = .done ∧
      (asked .error .hwReset).ctl.run = .error ∧ (asked .idle .hwReset).ctl.run = .idle ∧
      (asked .busy .hwReset).ctl.run = .busy :=
  ⟨fun _ _ => asked_turn _ _, by decide, by decide, rfl, rfl, rfl, rfl⟩

/-- What a host read of a CSR word leaves in the read data (10_state.md R17, R18): STATUS in BUSY;
FRAME_COUNT, SCREEN, EVT_COUNT and a reserved word in DONE. -/
theorem test_csrRead :
    let word (r : RunState) (off : Nat) (pend : Bool) (bs : List Byte) : Prop :=
      match step { asked r (.read .csr off 4) with
          ctl := { small.ctl with run := r, irqPend := pend }
          comp := { Comp.start with frameCount := 3 }
          outp := { Output.start with evtCount := 2 } } with
      | .next t => t.rdata = bs
      | .fault _ => False
      | .refused _ => False
    word .busy 0x04 false [1, 0, 0, 0] ∧ word .done 0x04 true [6, 0, 0, 0] ∧
      word .done 0x18 true [3, 0, 0, 0] ∧ word .done 0x1C true [2, 0, 2, 0] ∧
      word .done 0x24 true [2, 0, 0, 0] ∧ word .done 0x28 true [0, 0, 0, 0] :=
  ⟨rfl, rfl, rfl, rfl, rfl, rfl⟩

/-- HostWritesActOnlyWhereTheyMay: each clause, at the end of its range. -/
theorem wit_hostWrites :
    (asked .busy (.write .csr (small.params.csrBase + 0x14) (wordLE 9))).HostTurn
        (.write .csr (small.params.csrBase + 0x14) (wordLE 9)) [] ∧
      (asked .idle (.write .csr (small.params.csrBase + 0x3C) (wordLE 9))).HostTurn
        (.write .csr (small.params.csrBase + 0x3C) (wordLE 9)) [] ∧
      ((asked .done (.write .csr small.params.csrBase (wordLE 0xFFFFFFF0))).HostTurn
          (.write .csr small.params.csrBase (wordLE 0xFFFFFFF0)) [] ∧
        (0xFFFFFFF0 : U32).getLsbD 0 = false ∧ (0xFFFFFFF0 : U32).getLsbD 1 = false ∧
        (0xFFFFFFF0 : U32).getLsbD 2 = false ∧ (0xFFFFFFF0 : U32).getLsbD 3 = false) ∧
      ((asked .busy (.write .delayMem 127 [0x01])).HostTurn (.write .delayMem 127 [0x01]) [] ∧
        small.params.base .delayMem ≤ 127 ∧
        127 + [0x01#8].length ≤ small.params.base .delayMem + small.params.size .delayMem) ∧
      ((asked .busy (.write .inMem 0 [])).ctl.run = .busy ∧
        (asked .busy (.write .inMem 0 [])).HostTurn (.write .inMem 0 []) []) ∧
      ((asked .busy (.write .delayMem 128 [0x01])).HostTurn (.write .delayMem 128 [0x01]) [] ∧
        small.params.base .delayMem + small.params.size .delayMem < 128 + [0x01#8].length) ∧
      ((asked .done (.write .csr 2 (wordLE 9))).HostTurn (.write .csr 2 (wordLE 9)) [] ∧
        2 % 4 ≠ small.params.csrBase % 4) ∧
      (asked .done (.read .csr 0 3)).HostTurn (.read .csr 0 3) [] ∧
      ((asked .done (.write .csr 0x40 (wordLE 9))).HostTurn (.write .csr 0x40 (wordLE 9)) [] ∧
        (wordLE 9).length = 4 ∧ 0x40 % 4 = small.params.csrBase % 4 ∧
        small.params.csrBase + 0x40 ≤ 0x40) ∧
      (asked .done (.read .csr 0x40 4)).HostTurn (.read .csr 0x40 4) [] :=
  ⟨asked_turn _ _, asked_turn _ _,
    ⟨asked_turn _ _, by decide, by decide, by decide, by decide⟩,
    ⟨asked_turn _ _, by decide, by decide⟩, ⟨rfl, asked_turn _ _⟩,
    ⟨asked_turn _ _, by decide⟩, ⟨asked_turn _ _, by decide⟩, asked_turn _ _,
    ⟨asked_turn _ _, by decide, by decide, by decide⟩, asked_turn _ _⟩

/-- InputWritesStoreTheirBytes: the last byte of the input memory, and the first past it. -/
theorem wit_inMemWrite :
    Memory.wf (asked .idle (.write .inMem 0xFFFFF [0x3B])).inMem = true ∧
      (asked .idle (.write .inMem 0xFFFFF [0x3B])).ctl.run ≠ .busy ∧
      0xFFFFF + [0x3B#8].length ≤ small.params.inCap ∧
      (asked .idle (.write .inMem (small.params.inBase + 0xFFFFF) [0x3B])).HostTurn
        (.write .inMem (small.params.inBase + 0xFFFFF) [0x3B]) [] ∧
      small.params.inBase + small.params.inCap < 0x100000 + [0x3B#8].length ∧
      (asked .idle (.write .inMem 0x100000 [0x3B])).HostTurn (.write .inMem 0x100000 [0x3B]) [] :=
  ⟨by decide, by decide, by decide, asked_turn _ _, by decide, asked_turn _ _⟩

/-- FramesDelaysAndEventsAreLaidOut: the last pixel and the delay of frame 0, and an event. -/
theorem wit_layout :
    let s : State :=
      { disposing with
        ctl := { small.ctl with run := .done }
        outp := { disposing.outp with evtCount := 1, events := [⟨9, 0, 13, 1, 0, 0⟩] } }
    s.ctl.run = .done ∧ 0 < s.comp.frameCount.toNat ∧
      s.outp.frames[0]? = some (List.replicate 4 ⟨0, 0, 0, 0xFF⟩) ∧
      (List.replicate 4 (⟨0, 0, 0, 0xFF⟩ : Pixel)).length = s.scr.w.toNat * s.scr.h.toNat ∧
      1 < s.scr.w.toNat ∧ 1 < s.scr.h.toNat ∧
      (List.replicate 4 (⟨0, 0, 0, 0xFF⟩ : Pixel))[1 * s.scr.w.toNat + 1]? =
        some ⟨0, 0, 0, 0xFF⟩ ∧
      s.outp.delays[0]? = some 7 ∧ 0 < s.outp.evtCount.toNat ∧
      s.outp.events[0]? = some ⟨9, 0, 13, 1, 0, 0⟩ := by decide

/-- DataReadsReturnTheWindowBytes: the last four bytes of the input memory, the last byte of the event
log in ERROR, reads of no byte, of five and of one past the window, and a read of the log while BUSY. -/
theorem wit_dataRead :
    Window.inMem ≠ .csr ∧ 0xFFFFC + 4 ≤ small.params.size .inMem ∧
      (asked .busy (.read .inMem (small.params.base .inMem + 0xFFFFC) 4)).HostTurn
        (.read .inMem (small.params.base .inMem + 0xFFFFC) 4) [] ∧
      (asked .busy (.read .inMem (small.params.base .inMem + 0xFFFFC) 4)).definedByte .inMem
        0xFFFFF = some 0x00 ∧
      Window.evtMem ≠ .csr ∧ 1279 + 1 ≤ small.params.size .evtMem ∧
      ((asked .error (.read .evtMem (small.params.base .evtMem + 1279) 1)).ctl.run = .error ∧
        (asked .error (.read .evtMem (small.params.base .evtMem + 1279) 1)).HostTurn
          (.read .evtMem (small.params.base .evtMem + 1279) 1) []) ∧
      (asked .done (.read .evtMem 0 0)).HostTurn (.read .evtMem 0 0) [] ∧
      (asked .busy (.read .inMem 0 5)).HostTurn (.read .inMem 0 5) [] ∧
      ((asked .busy (.read .inMem 0xFFFFD 4)).HostTurn (.read .inMem 0xFFFFD 4) [] ∧
        small.params.base .inMem + small.params.size .inMem < 0xFFFFD + 4) ∧
      ((asked .busy (.read .evtMem 0 4)).ctl.run = .busy ∧
        (asked .busy (.read .evtMem 0 4)).HostTurn (.read .evtMem 0 4) []) :=
  ⟨by decide, by decide, asked_turn _ _, by decide, by decide, by decide, ⟨rfl, asked_turn _ _⟩,
    asked_turn _ _, asked_turn _ _, ⟨asked_turn _ _, by decide⟩, rfl, asked_turn _ _⟩

/-! ### Witnesses: steps, invariants and runs -/

/-- AStepRunsTheDecodedBlock: each phase, and a block after which the host acts again. -/
theorem wit_stepBlock :
    ((turning (atStream .atBlock [0x3B])).AtBoundary ∧
      decodeBlock (turning (atStream .atBlock [0x3B])).streamRest = .ok (.trailer, [])) ∧
    (2 < (atStream .atHeader [0x47, 0x49, 0x44]).cur.inLenL.toNat
        - (atStream .atHeader [0x47, 0x49, 0x44]).cur.pos.toNat ∧
      (atStream .atHeader [0x47, 0x49, 0x44]).streamRest[2]? = some 0x44) ∧
    ((atStream .atHeader [0x47, 0x49, 0x44]).AtBoundary ∧
      decodeHeader (atStream .atHeader [0x47, 0x49, 0x44]).streamRest =
        .ok (.badSignature 0x47 0x49 0x44, [])) ∧
    ((atStream .atBlock [0x3B]).AtBoundary ∧
      decodeBlock (atStream .atBlock [0x3B]).streamRest = .ok (.trailer, [])) :=
  ⟨⟨turning_boundary _ _, by decide⟩, by decide, ⟨at_boundary _ _, by decide⟩, at_boundary _ _,
    by decide⟩

/-- AStepRunsTheCodeDisposalOrCommand: each clause. -/
theorem wit_stepOther :
    ((filling 1 [0x01] (filled 0 2 none [])).ctl.run = .busy ∧
      (filling 1 [0x01] (filled 0 2 none [])).unit = .lzw ∧
      (filled 0 2 none []).peekCode [0x01] = some 1) ∧
    (({ disposing with unit := .dispose } : State).ctl.run = .busy) ∧
    ((asked .done (.write .csr small.params.csrBase [0x08, 0, 0, 0])).HostTurn
        (.write .csr small.params.csrBase [0x08, 0, 0, 0]) [] ∧
      ctrlWordOf small.params .csr small.params.csrBase [0x08, 0, 0, 0] = some 8 ∧
      decodeCtrl 8 = some (.ctrlIrqAck 8)) :=
  ⟨⟨rfl, rfl, by decide⟩, rfl, asked_turn _ _, by decide, by decide⟩

/-- TheEngineNeverStopsAndRestsUnlessBusy. -/
theorem wit_rest :
    (State.reset.EngineNext ∧ State.reset.ctl.run ≠ .busy) ∧
      (turning State.reset).EngineNext ∧ (turning State.reset).ctl.run ≠ .busy :=
  ⟨⟨.inl rfl, by decide⟩, .inr ⟨_, rfl⟩, by decide⟩

/-- The step goes on to a state of which `p` holds. -/
def stepsTo (s : State) (p : State → Bool) : Bool :=
  match step s with
  | .next t => p t
  | .fault _ => false
  | .refused _ => false

theorem stepsTo_next {s : State} {p : State → Bool} (h : stepsTo s p = true) :
    ∃ t, step s = .next t ∧ p t = true := by
  unfold stepsTo at h
  split at h
  · exact ⟨_, by assumption, h⟩
  · cases h
  · cases h

/-- A cut-short header and a cut-short image leave what they read (42_block_parser.md R116, R128). -/
theorem test_cutShort :
    (∃ t, step (atStream .atHeader (headerStart.take 12)) = .next t ∧
      decide (t.scr.gctFlag = true ∧ t.scr.colorRes = 1 ∧ t.scr.gctSize = 1 ∧ t.scr.bgIndex = 7 ∧
        t.scr.aspect = 0 ∧ t.scr.w = 0) = true) ∧
      ∃ t, step (atStream .atBlock imageStart) = .next t ∧
        decide (t.img.left = 0x102 ∧ t.img.sort = true ∧ t.img.minCode = 5 ∧ t.tabs.lctLen = 2 ∧
          t.tabs.lct = [⟨0x10, 0x20, 0x30⟩, ⟨0x40, 0x50, 0x60⟩]) = true :=
  ⟨stepsTo_next (by decide), stepsTo_next (by decide)⟩

/-- EVT_MEM is not read in IDLE (45_decoder.md R158). -/
theorem test_evtRead : step (asked .idle (.read .evtMem 0 1)) = .refused .evtMemReadEarly := by rfl

/-- StateChangesOnlyAsR19Says: to DONE and ERROR by the engine, to BUSY by START, to IDLE by reset. -/
theorem wit_stateChanges :
    (atStream .atBlock [0x3B]).unit = .parser ∧ (atStream .atBlock [0x3B]).EngineTurn ∧
    (∃ t, step (atStream .atBlock [0x3B]) = .next t ∧
      decide (t.ctl.run = .done ∧ t.ctl.irqPend = true) = true) ∧
    (∃ t, step (atStream .atBlock [0x00]) = .next t ∧ decide (t.ctl.run = .error ∧ t.err.code = 3) = true) ∧
    (∃ t, step (asked .idle (.write .csr 0 [0x01, 0, 0, 0])) = .next t ∧
      decide (t.ctl.run = .busy) = true) ∧
    (∃ t, step { asked .idle (.write .csr 0 [0x01, 0, 0, 0]) with params := { small.params with inCap := 1 } } =
        .next t ∧ decide (t.ctl.run = .error ∧ t.ctl.irqPend = true) = true) ∧
    (∃ t, step (asked .busy .hwReset) = .next t ∧ decide (t.ctl.run = .idle) = true) :=
  ⟨rfl, ⟨rfl, .inl rfl⟩, stepsTo_next (by decide), stepsTo_next (by decide), stepsTo_next (by decide),
    stepsTo_next (by decide), stepsTo_next (by decide)⟩

/-- ResetLeavesTheStatedValues: a reset while BUSY. -/
theorem wit_hwReset : (asked .busy .hwReset).HostTurn .hwReset [] := asked_turn _ _

/-- One frame delivered by a decode whose next block is `bs`. -/
def framed (bs : List Byte) : State :=
  { atStream .atBlock (0x00 :: bs) with
    cur := { inLen := 0, inLenL := BitVec.ofNat 32 (bs.length + 1), blkStart := 0, pos := 1 }
    scr := { Screen.zero with w := 1, h := 1 }
    comp := { Comp.start with canvas := [white], frameCount := 1 }
    outp := { Output.start with frames := [[white]], delays := [7] } }

/-- EveryStepKeepsTheInvariant, EveryEngineStepMovesTheCursor, EveryDecodeEndsWithinItsLength,
DeliveredFramesAreImmutable and AnEngineStepLogsAtMostItsBlock: a trailer after one frame, with the host
acting again after it. -/
theorem wit_inv :
    (turning (framed [0x3B])).Inv ∧ (turning (framed [0x3B])).EngineTurn ∧
      0 < (turning (framed [0x3B])).comp.frameCount.toNat := by
  refine ⟨?_, ⟨rfl, .inr ⟨_, rfl⟩⟩, by decide⟩
  constructor
  · rfl
  · decide
  · decide
  · decide
  · decide
  · decide
  · decide
  · decide
  · decide
  · decide
  · decide
  · decide
  · rintro - k h
    cases h
  · decide

/-- EveryDecodeEndsWithinItsLength: only the engine's turns pending. -/
theorem wit_turns :
    ∀ a ∈ ({ framed [0x3B] with hostq := [.engineTurn, .engineTurn] } : State).hostq,
      a = .engineTurn := by decide

theorem wit_invStep :
    (∃ t, step (turning (framed [0x3B])) = .next t ∧
      decide (t.ctl.run = .done ∧ t.cur.pos = 2 ∧ t.hostq = [.read .csr 4 4]) = true) ∧
    (∃ t, step (framed [0x3B]) = .next t ∧ decide (t.ctl.run ≠ .error) = true) ∧
      ∃ t, step (framed [0x00]) = .next t ∧ decide (t.ctl.run = .error) = true :=
  ⟨stepsTo_next (by decide), stepsTo_next (by decide), stepsTo_next (by decide)⟩

end Sys2Proof.Tests
end

/-! ## The decoder: what a decoded block is made of

A decoded block is well formed, and the bytes read are its encoding, so it took at least one byte. -/

section

namespace Sys2Proof

/-- The bytes `bs` are the encoding of a well-formed instruction with `rest` after it
(30_encoding.md R62, R80). -/
def Spells (bs rest : List Byte) (i : Instr) : Prop :=
  WellFormed i = true ∧ ∃ w, encode i = .bytes w ∧ bs = w ++ rest

theorem decodeHeader_spells {bs rest : List Byte} {i : Instr}
    (h : decodeHeader bs = .ok (i, rest)) : Spells bs rest i ∧ isHeaderRow i = true := by
  unfold decodeHeader at h
  split at h
  · split at h
    · rename_i s0 s1 s2 bs hs
      simp only [decodeHeaderBody, reader_bind_ok, Prod.exists, readBytes_ok, readU16_ok,
        readByte_ok, readOptTable_ok, pure, Except.pure, Except.ok.injEq, Prod.mk.injEq] at h
      obtain ⟨v, _, ⟨hv, rfl⟩, w, _, rfl, ht, _, rfl, p, _, rfl, bg, _, rfl, a, _, rfl, gct, _,
        ⟨hg, rfl⟩, rfl, rfl⟩ := h
      refine ⟨⟨Bool.and_eq_true_iff.2 ⟨decide_eq_true hv, hg⟩, _, rfl, ?_⟩, rfl⟩
      simp only [headerBytes, ← hs, headerPacked, headerPacked_of_fields, List.append_assoc,
        List.cons_append, List.nil_append]
    · rename_i hs
      cases h
      exact ⟨⟨decide_eq_true hs, _, rfl, rfl⟩, rfl⟩
  · cases h

theorem decodeGce_spells {bs rest : List Byte} {i : Instr} (h : decodeGce bs = .ok (i, rest)) :
    Spells (0x21 :: 0xF9 :: bs) rest i ∧ isHeaderRow i = false := by
  simp only [decodeGce, reader_bind_ok, Prod.exists, readU16_ok, readByte_ok, pure, Except.pure,
    Except.ok.injEq, Prod.mk.injEq] at h
  obtain ⟨size, _, rfl, g, _, rfl, d, _, rfl, ti, _, rfl, term, _, rfl, rfl, rfl⟩ := h
  refine ⟨⟨rfl, _, rfl, ?_⟩, rfl⟩
  simp only [gceBytes, gcePacked, gcePacked_of_fields, List.append_assoc, List.cons_append,
    List.nil_append]

theorem decodeComment_spells {bs rest : List Byte} {i : Instr}
    (h : decodeComment bs = .ok (i, rest)) :
    Spells (0x21 :: 0xFE :: bs) rest i ∧ isHeaderRow i = false := by
  simp only [decodeComment, reader_bind_ok, Prod.exists, readSubBlocks_ok, pure, Except.pure,
    Except.ok.injEq, Prod.mk.injEq] at h
  obtain ⟨data, _, ⟨hd, rfl⟩, rfl, rfl⟩ := h
  exact ⟨⟨hd, _, rfl, rfl⟩, rfl⟩

theorem decodePlaintext_spells {bs rest : List Byte} {i : Instr}
    (h : decodePlaintext bs = .ok (i, rest)) :
    Spells (0x21 :: 0x01 :: bs) rest i ∧ isHeaderRow i = false := by
  simp only [decodePlaintext, reader_bind_ok, Prod.exists, readByte_ok, readBytes_ok,
    readSubBlocks_ok, pure, Except.pure, Except.ok.injEq, Prod.mk.injEq] at h
  obtain ⟨size, _, rfl, hdr, _, ⟨hh, rfl⟩, data, _, ⟨hd, rfl⟩, rfl, rfl⟩ := h
  exact ⟨⟨Bool.and_eq_true_iff.2 ⟨decide_eq_true hh, hd⟩, _, rfl, by simp⟩, rfl⟩

theorem decodeApp_spells {bs rest : List Byte} {i : Instr} (h : decodeApp bs = .ok (i, rest)) :
    Spells (0x21 :: 0xFF :: bs) rest i ∧ isHeaderRow i = false := by
  simp only [decodeApp, reader_bind_ok, Prod.exists, readByte_ok, readBytes_ok] at h
  obtain ⟨size, _, rfl, id, _, ⟨hid, rfl⟩, auth, _, ⟨ha, rfl⟩, h⟩ := h
  split at h
  · rename_i hn
    simp only [reader_bind_ok, Prod.exists, readByte_ok, readU16_ok, pure, Except.pure,
      Except.ok.injEq, Prod.mk.injEq] at h
    obtain ⟨subSize, _, rfl, subId, _, rfl, count, _, rfl, term, _, rfl, rfl, rfl⟩ := h
    exact ⟨⟨decide_eq_true ha, _, rfl, by simp [netscapeBytes, hn]⟩, rfl⟩
  · rename_i hn
    simp only [reader_bind_ok, Prod.exists, readSubBlocks_ok, pure, Except.pure, Except.ok.injEq,
      Prod.mk.injEq] at h
    obtain ⟨data, _, ⟨hd, rfl⟩, rfl, rfl⟩ := h
    exact ⟨⟨by simp [WellFormed, hid, hn, ha, hd], _, rfl, by simp [appBytes]⟩, rfl⟩

theorem decodeUnknown_spells {label : Byte} {bs rest : List Byte} {i : Instr}
    (hl : label ≠ 0xF9 ∧ label ≠ 0xFE ∧ label ≠ 0x01 ∧ label ≠ 0xFF)
    (h : decodeUnknown label bs = .ok (i, rest)) :
    Spells (0x21 :: label :: bs) rest i ∧ isHeaderRow i = false := by
  simp only [decodeUnknown, reader_bind_ok, Prod.exists, readSubBlocks_ok, pure, Except.pure,
    Except.ok.injEq, Prod.mk.injEq] at h
  obtain ⟨data, _, ⟨hd, rfl⟩, rfl, rfl⟩ := h
  exact ⟨⟨Bool.and_eq_true_iff.2 ⟨decide_eq_true hl, hd⟩, _, rfl, rfl⟩, rfl⟩

theorem decodeExtension_spells {bs rest : List Byte} {i : Instr}
    (h : decodeExtension bs = .ok (i, rest)) :
    Spells (0x21 :: bs) rest i ∧ isHeaderRow i = false := by
  simp only [decodeExtension, reader_bind_ok, Prod.exists, readByte_ok] at h
  obtain ⟨label, bs, rfl, h⟩ := h
  split at h
  · rename_i hl
    exact hl ▸ decodeGce_spells h
  · split at h
    · rename_i hl
      exact hl ▸ decodeComment_spells h
    · split at h
      · rename_i hl
        exact hl ▸ decodePlaintext_spells h
      · split at h
        · rename_i hl
          exact hl ▸ decodeApp_spells h
        · exact decodeUnknown_spells ⟨‹_›, ‹_›, ‹_›, ‹_›⟩ h

theorem decodeImage_spells {bs rest : List Byte} {i : Instr}
    (h : decodeImage bs = .ok (i, rest)) :
    Spells (0x2C :: bs) rest i ∧ isHeaderRow i = false := by
  simp only [decodeImage, reader_bind_ok, Prod.exists, readU16_ok, readByte_ok, readOptTable_ok,
    readSubBlocks_ok, pure, Except.pure, Except.ok.injEq, Prod.mk.injEq] at h
  obtain ⟨left, _, rfl, top, _, rfl, w, _, rfl, ht, _, rfl, q, _, rfl, lct, _, ⟨hl, rfl⟩, m, _, rfl,
    data, _, ⟨hd, rfl⟩, rfl, rfl⟩ := h
  refine ⟨⟨Bool.and_eq_true_iff.2 ⟨hl, hd⟩, _, rfl, ?_⟩, rfl⟩
  simp only [imageBytes, imagePacked, imagePacked_of_fields, List.append_assoc, List.cons_append,
    List.nil_append]

theorem decodeBlock_spells {bs rest : List Byte} {i : Instr}
    (h : decodeBlock bs = .ok (i, rest)) : Spells bs rest i ∧ isHeaderRow i = false := by
  simp only [decodeBlock, reader_bind_ok, Prod.exists, readByte_ok] at h
  obtain ⟨b, bs, rfl, h⟩ := h
  split at h
  · rename_i hb
    exact hb ▸ decodeExtension_spells h
  · split at h
    · rename_i hb
      exact hb ▸ decodeImage_spells h
    · split at h
      · rename_i hb
        cases h
        exact ⟨⟨rfl, _, rfl, hb ▸ rfl⟩, rfl⟩
      · cases h
        have hb : b ≠ 0x21 ∧ b ≠ 0x2C ∧ b ≠ 0x3B := ⟨‹_›, ‹_›, ‹_›⟩
        exact ⟨⟨decide_eq_true hb, _, rfl, rfl⟩, rfl⟩

/-- No block is spelled by no bytes (30_encoding.md R64 to R76). -/
theorem encode_ne_nil (i : Instr) : encode i ≠ .bytes [] := by
  cases i <;>
    simp [encode, headerBytes, gifSignature, gceBytes, netscapeBytes, appBytes, imageBytes]

/-- A decoded block took at least one byte (45_decoder.md R154). -/
theorem Spells.rest_lt {bs rest : List Byte} {i : Instr} (h : Spells bs rest i) :
    rest.length < bs.length := by
  obtain ⟨-, w, he, rfl⟩ := h
  have hw : w ≠ [] := fun h0 => encode_ne_nil i (h0 ▸ he)
  rw [List.length_append]
  exact Nat.lt_add_of_pos_left (List.length_pos_iff.2 hw)

theorem flatten_length_le_chainBytes (data : Chain) :
    data.flatten.length ≤ (chainBytes data).length := by
  induction data with
  | nil => simp
  | cons d ds ih =>
    simp only [chainBytes_cons, List.flatten_cons, List.length_append, List.length_cons]
    omega

/-- An image's payload is no longer than the stream it was read from (10_state.md R29). -/
theorem Spells.payload_le {bs rest : List Byte} {op : ImageOp}
    (h : Spells bs rest (.image op)) : op.data.flatten.length ≤ bs.length := by
  obtain ⟨-, w, he, rfl⟩ := h
  obtain rfl : imageBytes op = w := Encoded.bytes.inj he
  have hd := flatten_length_le_chainBytes op.data
  simp only [imageBytes, List.length_append]
  omega

end Sys2Proof

end

/-! ## The image step, unit by unit and as one pass

Each turn of the LZW unit is a turn of `lzwLoop`, so the units end within `imageTurns` and the whole step
is `State.imagePass`. -/

section

namespace Sys2Proof.Machine

/-! ### One turn of the LZW unit is one turn of the decode loop (41_lzw.md R97) -/

/-- How a turn of the LZW unit in state `s` and a turn of `lzwLoop` from the same registers answer each
other: both raise the same error, both leave the loop, or both go on with the same registers, `bit_pos`
past the code and a width that stays at least 2. -/
inductive State.TurnAgrees (s : State) : Prop where
  | fails (e : DecodeError) : s.lzwTurn = s.raise e →
      (∀ n, lzwLoop s.draws s.img.minCode s.img.payload s.img.pixels (n + 1) s.lz = .error e) →
      s.TurnAgrees
  | leaves (l : Lzw) : s.lzwTurn = { s with lz := l, unit := .reorder } →
      (∀ n, lzwLoop s.draws s.img.minCode s.img.payload s.img.pixels (n + 1) s.lz = .ok l.out) →
      s.TurnAgrees
  | goesOn (c : Code) (l : Lzw) : s.lzwTurn = { s with lz := l } →
      (∀ n, lzwLoop s.draws s.img.minCode s.img.payload s.img.pixels (n + 1) s.lz =
        lzwLoop s.draws s.img.minCode s.img.payload s.img.pixels n l) →
      s.lz.peekCode s.img.payload = some c → l.bitPos = s.lz.skipCode.bitPos →
      (2 ≤ s.lz.codeWidth.toNat → 2 ≤ l.codeWidth.toNat) →
      s.TurnAgrees

/-- LzwGrow never narrows the width (41_lzw.md R108). -/
theorem Lzw.le_settle_codeWidth (c : Code) (l : Lzw) :
    l.codeWidth.toNat ≤ (l.settle c).codeWidth.toNat := by
  rw [Lzw.settle_codeWidth]
  split <;> omega

/-- A turn that emits: a data code, once it has made its registers `l`. -/
theorem State.TurnAgrees.of_emit {s : State} {c : Code} {xs : List Sym} {l : Lzw}
    (hp : s.lz.peekCode s.img.payload = some c)
    (ht : s.lzwTurn = State.emitSyms xs c { s with lz := l })
    (hl : ∀ n, lzwLoop s.draws s.img.minCode s.img.payload s.img.pixels (n + 1) s.lz =
      if s.img.pixels < s.lz.out.length + xs.length then
        .error (.pixelCountMismatch (s.lz.out.length + xs.length))
      else
        lzwLoop s.draws s.img.minCode s.img.payload s.img.pixels n
          (Lzw.settle c { l with out := s.lz.out ++ xs }))
    (ho : l.out = s.lz.out) (hb : l.bitPos = s.lz.skipCode.bitPos)
    (hw : l.codeWidth = s.lz.codeWidth) : s.TurnAgrees := by
  rcases Nat.lt_or_ge s.img.pixels (s.lz.out.length + xs.length) with h | h
  · rw [State.emitSyms_of_overlong (by simpa only [ho] using h), ho] at ht
    exact .fails _ ht fun n => by rw [hl, if_pos h]
  · rw [State.emitSyms_of_fits (by simpa only [ho] using h), ho] at ht
    refine .goesOn c _ ht (fun n => by rw [hl, if_neg (Nat.not_lt.2 h)]) hp ?_ fun h2 => ?_
    · rw [Lzw.settle_bitPos, hb]
    · refine Nat.le_trans ?_ (Lzw.le_settle_codeWidth _ _)
      rw [hw]
      exact h2

/-- The unit and the loop agree turn by turn, by the class of the code read (41_lzw.md R97). -/
theorem State.turnAgrees {s : State} (hm : minCodeOk s.img.minCode = true) : s.TurnAgrees := by
  cases hp : s.lz.peekCode s.img.payload with
  | none =>
    exact .fails (.endOfPayload s.lz.bitPos.toNat) (by simp [State.lzwTurn, hp, State.payloadEnded])
      fun n => by simp only [lzwLoop, hp]
  | some c =>
    have ht : s.lzwTurn = s.skipCode.lzwCode c := by simp only [State.lzwTurn, hp]
    unfold State.lzwCode at ht
    simp only [State.skipCode_lz] at ht
    rcases decodeCode_cases s.lz.skipCode.ctx c with ⟨hc, -⟩ | ⟨hc, -⟩ | ⟨hc, -⟩ | ⟨hc, -⟩ | ⟨hc, -⟩
    · rw [hc] at ht
      refine .goesOn c _ ht (fun n => by simp only [lzwLoop, hp, hc]; rfl) hp rfl fun _ => ?_
      have hw := Lzw.reset_codeWidth s.lz.skipCode hm
      have hm := (minCodeOk_iff _).1 hm
      show 2 ≤ (s.lz.skipCode.reset s.img.minCode).codeWidth.toNat
      omega
    · rw [hc] at ht
      by_cases hn : s.lz.out.length = s.img.pixels
      · have hn' : s.skipCode.lz.out.length = s.skipCode.img.pixels := hn
        simp only [State.lzwEoi, if_pos hn'] at ht
        exact .leaves _ ht fun n => by simp only [lzwLoop, hp, hc, if_pos hn]; rfl
      · have hn' : ¬ s.skipCode.lz.out.length = s.skipCode.img.pixels := hn
        simp only [State.lzwEoi, if_neg hn'] at ht
        exact .fails (.pixelCountMismatch s.lz.out.length) ht fun n => by
          simp only [lzwLoop, hp, hc, if_neg hn]
    · rw [hc] at ht
      exact .of_emit hp ht (fun n => by simp only [lzwLoop, hp, hc]; rfl) (Lzw.learnKnown_out _ _ _)
        (Lzw.learnKnown_bitPos _ _ _) (Lzw.learnKnown_codeWidth _ _ _)
    · rw [hc] at ht
      exact .of_emit hp ht (fun n => by simp only [lzwLoop, hp, hc]; rfl) rfl rfl rfl
    · rw [hc] at ht
      exact .fails (.invalidLzwCode c) ht fun n => by simp only [lzwLoop, hp, hc]

/-! ### The image step is one pass (42_block_parser.md R128) -/

theorem State.trackRestore_of_lzw (l : Lzw) (u : EngineUnit) (s : State) :
    State.trackRestore { s with lz := l, unit := u } =
      { s.trackRestore with lz := l, unit := u } := by
  unfold State.trackRestore
  split <;> rfl

theorem State.deliverAndRecord_of_lzw (l : Lzw) (u : EngineUnit) (s : State) :
    State.deliverAndRecord { s with lz := l, unit := u } = s.deliverAndRecord := by
  unfold State.deliverAndRecord
  split <;> rfl

theorem State.paintAndDeliver_of_lzw (table : List Rgb) (len : BitVec 9) (l : Lzw)
    (u : EngineUnit) (s : State) :
    State.paintAndDeliver table len { s with lz := l, unit := u } =
      s.paintAndDeliver table len := by
  have he : State.paintEnv table len { s with lz := l, unit := u } = s.paintEnv table len := rfl
  simp only [State.paintAndDeliver, he]
  cases paintFrom (s.paintEnv table len) 0 s.idx s.comp.canvas with
  | error v => rfl
  | ok canvas =>
    exact State.deliverAndRecord_of_lzw l u { s with comp := { s.comp with canvas := canvas } }

/-- Compositing overwrites the LZW registers and the unit, and reads neither (44_compositor.md R135). -/
theorem State.composite_of_lzw (l : Lzw) (u : EngineUnit) (s : State) :
    State.composite { s with lz := l, unit := u } = s.composite := by
  unfold State.composite
  rw [State.trackRestore_of_lzw]
  have hp : State.palette { s.trackRestore with lz := l, unit := u } = s.trackRestore.palette := rfl
  rw [hp]
  cases s.trackRestore.palette with
  | none => rfl
  | some p => exact State.paintAndDeliver_of_lzw p.1 p.2 l u _

theorem State.restorePrevious_of_lzw (l : Lzw) (u : EngineUnit) (s : State) :
    State.restorePrevious { s with lz := l, unit := u } =
      { s.restorePrevious with lz := l, unit := u } := by
  simp only [State.restorePrevious]
  cases s.comp.restoreFrom <;> rfl

theorem State.disposePrevious_of_lzw (l : Lzw) (u : EngineUnit) (s : State) :
    State.disposePrevious { s with lz := l, unit := u } =
      { s.disposePrevious with lz := l, unit := u } := by
  simp only [State.disposePrevious]
  cases decodeDisposal s.comp.lastDisp with
  | dispose3 => exact State.restorePrevious_of_lzw l u s
  | _ => rfl

theorem State.compositeAll_of_lzw (l : Lzw) (u : EngineUnit) (s : State) :
    State.compositeAll { s with lz := l, unit := u } = s.compositeAll := by
  unfold State.compositeAll
  split
  · exact State.composite_of_lzw l u s
  · rw [State.disposePrevious_of_lzw, State.composite_of_lzw]

/-- IDX filled from the decoded symbols (42_block_parser.md R128). -/
def State.withIdx (out : List Sym) (s : State) : State :=
  { s with idx := if s.img.interlace then deinterlace out s.img.w.toNat s.img.h.toNat else out }

@[simp] theorem State.withIdx_comp (out : List Sym) (s : State) :
    (s.withIdx out).comp = s.comp := rfl

/-- What the rest of an image step makes of the decode loop's result (42_block_parser.md R128, R129). -/
def State.afterLzw (s : State) : Except DecodeError (List Sym) → State
  | .error e => s.raise e
  | .ok out => (s.withIdx out).compositeAll

theorem State.afterLzw_of_lzw (l : Lzw) (u : EngineUnit) (s : State)
    (r : Except DecodeError (List Sym)) :
    State.afterLzw { s with lz := l, unit := u } r = s.afterLzw r := by
  cases r with
  | error e => rfl
  | ok out => exact State.compositeAll_of_lzw l u (s.withIdx out)

theorem State.runUnits_of_paint (n : Nat) {s : State} (h : s.unit = .paint) :
    s.runUnits (n + 1) = s.composite := by
  rw [State.runUnits_succ n (by rw [h]; nofun), State.unitTurn, h]
  exact State.runUnits_of_parser n s.composite_unit

theorem State.runUnits_of_dispose (n : Nat) {s : State} (h : s.unit = .dispose) :
    s.runUnits (n + 2) = s.disposePrevious.composite := by
  have ht : s.unitTurn = { s.disposePrevious with lz := s.lz, unit := .paint } := by
    rw [State.unitTurn, h]
    exact State.disposePrevious_of_lzw s.lz .paint s
  rw [State.runUnits_succ (n + 1) (by rw [h]; nofun), ht, State.runUnits_of_paint n rfl]
  exact State.composite_of_lzw _ _ _

/-- After the decode loop the last units turn as one pass (44_compositor.md R135). -/
theorem State.runUnits_of_reorder (n : Nat) {s : State} (h : s.unit = .reorder) :
    s.runUnits (n + 3) = s.afterLzw (.ok s.lz.out) := by
  have ht : s.unitTurn = s.fillIdx := by rw [State.unitTurn, h]
  rw [State.runUnits_succ (n + 2) (by rw [h]; nofun), ht, State.afterLzw, State.compositeAll]
  by_cases hf : s.comp.frameCount = 0
  · have hu : s.fillIdx.unit = .paint := if_pos hf
    rw [State.runUnits_of_paint (n + 1) hu, State.withIdx_comp, if_pos hf]
    exact State.composite_of_lzw s.lz s.fillIdx.unit (s.withIdx s.lz.out)
  · have hu : s.fillIdx.unit = .dispose := if_neg hf
    rw [State.runUnits_of_dispose n hu, State.withIdx_comp, if_neg hf]
    have hd := State.disposePrevious_of_lzw s.lz s.fillIdx.unit (s.withIdx s.lz.out)
    exact (congrArg State.composite hd).trans (State.composite_of_lzw _ _ _)

/-- The units of an image step from the LZW loop on are the loop and then the rest, as one pass
(41_lzw.md R97, R113). -/
theorem State.runUnits_of_lzw (n : Nat) {s : State} (hu : s.unit = .lzw)
    (hm : minCodeOk s.img.minCode = true) (hp : s.img.payload.length < 2 ^ 32)
    (hw : 2 ≤ s.lz.codeWidth.toNat) (hb : s.lz.bitPos.toNat ≤ 8 * s.img.payload.length)
    (hn : 8 * s.img.payload.length < s.lz.bitPos.toNat + 2 * n) :
    s.runUnits (n + 3) =
      s.afterLzw (lzwLoop s.draws s.img.minCode s.img.payload s.img.pixels n s.lz) := by
  induction n generalizing s with
  | zero => omega
  | succ n ih =>
    have hturn : s.runUnits (n + 1 + 3) = s.lzwTurn.runUnits (n + 3) := by
      rw [State.runUnits_succ _ (by rw [hu]; nofun), State.unitTurn, hu]
    rw [hturn]
    cases State.turnAgrees hm with
    | fails e ht hl =>
      rw [ht, hl]
      exact State.runUnits_of_parser _ rfl
    | leaves l ht hl =>
      rw [ht, hl, State.runUnits_of_reorder n rfl]
      exact State.compositeAll_of_lzw l .reorder (s.withIdx l.out)
    | goesOn c l ht hl hread hpos hwide =>
      have hin := Lzw.peekCode_some hread
      have hskip := Lzw.skipCode_bitPos hread hp
      rw [← hpos] at hskip
      rw [ht, hl, ← State.afterLzw_of_lzw l s.unit s]
      exact ih hu hm hp (hwide hw) (by simp only; omega) (by simp only; omega)

/-- The pass over an image block, after its capacity test, is LzwDecode and the rest of the step
(42_block_parser.md R128). -/
theorem State.imagePass_of_fits {op : ImageOp} {s : State}
    (h : ¬ (s.loadImage op).params.maxImagePixels < (s.loadImage op).img.pixels) :
    s.imagePass op =
      (s.loadImage op).afterLzw
        (lzwDecode s.draws op.minCode op.data.flatten (s.loadImage op).img.pixels) := by
  simp only [State.imagePass, if_neg h, State.loadImage_draws]
  cases lzwDecode s.draws op.minCode op.data.flatten (s.loadImage op).img.pixels <;> rfl

/-- The image step is R128 read as one pass (42_block_parser.md R128, R129; 41_lzw.md R113). -/
theorem State.imageStep_eq_imagePass {op : ImageOp} (s : State)
    (hp : op.data.flatten.length < 2 ^ 32) : s.imageStep op = s.imagePass op := by
  have hmin : (s.loadImage op).img.minCode = op.minCode := rfl
  by_cases hbig : (s.loadImage op).params.maxImagePixels < (s.loadImage op).img.pixels
  · simp only [State.imageStep, State.imagePass, State.beginLzw, if_pos hbig]
    exact State.runUnits_of_parser _ rfl
  · rw [State.imagePass_of_fits hbig]
    cases hm : minCodeOk op.minCode with
    | false =>
      simp only [State.imageStep, State.beginLzw, if_neg hbig, lzwDecode, hmin, hm,
        Bool.false_eq_true, if_false]
      exact State.runUnits_of_parser _ rfl
    | true =>
      simp only [State.imageStep, State.beginLzw, if_neg hbig, lzwDecode, hmin, hm, if_true]
      have hw : ((s.loadImage op).lz.init op.minCode).codeWidth.toNat = op.minCode.toNat + 1 :=
        Lzw.reset_codeWidth (s.loadImage op).lz hm
      have hlow := (minCodeOk_iff _).1 hm
      have hrun := State.runUnits_of_lzw (4 * op.data.flatten.length + 1)
        (s := { s.loadImage op with lz := (s.loadImage op).lz.init op.minCode, unit := .lzw })
        rfl hm hp (by simp only; omega) (Nat.zero_le _)
        (show 8 * op.data.flatten.length < 0 + _ by omega)
      exact hrun.trans
        (State.afterLzw_of_lzw ((s.loadImage op).lz.init op.minCode) .lzw (s.loadImage op) _)

/-- The decode loop raises no SourceError (60_exceptions.md R166). -/
theorem lzwLoop_error {draw npix n : Nat} {m : Byte} {payload : List Byte} {l : Lzw}
    {e : DecodeError} (h : lzwLoop draw m payload npix n l = .error e) : e ≠ .sourceError := by
  rintro rfl
  induction n generalizing l with
  | zero => cases h
  | succ n ih =>
    rw [lzwLoop] at h
    split at h
    · cases h
    · split at h
      · exact ih h
      · split at h <;> cases h
      · split at h
        · cases h
        · exact ih h
      · split at h
        · cases h
        · exact ih h
      · cases h

theorem lzwDecode_error {draw npix : Nat} {m : Byte} {payload : List Byte} {e : DecodeError}
    (h : lzwDecode draw m payload npix = .error e) : e ≠ .sourceError := by
  unfold lzwDecode at h
  split at h
  · exact lzwLoop_error h
  · cases h
    nofun

end Sys2Proof.Machine

end

/-! ## What one step can do

`step_moves` says it once: an engine step leaves one of the states of `State.EngineMove`, a host action one
of those of `State.HostMove`. -/

section

namespace Sys2Proof.Machine

/-! ### Error entry -/

/-- `t` is an error entry after a block that began in a state like `s`: a record of one of the kinds the
GDE raises, and the results as they were (60_exceptions.md R160, R162, R166). -/
structure State.Fails (s t : State) : Prop where
  run : t.ctl.run = .error
  code : 1 ≤ t.err.code.toNat ∧ t.err.code.toNat ≤ 11 ∧ t.err.code ≠ 6
  unit : t.unit = .parser
  params : t.params = s.params
  outp : t.outp = s.outp
  inMem : t.inMem = s.inMem

theorem DecodeError.code_ne_six {e : DecodeError} (h : e ≠ .sourceError) : e.code ≠ 6 := by
  cases e with
  | sourceError => exact absurd rfl h
  | _ => simp [DecodeError.code]

theorem State.raise_fails (s : State) {e : DecodeError} (h : e ≠ .sourceError) :
    s.Fails (s.raise e) where
  run := rfl
  code := ⟨e.code_range.1, e.code_range.2, e.code_ne_six h⟩
  unit := rfl
  params := rfl
  outp := rfl
  inMem := rfl

/-- Error entry from a state that a block changed only where the results do not stand. -/
theorem State.Fails.of_same {s s' t : State} (h : s'.Fails t) (hp : s'.params = s.params)
    (ho : s'.outp = s.outp) (hm : s'.inMem = s.inMem) : s.Fails t :=
  { h with params := h.params.trans hp, outp := h.outp.trans ho, inMem := h.inMem.trans hm }

/-! ### How an image block ends -/

/-- The restore base an image may leave: as it was, or the frame delivered last
(44_compositor.md R141). -/
def State.TracksTo (s : State) (base : Option U32) : Prop :=
  base = s.comp.restoreFrom ∨ s.comp.frameCount ≠ 0 ∧ base = some (s.comp.frameCount - 1)

/-- The registers of the compositor when a frame is delivered: the painted canvas and the restore base
(44_compositor.md R141, R144). -/
def State.painted (canvas : List Pixel) (base : Option U32) (s : State) : State :=
  { s with comp := { s.comp with canvas := canvas, restoreFrom := base } }

/-- The two ends of an image block whose registers are loaded in `s`: an error, or its frame delivered
(44_compositor.md R135, R141, R145). -/
inductive State.ImageEnds (s : State) : State → Prop where
  | fails {t : State} : s.Fails t → s.ImageEnds t
  | frame (canvas : List Pixel) (base : Option U32) :
      canvas.length = s.comp.canvas.length → s.TracksTo base →
      s.comp.frameCount.toNat < s.params.maxFrames →
      s.ImageEnds (s.painted canvas base).deliver.recordPrevious.endImage

theorem State.trackRestore_base (s : State) : s.TracksTo s.trackRestore.comp.restoreFrom := by
  unfold State.trackRestore
  split
  · rename_i h
    exact .inr ⟨h.1, rfl⟩
  · exact .inl rfl

/-- An image block whose units stand elsewhere, on another canvas of the same size, has the same ends. -/
theorem State.ImageEnds.of_canvas {s t : State} (canvas : List Pixel) (xs : List Sym)
    (hl : canvas.length = s.comp.canvas.length)
    (h : State.ImageEnds { s with idx := xs, comp := { s.comp with canvas := canvas } } t) :
    s.ImageEnds t := by
  cases h with
  | fails h => exact .fails (h.of_same rfl rfl rfl)
  | frame painted base hlen hbase hroom => exact .frame painted base (hlen.trans hl) hbase hroom

theorem State.deliverAndRecord_ends {s : State} {canvas : List Pixel} {base : Option U32}
    (hl : canvas.length = s.comp.canvas.length)
    (hb : s.TracksTo base) : s.ImageEnds (s.painted canvas base).deliverAndRecord := by
  unfold State.deliverAndRecord
  split
  · exact .frame canvas base hl hb ‹_›
  · exact .fails ((State.raise_fails _ (by nofun)).of_same rfl rfl rfl)

theorem State.composite_ends (s : State) : s.ImageEnds s.composite := by
  have hfail {e : DecodeError} (he : e ≠ .sourceError) : s.Fails (s.trackRestore.raise e) := by
    rw [State.trackRestore_eq]
    exact (State.raise_fails _ he).of_same rfl rfl rfl
  rcases s.composite_cases with ⟨-, h⟩ | ⟨table, len, -, ⟨v, -, h⟩ | ⟨canvas, hpaint, h⟩⟩
  · rw [h]
    exact .fails (hfail nofun)
  · rw [h]
    exact .fails (hfail nofun)
  · rw [h, State.trackRestore_eq]
    exact State.deliverAndRecord_ends (paintFrom_length hpaint) s.trackRestore_base

theorem State.disposePrevious_canvas_length (s : State) :
    s.disposePrevious.comp.canvas.length = s.comp.canvas.length := by
  unfold State.disposePrevious State.restorePrevious
  split
  · exact clearRegion_length _ _ _ _ _ _
  · split
    · exact clearRegion_length _ _ _ _ _ _
    · exact copyRegion_length _ _ _ _ _ _ _ _
  · rfl

theorem State.compositeAll_ends (s : State) : s.ImageEnds s.compositeAll := by
  unfold State.compositeAll
  split
  · exact s.composite_ends
  · refine .of_canvas _ s.idx s.disposePrevious_canvas_length ?_
    have h := s.disposePrevious.composite_ends
    rwa [← State.disposePrevious_eq]

/-- The ends of an image block (42_block_parser.md R128, R129). -/
theorem State.imagePass_ends (op : ImageOp) (s : State) :
    (s.loadImage op).ImageEnds (s.imagePass op) := by
  by_cases h : (s.loadImage op).params.maxImagePixels < (s.loadImage op).img.pixels
  · simp only [State.imagePass, if_pos h]
    exact .fails (State.raise_fails _ (by nofun))
  · rw [State.imagePass_of_fits h]
    cases hd : lzwDecode s.draws op.minCode op.data.flatten (s.loadImage op).img.pixels with
    | error e => exact .fails (State.raise_fails _ (lzwDecode_error hd))
    | ok out =>
      exact .of_canvas _ _ rfl ((s.loadImage op).withIdx out).compositeAll_ends

/-! ### What one engine step can do (45_decoder.md R152) -/

/-- `blk_start` while the block at the cursor runs (42_block_parser.md R116, R118). -/
def State.blockOffset (s : State) : U32 :=
  match s.ctl.phase with
  | .atHeader => 0
  | .atBlock => s.cur.pos

/-- The state in which a block runs whose decoding leaves the stream bytes `rest`
(40_bitstream.md R89; 42_block_parser.md R116, R118). -/
def State.fetched (rest : List Byte) (s : State) : State :=
  { s with
    cur :=
      { s.cur with
        blkStart := s.blockOffset
        pos := BitVec.ofNat 32 (s.cur.pos.toNat + (s.streamRest.length - rest.length)) }
    hostq := s.hostq.tail }

/-- What an engine step from a block boundary can leave: the state at rest, an error, or the effect of
one whole block (10_state.md R19; 42_block_parser.md R115 to R130; 45_decoder.md R150, R152). -/
inductive State.EngineMove (s : State) : State → Prop where
  | rest : s.ctl.run ≠ .busy → s.EngineMove { s with hostq := s.hostq.tail }
  | fails {t : State} : s.ctl.run = .busy → s.Fails t → s.EngineMove t
  | header (op : HeaderOp) (rest : List Byte) : s.AtBoundary → s.ctl.phase = .atHeader →
      Spells s.streamRest rest (.header op) →
      op.width.toNat * op.height.toNat ≤ s.params.maxCanvasPixels →
      s.EngineMove (((s.fetched rest).loadHeader op).openScreen op)
  | extension (gce : Gce) (loopCount : U16) (loopValid : Bool) (kind : EventKind) (label : Byte)
      (off len : Nat) (rest : List Byte) : s.AtBoundary → s.ctl.phase = .atBlock →
      rest.length < s.streamRest.length →
      s.EngineMove (State.emit kind label off len
        { s.fetched rest with
          gce := gce, outp := { s.outp with loopCount := loopCount, loopValid := loopValid } })
  | image (op : ImageOp) (canvas : List Pixel) (base : Option U32) (rest : List Byte) :
      s.AtBoundary → s.ctl.phase = .atBlock → Spells s.streamRest rest (.image op) →
      canvas.length = s.comp.canvas.length → s.TracksTo base →
      s.comp.frameCount.toNat < s.params.maxFrames →
      s.EngineMove
        (((s.fetched rest).loadImage op).painted canvas base).deliver.recordPrevious.endImage
  | trailer (rest : List Byte) : s.AtBoundary → s.ctl.phase = .atBlock →
      decodeBlock s.streamRest = .ok (.trailer, rest) →
      s.EngineMove ((s.fetched rest).emit .trailer 0 0 0).commit

theorem State.streamRest_length_lt (s : State) : s.streamRest.length < 2 ^ 32 := by
  rw [State.streamRest_length]
  omega

/-- The stream from the cursor on does not depend on `blk_start` or on the pending actions. -/
theorem State.streamRest_blkStart (n : U32) (q : List HostAction) (s : State) :
    State.streamRest { s with cur := { s.cur with blkStart := n }, hostq := q } = s.streamRest := rfl

/-- The header step runs the block that decodes at offset 0 (42_block_parser.md R115, R116). -/
theorem step_of_headerDecoded {s : State} {i : Instr} {rest : List Byte} (hb : s.AtBoundary)
    (hp : s.ctl.phase = .atHeader) (hd : decodeHeader s.streamRest = .ok (i, rest)) :
    step s = exec i (s.fetched rest) := by
  rw [step_of_boundary hb, hp]
  simp only [State.fetchHeader, State.streamRest_blkStart, hd, Fetched.outcome, State.fetched,
    State.blockOffset, hp]
  rfl

/-- The block step runs the block that decodes at the cursor (42_block_parser.md R118). -/
theorem step_of_blockDecoded {s : State} {i : Instr} {rest : List Byte} (hb : s.AtBoundary)
    (hp : s.ctl.phase = .atBlock) (hd : decodeBlock s.streamRest = .ok (i, rest)) :
    step s = exec i (s.fetched rest) := by
  rw [step_of_boundary hb, hp]
  simp only [State.fetchBlock, State.streamRest_blkStart, hd, Fetched.outcome, State.fetched,
    State.blockOffset, hp]
  rfl

/-- A header cut short is an error entry (40_bitstream.md R89). -/
theorem step_of_headerCut {s : State} {e : Short} (hb : s.AtBoundary)
    (hp : s.ctl.phase = .atHeader) (hd : decodeHeader s.streamRest = .error e) :
    ∃ t, step s = .next t ∧ s.Fails t := by
  rw [step_of_boundary hb, hp]
  simp only [State.fetchHeader, State.streamRest_blkStart, hd, Fetched.outcome]
  exact ⟨_, rfl, (State.raise_fails _ (by nofun)).of_same rfl rfl rfl⟩

theorem State.cutBlock_fails (e : Short) (s : State) : s.Fails (s.cutBlock e) := by
  unfold State.cutBlock
  split <;> exact (State.raise_fails _ (by nofun)).of_same rfl rfl rfl

/-- Any other block cut short is an error entry (40_bitstream.md R89). -/
theorem step_of_blockCut {s : State} {e : Short} (hb : s.AtBoundary)
    (hp : s.ctl.phase = .atBlock) (hd : decodeBlock s.streamRest = .error e) :
    ∃ t, step s = .next t ∧ s.Fails t := by
  rw [step_of_boundary hb, hp]
  simp only [State.fetchBlock, State.streamRest_blkStart, hd, Fetched.outcome]
  exact ⟨_, rfl, (State.cutBlock_fails e _).of_same rfl rfl rfl⟩

theorem State.fetched_fails {s t : State} {rest : List Byte} (h : (s.fetched rest).Fails t) :
    s.Fails t := h.of_same rfl rfl rfl

/-- What the header step leaves (42_block_parser.md R115, R116, R117). -/
theorem State.engineMove_of_header {s t : State} (hb : s.AtBoundary) (hp : s.ctl.phase = .atHeader)
    (h : step s = .next t) : s.EngineMove t := by
  cases hd : decodeHeader s.streamRest with
  | error e =>
    obtain ⟨t', ht, hf⟩ := step_of_headerCut hb hp hd
    obtain rfl : t' = t := by simpa [ht] using h
    exact .fails hb.turn.1 hf
  | ok r =>
    obtain ⟨i, rest⟩ := r
    rw [step_of_headerDecoded hb hp hd] at h
    obtain ⟨hspell, hrow⟩ := decodeHeader_spells hd
    cases i with
    | header op =>
      simp only [exec, execHeader] at h
      split at h
      · cases h
        exact .fails hb.turn.1 ((State.raise_fails _ (by nofun)).of_same rfl rfl rfl)
      · cases h
        exact .header op rest hb hp hspell (Nat.not_lt.1 ‹_›)
    | badSignature s0 s1 s2 =>
      cases h
      exact .fails hb.turn.1 (State.fetched_fails (State.raise_fails _ (by nofun)))
    | _ => cases hrow

/-- What the block step leaves (42_block_parser.md R118 to R130). -/
theorem State.engineMove_of_block {s t : State} (hb : s.AtBoundary) (hp : s.ctl.phase = .atBlock)
    (h : step s = .next t) : s.EngineMove t := by
  cases hd : decodeBlock s.streamRest with
  | error e =>
    obtain ⟨t', ht, hf⟩ := step_of_blockCut hb hp hd
    obtain rfl : t' = t := by simpa [ht] using h
    exact .fails hb.turn.1 hf
  | ok r =>
    obtain ⟨i, rest⟩ := r
    rw [step_of_blockDecoded hb hp hd] at h
    obtain ⟨hspell, hrow⟩ := decodeBlock_spells hd
    have hlt := hspell.rest_lt
    cases i with
    | extGce op => cases h; exact .extension _ _ _ _ _ _ _ rest hb hp hlt
    | extComment data => cases h; exact .extension _ _ _ _ _ _ _ rest hb hp hlt
    | extPlaintext size hdr data => cases h; exact .extension _ _ _ _ _ _ _ rest hb hp hlt
    | extAppNetscape op => cases h; exact .extension _ _ _ _ _ _ _ rest hb hp hlt
    | extApp op => cases h; exact .extension _ _ _ _ _ _ _ rest hb hp hlt
    | extUnknown label data => cases h; exact .extension _ _ _ _ _ _ _ rest hb hp hlt
    | trailer => cases h; exact .trailer rest hb hp hd
    | illegalSentinel b =>
      cases h
      exact .fails hb.turn.1 (State.fetched_fails (State.raise_fails _ (by nofun)))
    | image op =>
      have hlen : op.data.flatten.length < 2 ^ 32 :=
        Nat.lt_of_le_of_lt hspell.payload_le s.streamRest_length_lt
      have ht : (s.fetched rest).imagePass op = t := by
        rw [← State.imageStep_eq_imagePass _ hlen]
        exact Host.Outcome.next.inj h
      cases ht ▸ State.imagePass_ends op (s.fetched rest) with
      | fails hf => exact .fails hb.turn.1 (hf.of_same rfl rfl rfl)
      | frame canvas base hl hbase hroom =>
        exact .image op canvas base rest hb hp hspell hl hbase hroom
    | header op => cases hrow
    | badSignature s0 s1 s2 => cases hrow
    | _ =>
      obtain ⟨-, w, he, -⟩ := hspell
      cases he

/-- What an engine step from a block boundary leaves (45_decoder.md R150, R152). -/
theorem State.engineMove_of_step {s t : State} (hu : s.unit = .parser) (hq : s.EngineNext)
    (h : step s = .next t) : s.EngineMove t := by
  by_cases hr : s.ctl.run = .busy
  · cases hc : s.ctl.cancel with
    | true =>
      rw [step_of_cancelled hu ⟨hr, hq⟩ hc] at h
      cases h
      exact .fails hr ((State.raise_fails _ (by nofun)).of_same rfl rfl rfl)
    | false =>
      have hb : s.AtBoundary := ⟨⟨hr, hq⟩, hu, hc⟩
      cases hp : s.ctl.phase with
      | atHeader => exact State.engineMove_of_header hb hp h
      | atBlock => exact State.engineMove_of_block hb hp h
  · rw [step_of_rest hr hq] at h
    cases h
    exact .rest hr

/-! ### What one host action can do (45_decoder.md R158) -/

/-- What a host action at a block boundary can leave, `q` being the actions after it. A read, and a write
that nothing heeds, change only what the host holds (10_state.md R17, R22; 20_memory.md R47, R49;
45_decoder.md R148, R158; 70_reset_and_hazards.md R175). -/
inductive State.HostMove (s : State) (q : List HostAction) : State → Prop where
  | hostSide (rdata : List Byte) (draws : Nat) :
      s.HostMove q { s with hostq := q, rdata := rdata, draws := draws }
  | reset : s.hostq = .hwReset :: q → s.HostMove q (State.hwReset { s with hostq := q })
  | store (a : Nat) (data : List Byte) : s.ctl.run ≠ .busy →
      s.HostMove q { s with hostq := q, inMem := memWrite s.inMem a data }
  | inLen (v : U32) : s.ctl.run ≠ .busy →
      s.HostMove q { s with hostq := q, cur := { s.cur with inLen := v } }
  | ctrl (v : U32) : (v.getLsbD 0 = true → s.StartComing) →
      s.HostMove q (State.ctrlWrite v { s with hostq := q })

theorem State.dataRead_next {s t : State} {win : Window} {addr n : Nat}
    (h : s.dataRead win addr n = .next t) :
    ∃ d, t = { s with rdata := d, draws := s.draws + 1 } := by
  unfold State.dataRead at h
  split at h
  · split at h
    · cases h
      exact ⟨_, rfl⟩
    · cases h
  · cases h

theorem State.csrRead_next {s t : State} {addr n : Nat} (h : s.csrRead addr n = .next t) :
    ∃ d, t = { s with rdata := d } := by
  unfold State.csrRead at h
  split at h
  · split at h
    · cases h
      exact ⟨_, rfl⟩
    · cases h
  · cases h

/-- A host read leaves its data and changes nothing else of the machine (20_memory.md R47, R49; log 3,
log 7). -/
theorem State.hostRead_next {s t : State} {win : Window} {addr n : Nat}
    (h : s.hostRead win addr n = .next t) : ∃ d k, t = { s with rdata := d, draws := k } := by
  have hdata {w : Window} (h : s.dataRead w addr n = .next t) :
      ∃ d k, t = { s with rdata := d, draws := k } := by
    obtain ⟨d, rfl⟩ := State.dataRead_next h
    exact ⟨d, _, rfl⟩
  cases win with
  | inMem => exact hdata h
  | csr =>
    obtain ⟨d, rfl⟩ := State.csrRead_next h
    exact ⟨d, s.draws, rfl⟩
  | frameMem => exact hdata h
  | delayMem => exact hdata h
  | evtMem =>
    simp only [State.hostRead] at h
    split at h
    · exact hdata h
    · cases h

theorem State.resultWrite_next {s t : State} {win : Window} {addr n : Nat}
    (h : s.resultWrite win addr n = .next t) : t = s := by
  unfold State.resultWrite at h
  split at h
  · exact (Host.Outcome.next.inj h).symm
  · cases h

theorem State.inMemWrite_next {s t : State} {addr : Nat} {data : List Byte}
    (h : s.inMemWrite addr data = .next t) :
    s.ctl.run ≠ .busy ∧
      t = { s with inMem := memWrite s.inMem (addr - s.params.base .inMem) data } := by
  unfold State.inMemWrite at h
  split at h
  · cases h
  · split at h
    · exact ⟨‹_›, (Host.Outcome.next.inj h).symm⟩
    · cases h

/-- A CSR write that carries no CTRL word acts on IN_LEN or on nothing (20_memory.md R47, R48). -/
theorem State.hostMove_of_csrStore {s : State} {off : Nat} (v : U32) (q : List HostAction)
    (h : off ≠ 0) : s.HostMove q (State.csrStore off v { s with hostq := q }) := by
  unfold State.csrStore
  rw [if_neg h]
  split
  · unfold State.writeInLen
    split
    · exact .hostSide _ _
    · exact .inLen v ‹_›
  · exact .hostSide _ _

/-- A CSR write that goes on has the form of R47, at the window's base or above (20_memory.md R47). -/
theorem State.csrWrite_next {s t : State} {addr : Nat} {data : List Byte}
    (h : s.csrWrite addr data = .next t) :
    csrForm s.params addr data.length = true ∧ s.params.csrBase ≤ addr ∧
      t = s.csrStore (addr - s.params.csrBase) (ofBytesLE data) := by
  unfold State.csrWrite at h
  split at h
  · split at h
    · rename_i hform hwin
      cases h
      exact ⟨hform, (of_decide_eq_true hwin).1, rfl⟩
    · cases h
  · cases h

theorem State.hostMove_of_write {s t : State} {win : Window} {addr : Nat} {data : List Byte}
    {q : List HostAction} (hc : ctrlWordOf s.params win addr data = none)
    (h : State.hostWrite win addr data { s with hostq := q } = .next t) : s.HostMove q t := by
  have hignored {w : Window} {n : Nat}
      (h : State.resultWrite w addr n { s with hostq := q } = .next t) : s.HostMove q t := by
    obtain rfl := State.resultWrite_next h
    exact .hostSide _ _
  cases win with
  | inMem =>
    obtain ⟨hr, rfl⟩ := State.inMemWrite_next h
    exact .store _ data hr
  | csr =>
    obtain ⟨hform, hbase, rfl⟩ := State.csrWrite_next h
    refine State.hostMove_of_csrStore _ q fun h0 => ?_
    have haddr : addr = s.params.csrBase := Nat.le_antisymm (Nat.sub_eq_zero_iff_le.1 h0) hbase
    have hlen : data.length = 4 := (of_decide_eq_true hform).1
    rw [haddr, ctrlWordOf_ctrl hlen] at hc
    cases hc
  | frameMem => exact hignored h
  | delayMem => exact hignored h
  | evtMem => exact hignored h

theorem ctrlWordOf_eq_some {p : Params} {win : Window} {addr : Nat} {data : List Byte} {v : U32}
    (h : ctrlWordOf p win addr data = some v) :
    win = .csr ∧ addr = p.csrBase ∧ data.length = 4 ∧ v = ofBytesLE data := by
  unfold ctrlWordOf at h
  split at h
  · rename_i hw
    obtain ⟨hwin, hform, haddr⟩ := hw
    exact ⟨hwin, haddr, (of_decide_eq_true hform).1, by simpa using h.symm⟩
  · cases h

theorem decodeCtrl_some {v : U32} {i : Instr} (h : decodeCtrl v = some i) :
    i = .ctrlStart v ∨ i = .ctrlCancel v ∨ i = .ctrlIrqEn v ∨ i = .ctrlIrqAck v := by
  unfold decodeCtrl at h
  split at h
  · exact .inl (Option.some.inj h).symm
  · split at h
    · exact .inr (.inl (Option.some.inj h).symm)
    · split at h
      · exact .inr (.inr (.inl (Option.some.inj h).symm))
      · split at h
        · exact .inr (.inr (.inr (Option.some.inj h).symm))
        · cases h

/-- Every CTRL row runs the whole word (45_decoder.md R148; log 12). -/
theorem exec_decodeCtrl {v : U32} {i : Instr} (h : decodeCtrl v = some i) (s : State) :
    exec i s = .next (s.ctrlWrite v) := by
  rcases decodeCtrl_some h with rfl | rfl | rfl | rfl <;> rfl

/-- A host write at CTRL does what R148 says of its word, whatever row the word is
(45_decoder.md R148; log 12). -/
theorem step_of_ctrlWord {s t : State} {win : Window} {addr : Nat} {data : List Byte}
    {q : List HostAction} {v : U32} (ht : s.HostTurn (.write win addr data) q)
    (hc : ctrlWordOf s.params win addr data = some v) (h : step s = .next t) :
    t = State.ctrlWrite v { s with hostq := q } := by
  cases hi : decodeCtrl v with
  | none =>
    rw [step_of_noCommand ht hc hi] at h
    obtain ⟨rfl, rfl, -, rfl⟩ := ctrlWordOf_eq_some hc
    obtain ⟨-, -, rfl⟩ := State.csrWrite_next h
    simp only [Nat.sub_self, State.csrStore, if_true]
  | some i =>
    rw [step_of_command ht hc hi, exec_decodeCtrl hi] at h
    exact (Host.Outcome.next.inj h).symm

/-- What a host action at a block boundary leaves (45_decoder.md R152, R158). -/
theorem State.hostMove_of_step {s t : State} {a : HostAction} {q : List HostAction}
    (ha : a ≠ .engineTurn) (ht : s.HostTurn a q) (h : step s = .next t) : s.HostMove q t := by
  cases a with
  | read win addr n =>
    rw [step_of_read ht] at h
    obtain ⟨d, k, rfl⟩ := State.hostRead_next h
    exact .hostSide d k
  | write win addr data =>
    cases hc : ctrlWordOf s.params win addr data with
    | none => exact State.hostMove_of_write hc (step_of_write ht hc ▸ h)
    | some v =>
      obtain rfl := step_of_ctrlWord ht hc h
      obtain ⟨rfl, rfl, -, -⟩ := ctrlWordOf_eq_some hc
      exact .ctrl v fun h0 => ⟨data, q, v, ht, hc, h0⟩
  | hwReset =>
    rw [step_of_hwReset ht] at h
    cases h
    exact .reset ht.next
  | engineTurn => exact absurd rfl ha

/-- What one step from a block boundary leaves, by the agent that moves (45_decoder.md R152; log 2). -/
theorem step_moves {s t : State} (hu : s.unit = .parser) (h : step s = .next t) :
    (s.EngineNext ∧ s.EngineMove t) ∨ ∃ a q, s.hostq = a :: q ∧ s.HostMove q t := by
  have hengine (hq : s.EngineNext) : s.EngineNext ∧ s.EngineMove t :=
    ⟨hq, State.engineMove_of_step hu hq h⟩
  cases hq : s.hostq with
  | nil => exact .inl (hengine (.inl hq))
  | cons a q =>
    by_cases ha : a = .engineTurn
    · exact .inl (hengine (.inr ⟨q, ha ▸ hq⟩))
    · exact .inr ⟨a, q, rfl, State.hostMove_of_step ha ⟨hq, fun _ => hu⟩ h⟩

end Sys2Proof.Machine

end

/-! ## The invariant

Each effect that `State.EngineMove` and `State.HostMove` list keeps `State.Inv`. -/

section

namespace Sys2Proof.Machine

/-! ### Host moves keep the invariant -/

/-- Error entry ends in a state that meets the invariant (60_exceptions.md R162). -/
theorem State.Fails.inv {s t : State} (h : s.Fails t) (hm : Memory.wf s.inMem = true)
    (he : s.outp.events.length = s.outp.evtCount.toNat ∧
      s.outp.evtCount.toNat ≤ s.params.maxEvents) : t.Inv := by
  have hb : t.ctl.run ≠ .busy := by rw [h.run]; nofun
  have hi : t.ctl.run ≠ .idle := by rw [h.run]; nofun
  exact
    { parser := h.unit
      memory := by rw [h.inMem]; exact hm
      noPend := fun h0 => (h0.elim hi hb).elim
      noError := fun h0 => absurd h.run h0
      errorKind := fun _ => h.code
      cursor := fun h0 => absurd h0 hb
      beforeHeader := fun h0 => absurd h0 hb
      counts := fun h0 => absurd h0 hb
      tables := fun h0 => absurd h.run h0
      canvas := fun h0 => absurd h0 hb
      frames := fun h0 => absurd h.run h0
      frameSize := fun h0 => absurd h.run h0
      restore := fun h0 => absurd h.run h0
      events := by rw [h.outp, h.params]; exact he }

/-- The invariant says nothing of the host's side, IN_LEN and the memory's contents aside from its form. -/
theorem State.Inv.hostSide {s : State} (h : s.Inv) (q : List HostAction) (d : List Byte) (k : Nat) :
    State.Inv { s with hostq := q, rdata := d, draws := k } := { h with }

theorem State.Inv.store {s : State} (h : s.Inv) (q : List HostAction) (a : Nat) (data : List Byte) :
    State.Inv { s with hostq := q, inMem := memWrite s.inMem a data } :=
  { h with memory := Memory.wf_memWrite h.memory a data }

theorem State.Inv.inLen {s : State} (h : s.Inv) (q : List HostAction) (v : U32) :
    State.Inv { s with hostq := q, cur := { s.cur with inLen := v } } := { h with }

theorem State.hwReset_inv (s : State) : s.hwReset.Inv where
  parser := rfl
  memory := rfl
  noPend _ := rfl
  noError _ := rfl
  errorKind := nofun
  cursor := nofun
  beforeHeader := nofun
  counts := nofun
  tables _ := ⟨rfl, rfl⟩
  canvas := nofun
  frames _ := ⟨rfl, rfl, Nat.zero_le _⟩
  frameSize _ := nofun
  restore _ := nofun
  events := ⟨rfl, Nat.zero_le _⟩

theorem State.start_inv {s : State} (hm : Memory.wf s.inMem = true) : s.start.Inv := by
  rcases Nat.lt_or_ge s.params.inCap s.cur.inLen.toNat with h | h
  · rw [State.start_of_tooLong h]
    exact (State.raise_fails s.startRegs (by nofun)).inv hm ⟨rfl, Nat.zero_le _⟩
  · rw [State.start_of_fits h]
    exact
      { parser := rfl
        memory := hm
        noPend := fun _ => rfl
        noError := fun _ => rfl
        errorKind := nofun
        cursor := fun _ => ⟨Nat.zero_le _, h⟩
        beforeHeader := fun _ _ => ⟨rfl, rfl, rfl⟩
        counts := fun _ => ⟨Nat.zero_le _, Nat.zero_le _⟩
        tables := fun _ => ⟨rfl, rfl⟩
        canvas := nofun
        frames := fun _ => ⟨rfl, rfl, Nat.zero_le _⟩
        frameSize := fun _ => nofun
        restore := fun _ => nofun
        events := ⟨rfl, Nat.zero_le _⟩ }

theorem State.Inv.ctrlWrite {s : State} (h : s.Inv) (v : U32) : (s.ctrlWrite v).Inv := by
  by_cases hv : v.getLsbD 0 = false ∨ s.ctl.run = .busy
  · rw [State.ctrlWrite_of_hold hv]
    refine { h with noPend := fun hr => ?_ }
    have hp : s.ctl.irqPend = false := h.noPend hr
    simp [Ctl.written, hp]
  · obtain ⟨h0, hr⟩ : v.getLsbD 0 = true ∧ s.ctl.run ≠ .busy := by simpa using hv
    rw [State.ctrlWrite_of_start h0 hr]
    exact State.start_inv h.memory

theorem State.HostMove.inv {s t : State} {q : List HostAction} (h : s.Inv) (hm : s.HostMove q t) :
    t.Inv := by
  cases hm with
  | hostSide d k => exact h.hostSide q d k
  | reset => exact State.hwReset_inv _
  | store a data => exact h.store q a data
  | inLen v => exact h.inLen q v
  | ctrl v => exact State.Inv.ctrlWrite (h.hostSide q s.rdata s.draws) v

/-! ### Blocks keep the invariant -/

/-- A decoded block moves the cursor forward, never past the stream's length (10_state.md R24;
45_decoder.md R154). -/
theorem State.fetched_pos {s : State} {rest : List Byte} (h : rest.length < s.streamRest.length) :
    s.cur.pos.toNat < (s.fetched rest).cur.pos.toNat ∧
      (s.fetched rest).cur.pos.toNat ≤ s.cur.inLenL.toNat := by
  have hlen := s.streamRest_length
  have hmax := s.cur.inLenL.isLt
  simp only [State.fetched, BitVec.toNat_ofNat]
  omega

/-- A state in which a block of phase AT_BLOCK runs: the invariant, and a byte before the cursor for the
block's own frame and event (45_decoder.md R154). -/
structure State.InBlock (s : State) : Prop where
  inv : s.Inv
  busy : s.ctl.run = .busy
  phase : s.ctl.phase = .atBlock
  frameRoom : s.comp.frameCount.toNat < s.cur.pos.toNat
  eventRoom : s.outp.evtCount.toNat < s.cur.pos.toNat

theorem State.Inv.fetched {s : State} {rest : List Byte} (h : s.Inv) (hb : s.ctl.run = .busy)
    (hp : s.ctl.phase = .atBlock) (hlt : rest.length < s.streamRest.length) :
    (s.fetched rest).InBlock := by
  obtain ⟨hfwd, hend⟩ := State.fetched_pos hlt
  obtain ⟨hframes, hevents⟩ := h.counts hb
  have hframes' := Nat.lt_of_le_of_lt hframes hfwd
  have hevents' := Nat.lt_of_le_of_lt hevents hfwd
  exact
    { inv :=
        { h with
          cursor := fun _ => ⟨hend, (h.cursor hb).2⟩
          beforeHeader := fun _ h0 => absurd (hp.symm.trans h0) nofun
          counts := fun _ => ⟨hframes'.le, hevents'.le⟩ }
      busy := hb
      phase := hp
      frameRoom := hframes'
      eventRoom := hevents' }

theorem Output.emit_evtCount_le (n : Nat) (r : EventRec) (o : Output) :
    (o.emit n r).evtCount.toNat ≤ o.evtCount.toNat + 1 := by
  unfold Output.emit
  split
  · rw [BitVec.toNat_add]
    exact Nat.mod_le _ _
  · exact Nat.le_succ _

/-- The log lists its events after one more, unless its count would wrap (45_decoder.md R157). -/
theorem Output.emit_events_length {n : Nat} {o : Output} (r : EventRec)
    (hl : o.events.length = o.evtCount.toNat) (hn : o.evtCount.toNat ≤ n)
    (hw : o.evtCount.toNat + 1 < 2 ^ 32) :
    (o.emit n r).events.length = (o.emit n r).evtCount.toNat ∧ (o.emit n r).evtCount.toNat ≤ n := by
  rcases Nat.lt_or_ge o.evtCount.toNat n with h | h
  · have hc : (o.evtCount + 1).toNat = o.evtCount.toNat + 1 := by
      rw [BitVec.toNat_add]
      exact Nat.mod_eq_of_lt hw
    rw [Output.emit_of_room r h]
    simp only [List.length_append, List.length_take, List.length_cons, List.length_nil, hc]
    omega
  · rw [Output.emit_of_full r h]
    exact ⟨hl, hn⟩

theorem State.Inv.emit {s : State} (h : s.Inv) (hp : s.ctl.phase = .atBlock)
    (hroom : s.outp.evtCount.toNat < s.cur.pos.toNat) (kind : EventKind) (label : Byte)
    (off len : Nat) : (s.emit kind label off len).Inv := by
  have hpos := s.cur.pos.isLt
  exact
    { h with
      beforeHeader := fun _ h0 => absurd (hp.symm.trans h0) nofun
      counts := fun hb =>
        ⟨(h.counts hb).1, Nat.le_trans (Output.emit_evtCount_le _ _ _) hroom⟩
      frames := by simpa using h.frames
      frameSize := by simpa using h.frameSize
      events := Output.emit_events_length _ h.events.1 h.events.2 (by omega) }

theorem State.Inv.commit {s : State} (h : s.Inv) (hb : s.ctl.run = .busy) : s.commit.Inv := by
  have hr : s.ctl.run ≠ .error := by rw [hb]; nofun
  exact
    { h with
      noPend := nofun
      noError := fun _ => h.noError hr
      errorKind := nofun
      cursor := nofun
      beforeHeader := nofun
      counts := nofun
      tables := fun _ => h.tables hr
      canvas := nofun
      frames := fun _ => h.frames hr
      frameSize := fun _ => h.frameSize hr
      restore := fun _ => h.restore hr }

/-! ### The image block -/

/-- A table length fits its register (10_state.md R27). -/
theorem toNat_ofNat_tableLen (size : BitVec 3) :
    (BitVec.ofNat 9 (tableLen size)).toNat = tableLen size := by
  revert size
  decide

/-- A table that a descriptor carries lists its valid entries (30_encoding.md R86; 10_state.md R27). -/
theorem length_of_tableOk {flag : Bool} {size : BitVec 3} {t : List Rgb}
    (h : tableOk flag size t = true) :
    (if flag then t else []).length =
      (if flag then BitVec.ofNat 9 (tableLen size) else 0 : BitVec 9).toNat := by
  have hl : t.length = if flag then tableLen size else 0 := of_decide_eq_true h
  cases flag with
  | false => rfl
  | true => exact hl.trans (toNat_ofNat_tableLen size).symm

theorem State.InBlock.loadImage {s : State} {op : ImageOp} (h : s.InBlock)
    (ht : tableOk op.lctFlag op.lctSize op.lct = true) : (s.loadImage op).InBlock :=
  { h with
    inv := { h.inv with tables := fun hr => ⟨(h.inv.tables hr).1, length_of_tableOk ht⟩ } }

theorem State.InBlock.painted {s : State} {canvas : List Pixel} {base : Option U32}
    (h : s.InBlock) (hl : canvas.length = s.comp.canvas.length)
    (hbase : s.TracksTo base) : (s.painted canvas base).InBlock := by
  have hrestore (k : U32) (hk : base = some k) : k.toNat < s.comp.frameCount.toNat := by
    rcases hbase with hb | ⟨hne, hb⟩
    · exact h.inv.restore (by rw [h.busy]; nofun) k (hb ▸ hk)
    · obtain rfl : s.comp.frameCount - 1 = k := Option.some.inj (hb.symm.trans hk)
      bv_omega
  exact
    { h with
      inv :=
        { h.inv with
          canvas := fun hr hp => ⟨hl.trans (h.inv.canvas hr hp).1, (h.inv.canvas hr hp).2⟩
          restore := fun _ => hrestore } }

theorem State.InBlock.deliver_inv {s : State} (h : s.InBlock)
    (hroom : s.comp.frameCount.toNat < s.params.maxFrames) : s.deliver.Inv := by
  have hr : s.ctl.run ≠ .error := by rw [h.busy]; nofun
  obtain ⟨hframes, hdelays, -⟩ := h.inv.frames hr
  have hpos := s.cur.pos.isLt
  have hc : (s.comp.frameCount + 1).toNat = s.comp.frameCount.toNat + 1 :=
    BitVec.toNat_add_of_lt (Nat.lt_of_le_of_lt h.frameRoom hpos)
  exact
    { h.inv with
      beforeHeader := fun _ h0 => absurd (h.phase.symm.trans h0) nofun
      counts := fun _ => ⟨by rw [State.deliver_comp, hc]; exact h.frameRoom, h.eventRoom.le⟩
      frames := fun _ => by
        simp only [State.deliver, List.length_append, List.length_take, List.length_cons,
          List.length_nil, hc]
        omega
      frameSize := fun _ f hf => by
        rcases List.mem_append.1 hf with hf | hf
        · exact h.inv.frameSize hr f (List.mem_of_mem_take hf)
        · rw [List.mem_singleton.1 hf]
          exact (h.inv.canvas h.busy h.phase).1
      restore := fun _ k hk => by
        rw [State.deliver_comp, hc]
        exact Nat.lt_succ_of_lt (h.inv.restore hr k hk) }

theorem State.Inv.recordPrevious {s : State} (h : s.Inv) : s.recordPrevious.Inv := { h with }

theorem State.Inv.endImage {s : State} (h : s.Inv) (hp : s.ctl.phase = .atBlock)
    (hroom : s.outp.evtCount.toNat < s.cur.pos.toNat) : s.endImage.Inv :=
  { h.emit hp hroom .image 0 s.imageDataOff s.img.payload.length with parser := rfl }

/-! ### The header block -/

/-- The state a header leaves before its event: the screen open and phase AT_BLOCK
(42_block_parser.md R116, R117). -/
def State.opened (op : HeaderOp) (s : State) : State :=
  { s.loadHeader op with
    scr := { (s.loadHeader op).scr with w := op.width, h := op.height }
    comp := { s.comp with canvas := blankCanvas (op.width.toNat * op.height.toNat) }
    ctl := { s.ctl with phase := .atBlock } }

theorem State.openScreen_eq (op : HeaderOp) (s : State) :
    (s.loadHeader op).openScreen op = (s.opened op).emit .header 0 0 0 := rfl

/-- The header's effect before its event keeps the invariant: nothing was delivered before it
(10_state.md R20). -/
theorem State.Inv.opened {s : State} {op : HeaderOp} {rest : List Byte} (h : s.Inv)
    (hb : s.ctl.run = .busy) (hp : s.ctl.phase = .atHeader)
    (hlt : rest.length < s.streamRest.length)
    (ht : tableOk op.gctFlag op.gctSize op.gct = true)
    (hcap : op.width.toNat * op.height.toNat ≤ s.params.maxCanvasPixels) :
    ((s.fetched rest).opened op).Inv := by
  have hr : s.ctl.run ≠ .error := by rw [hb]; nofun
  obtain ⟨hfwd, hend⟩ := State.fetched_pos hlt
  obtain ⟨hframes, hevents⟩ := h.counts hb
  obtain ⟨-, hcount, -⟩ := h.beforeHeader hb hp
  have hnone : s.outp.frames = [] :=
    List.eq_nil_of_length_eq_zero ((h.frames hr).1.trans (by rw [hcount]; rfl))
  exact
    { h with
      cursor := fun _ => ⟨hend, (h.cursor hb).2⟩
      beforeHeader := fun _ => nofun
      counts := fun _ => ⟨hframes.trans hfwd.le, hevents.trans hfwd.le⟩
      tables := fun _ => ⟨length_of_tableOk ht, (h.tables hr).2⟩
      canvas := fun _ _ => ⟨List.length_replicate, hcap⟩
      frameSize := fun _ f hf => absurd hf (by
        show f ∉ s.outp.frames
        rw [hnone]
        exact List.not_mem_nil) }

/-! ### Every step keeps the invariant -/

theorem State.EngineMove.inv {s t : State} (h : s.Inv) (hm : s.EngineMove t) : t.Inv := by
  cases hm with
  | rest => exact h.hostSide _ _ _
  | fails _ hf => exact hf.inv h.memory h.events
  | header op rest hb hp hspell hcap =>
    have hlt := hspell.rest_lt
    have ht := (Bool.and_eq_true_iff.1 hspell.1).2
    rw [State.openScreen_eq]
    exact (h.opened hb.turn.1 hp hlt ht hcap).emit rfl
      (Nat.lt_of_le_of_lt (h.counts hb.turn.1).2 (State.fetched_pos hlt).1) _ _ _ _
  | extension gce loopCount loopValid kind label off len rest hb hp hlt =>
    have hin := h.fetched hb.turn.1 hp hlt
    apply State.Inv.emit
    · exact { hin.inv with }
    · exact hp
    · exact hin.eventRoom
  | image op canvas base rest hb hp hspell hl hbase hroom =>
    have ht := (Bool.and_eq_true_iff.1 hspell.1).1
    have hin := ((h.fetched hb.turn.1 hp hspell.rest_lt).loadImage ht).painted hl hbase
    exact (hin.deliver_inv hroom).recordPrevious.endImage hp hin.eventRoom
  | trailer rest hb hp hd =>
    have hin := h.fetched hb.turn.1 hp (decodeBlock_spells hd).1.rest_lt
    exact (hin.inv.emit hp hin.eventRoom _ _ _ _).commit hin.busy

/-- Settles O55: a step is a host action or one engine step, and each of their effects keeps the
invariant. -/
theorem everyStepKeepsTheInvariant : Obligations.EveryStepKeepsTheInvariant := by
  intro s t h hstep
  rcases step_moves h.parser hstep with ⟨-, hm⟩ | ⟨_, _, -, hm⟩
  · exact hm.inv h
  · exact hm.inv h

end Sys2Proof.Machine

end

/-! ## Steps, STATE, delivered frames and the CSR views -/

section

namespace Sys2Proof.Machine

/-! ### The engine never stops -/

/-- Every instruction answers a next state (45_decoder.md R154). -/
theorem exec_goesOn (i : Instr) (s : State) : goesOn (exec i s) := by
  cases i with
  | header op =>
    simp only [exec, execHeader]
    split <;> exact ⟨_, rfl⟩
  | _ => exact ⟨_, rfl⟩

theorem step_of_boundary_goesOn {s : State} (hb : s.AtBoundary) : goesOn (step s) := by
  cases hp : s.ctl.phase with
  | atHeader =>
    cases hd : decodeHeader s.streamRest with
    | error e => exact (step_of_headerCut hb hp hd).imp fun _ h => h.1
    | ok r => exact step_of_headerDecoded hb hp hd ▸ exec_goesOn _ _
  | atBlock =>
    cases hd : decodeBlock s.streamRest with
    | error e => exact (step_of_blockCut hb hp hd).imp fun _ h => h.1
    | ok r => exact step_of_blockDecoded hb hp hd ▸ exec_goesOn _ _

/-- Settles O50: a unit turn, rest, cancellation and a decoded or cut block all answer a next state. -/
theorem theEngineNeverStopsAndRestsUnlessBusy :
    Obligations.TheEngineNeverStopsAndRestsUnlessBusy := by
  intro s hq
  refine ⟨?_, fun hr => step_of_rest hr hq⟩
  by_cases hr : s.ctl.run = .busy
  · by_cases hu : s.unit = .parser
    · cases hc : s.ctl.cancel with
      | true => exact ⟨_, step_of_cancelled hu ⟨hr, hq⟩ hc⟩
      | false => exact step_of_boundary_goesOn ⟨⟨hr, hq⟩, hu, hc⟩
    · exact ⟨_, step_of_inside hr hu⟩
  · exact ⟨_, step_of_rest hr hq⟩

/-! ### Changes of STATE -/

/-- How one step can change STATE and `irq_pend`: not at all, or by one of the causes R19 names
(10_state.md R19; 60_exceptions.md R167). -/
inductive State.RunChange (s t : State) : Prop where
  | keeps : t.ctl.run = s.ctl.run → (s.ctl.irqPend = false → t.ctl.irqPend = false) →
      s.RunChange t
  | resets (q : List HostAction) : s.hostq = .hwReset :: q → t.ctl.run = .idle →
      t.ctl.irqPend = false → s.RunChange t
  | starts : s.StartComing → s.cur.inLen.toNat ≤ s.params.inCap → t.ctl.run = .busy →
      t.ctl.irqPend = false → s.RunChange t
  | startFails : s.StartComing → s.params.inCap < s.cur.inLen.toNat → t.ctl.run = .error →
      t.err = { code := 10, info := 0, pos := 0 } → s.RunChange t
  | commits (rest : List Byte) : s.EngineTurn → s.ctl.cancel = false → s.ctl.phase = .atBlock →
      decodeBlock s.streamRest = .ok (.trailer, rest) → t.ctl.run = .done → s.RunChange t
  | fails : s.EngineTurn → s.Fails t → s.RunChange t

theorem State.EngineMove.runChange {s t : State} (hq : s.EngineNext) (h : s.EngineMove t) :
    s.RunChange t := by
  cases h with
  | rest => exact .keeps rfl id
  | fails hr hf => exact .fails ⟨hr, hq⟩ hf
  | header => exact .keeps rfl id
  | extension => exact .keeps rfl id
  | image => exact .keeps rfl id
  | trailer rest hb hp hd => exact .commits rest hb.turn hb.notCancelled hp hd rfl

theorem State.runChange_of_ctrlWrite {s : State} {v : U32} {q : List HostAction}
    (hs : v.getLsbD 0 = true → s.StartComing) :
    s.RunChange (State.ctrlWrite v { s with hostq := q }) := by
  by_cases hv : v.getLsbD 0 = false ∨ s.ctl.run = .busy
  · rw [State.ctrlWrite_of_hold (s := { s with hostq := q }) hv]
    refine .keeps rfl fun hp => ?_
    simp [Ctl.written, hp]
  · obtain ⟨h0, hr⟩ : v.getLsbD 0 = true ∧ s.ctl.run ≠ .busy := by simpa using hv
    rw [State.ctrlWrite_of_start (s := { s with hostq := q }) h0 hr]
    rcases Nat.lt_or_ge s.params.inCap s.cur.inLen.toNat with h | h
    · rw [State.start_of_tooLong (by exact h)]
      exact .startFails (hs h0) h rfl rfl
    · rw [State.start_of_fits (by exact h)]
      exact .starts (hs h0) h rfl rfl

theorem State.HostMove.runChange {s t : State} {q : List HostAction} (h : s.HostMove q t) :
    s.RunChange t := by
  cases h with
  | hostSide => exact .keeps rfl id
  | reset hq => exact .resets q hq rfl rfl
  | store => exact .keeps rfl id
  | inLen => exact .keeps rfl id
  | ctrl v hs => exact State.runChange_of_ctrlWrite hs

theorem step_runChange {s t : State} (hu : s.unit = .parser) (h : step s = .next t) :
    s.RunChange t := by
  rcases step_moves hu h with ⟨hq, hm⟩ | ⟨_, _, -, hm⟩
  · exact hm.runChange hq
  · exact hm.runChange

/-- Settles O52: each kind of step changes STATE and `irq_pend` in one of the ways `RunChange` lists. -/
theorem stateChangesOnlyAsR19Says : Obligations.StateChangesOnlyAsR19Says := by
  intro s t hu h
  cases step_runChange hu h with
  | keeps hrun hirq => exact ⟨fun hne => absurd hrun hne, fun h0 h1 => by simp [hirq h0] at h1⟩
  | resets q hq hrun hirq => simp [hrun, hirq, hq]
  | starts hs hfit hrun hirq => simp [hrun, hirq, hs, hfit]
  | startFails hs hlong hrun herr => simp [hrun, hs, hlong, herr]
  | commits rest ht hc hp hd hrun => simp [hrun, ht, hc, hp, hd]
  | fails ht hf =>
    obtain ⟨hlow, hhigh, hsix⟩ := hf.code
    exact ⟨fun _ => by simpa [hf.run, ht] using .inl ⟨hlow, hhigh, hsix⟩,
      fun _ _ => .inr ⟨hf.run, .inl ht⟩⟩

/-! ### Delivered frames -/

/-- `t` holds every frame and delay that `s` holds, at the same place (10_state.md R36). -/
def State.KeepsFrames (s t : State) : Prop :=
  s.comp.frameCount.toNat ≤ t.comp.frameCount.toNat ∧
    ∀ k, k < s.comp.frameCount.toNat →
      t.outp.frames[k]? = s.outp.frames[k]? ∧ t.outp.delays[k]? = s.outp.delays[k]?

theorem State.KeepsFrames.of_eq {s t : State} (hc : t.comp.frameCount = s.comp.frameCount)
    (hf : t.outp.frames = s.outp.frames) (hd : t.outp.delays = s.outp.delays) :
    s.KeepsFrames t :=
  ⟨(congrArg BitVec.toNat hc).ge, fun k _ => ⟨by rw [hf], by rw [hd]⟩⟩

/-- Delivery appends the new frame after the delivered ones (44_compositor.md R145). -/
theorem State.InBlock.keepsFrames_deliver {s : State} (h : s.InBlock) :
    s.KeepsFrames s.deliver := by
  obtain ⟨hframes, hdelays, -⟩ := h.inv.frames (by rw [h.busy]; nofun)
  have hroom := h.frameRoom
  have hpos := s.cur.pos.isLt
  refine ⟨?_, fun k hk => ?_⟩
  · rw [State.deliver_comp]
    bv_omega
  · simp only [State.deliver]
    rw [List.take_of_length_le hframes.le, List.take_of_length_le hdelays.le,
      List.getElem?_append_left (by omega), List.getElem?_append_left (by omega)]
    exact ⟨rfl, rfl⟩

theorem State.endImage_outp_frames (s : State) :
    s.endImage.outp.frames = s.outp.frames ∧ s.endImage.outp.delays = s.outp.delays :=
  ⟨Output.emit_frames _ _ _, Output.emit_delays _ _ _⟩

theorem State.EngineMove.keepsFrames {s t : State} (h : s.Inv) (hm : s.EngineMove t)
    (ht : t.ctl.run ≠ .error) : s.KeepsFrames t := by
  cases hm with
  | rest => exact .of_eq rfl rfl rfl
  | fails _ hf => exact absurd hf.run ht
  | header => exact .of_eq rfl (Output.emit_frames _ _ _) (Output.emit_delays _ _ _)
  | extension => exact .of_eq rfl (Output.emit_frames _ _ _) (Output.emit_delays _ _ _)
  | image op canvas base rest hb hp hspell hl hbase hroom =>
    have hlct := (Bool.and_eq_true_iff.1 hspell.1).1
    have hin := ((h.fetched hb.turn.1 hp hspell.rest_lt).loadImage hlct).painted hl hbase
    obtain ⟨hcount, hkeep⟩ := hin.keepsFrames_deliver
    refine ⟨hcount, fun k hk => ?_⟩
    rw [(State.endImage_outp_frames _).1, (State.endImage_outp_frames _).2]
    exact hkeep k hk
  | trailer => exact .of_eq rfl (Output.emit_frames _ _ _) (Output.emit_delays _ _ _)

/-- Settles O58: only an image adds a frame, after those delivered. -/
theorem deliveredFramesAreImmutable : Obligations.DeliveredFramesAreImmutable := by
  intro s t h hturn hstep ht
  exact (State.engineMove_of_step h.parser hturn.2 hstep).keepsFrames h ht

/-! ### Host reads of the CSRs -/

theorem State.csrRead_of_offset {s : State} {off : Nat} (h4 : off % 4 = 0) (hlt : off < 0x40) :
    s.csrRead (s.params.csrBase + off) 4 = .next { s with rdata := wordLE (s.csrWord off) } := by
  have hmod : (s.params.csrBase + off) % 4 = s.params.csrBase % 4 := by omega
  have hend : s.params.csrBase + off + 4 ≤ s.params.csrBase + 0x40 := by omega
  have hform : csrForm s.params (s.params.csrBase + off) 4 = true := decide_eq_true ⟨rfl, hmod⟩
  have hwin : inWindow s.params .csr (s.params.csrBase + off) 4 = true :=
    decide_eq_true ⟨Nat.le_add_right _ _, hend⟩
  simp only [State.csrRead, if_pos hform, if_pos hwin, Params.base, Nat.add_sub_cancel_left]

/-- Reserved offsets read 0 (10_state.md R17). -/
theorem State.csrWord_reserved {s : State} {off : Nat} (h : 0x28 ≤ off) : s.csrWord off = 0 := by
  unfold State.csrWord
  repeat rw [if_neg (by omega)]

theorem State.finished_eq_true {s : State} (h : s.ctl.run = .done ∨ s.ctl.run = .error) :
    s.finished = true := decide_eq_true h

theorem State.finished_eq_false {s : State} (h : s.ctl.run = .idle ∨ s.ctl.run = .busy) :
    s.finished = false := by
  rcases h with h | h <;> simp [State.finished, h]

/-- Settles O42: the word read is `csrWord`, whose views STATE opens. -/
theorem csrReadsAreGatedViews : Obligations.CsrReadsAreGatedViews := by
  intro s off q h4 hlt ht
  refine ⟨s.csrWord off, (step_of_read ht).trans (State.csrRead_of_offset h4 hlt),
    by rintro rfl; rfl, by rintro rfl; rfl, by rintro rfl; rfl, by rintro rfl; rfl,
    by rintro rfl; rfl, by rintro rfl; rfl, by rintro rfl; rfl, fun hopen => ?_, fun hshut => ?_,
    State.csrWord_reserved⟩
  · have hf := State.finished_eq_true hopen
    exact ⟨by rintro rfl; exact if_pos hf, by rintro rfl; exact if_pos hf,
      by rintro rfl; exact if_pos hf⟩
  · have hf : ¬ s.finished = true := by simp [State.finished_eq_false hshut]
    rintro (rfl | rfl | rfl)
    · exact if_neg hf
    · exact if_neg hf
    · exact if_neg hf

/-! ### STATUS and CTRL -/

/-- The fields of a STATUS word (10_state.md R17). -/
theorem status_fields (r : RunState) (pend ovf loop : Bool) :
    let w := BitVec.ofNat 32 (r.code + 4 * pend.toNat + 8 * ovf.toNat + 16 * loop.toNat)
    w.toNat % 4 = r.code ∧ w.getLsbD 2 = pend ∧ w.getLsbD 3 = ovf ∧ w.getLsbD 4 = loop ∧
      w.toNat < 32 := by
  cases r <;> revert pend ovf loop <;> decide

/-- The fields of a CTRL word as read (10_state.md R17). -/
theorem ctrl_fields (cancel en : Bool) :
    let w := BitVec.ofNat 32 (2 * cancel.toNat + 4 * en.toNat)
    w.getLsbD 0 = false ∧ w.getLsbD 1 = cancel ∧ w.getLsbD 2 = en ∧ w.toNat < 8 := by
  revert cancel en
  decide

/-- Settles O43: STATUS and CTRL are the words of their fields. -/
theorem statusAndCtrlBitsShowTheFlags : Obligations.StatusAndCtrlBitsShowTheFlags := by
  intro s
  obtain ⟨hstate, hpend, hovf, hloop, hstatus⟩ :=
    status_fields s.ctl.run s.ctl.irqPend (s.finished && s.outp.evtOvf)
      (s.finished && s.outp.loopValid)
  obtain ⟨hstart, hcancel, hen, hctrl⟩ := ctrl_fields s.ctl.cancel s.ctl.irqEn
  refine ⟨hstate.trans ?_, hpend, hovf, hloop, hstatus, hstart, hcancel, hen, hctrl, rfl⟩
  cases s.ctl.run <;> rfl

/-! ### The block an engine step runs -/

theorem State.fetched_of_header {s : State} (hp : s.ctl.phase = .atHeader) (rest : List Byte) :
    s.fetched rest =
      { s with
        cur :=
          { s.cur with
            blkStart := 0
            pos := BitVec.ofNat 32 (s.cur.pos.toNat + (s.streamRest.length - rest.length)) }
        hostq := s.hostq.tail } := by
  simp only [State.fetched, State.blockOffset, hp]

theorem State.fetched_of_block {s : State} (hp : s.ctl.phase = .atBlock) (rest : List Byte) :
    s.fetched rest =
      { s with
        cur :=
          { s.cur with
            blkStart := s.cur.pos
            pos := BitVec.ofNat 32 (s.cur.pos.toNat + (s.streamRest.length - rest.length)) }
        hostq := s.hostq.tail } := by
  simp only [State.fetched, State.blockOffset, hp]

/-- Settles O48: a decoded block runs in the state `fetched` gives. -/
theorem aStepRunsTheDecodedBlock : Obligations.AStepRunsTheDecodedBlock := by
  intro s i rest
  refine ⟨s.streamRest_length, fun k hk => State.streamRest_get hk, fun hb => ⟨?_, ?_⟩⟩
  · intro hp hd
    rw [step_of_headerDecoded hb hp hd, State.fetched_of_header hp]
  · intro hp hd
    rw [step_of_blockDecoded hb hp hd, State.fetched_of_block hp]

end Sys2Proof.Machine

end

/-! ## Host accesses, what the windows hold, and packed codes -/

section

namespace Sys2Proof.Machine

/-! ### Codes in a packed payload (20_memory.md R44) -/

/-- Bit `i` of a bit list's value is its element `i`. -/
theorem bitsValue_testBit (bs : List Bool) (i : Nat) :
    (bitsValue bs).testBit i = bs[i]?.getD false := by
  induction bs generalizing i with
  | nil => simp [bitsValue]
  | cons b bs ih =>
    have hbit : bitsValue (b :: bs) = Nat.bit b (bitsValue bs) := by
      rw [Nat.bit_val, bitsValue, Nat.add_comm]
    rw [hbit]
    cases i with
    | zero => simp
    | succ i => simpa [Nat.testBit_bit_succ] using ih i

/-- Packed bit `p` is bit `p` of the list; beyond the list it is padding or no payload at all. -/
theorem payloadBit_bitsBytes {n : Nat} {bits : List Bool} (h : bits.length ≤ n) (p : Nat) :
    payloadBit (bitsBytes n bits) p = bits[p]?.getD false := by
  induction n generalizing bits p with
  | zero =>
    obtain rfl := List.eq_nil_of_length_eq_zero (Nat.le_zero.1 h)
    simp [payloadBit, bitsBytes]
  | succ n ih =>
    cases bits with
    | nil => simp [payloadBit, bitsBytes]
    | cons b bs =>
      by_cases hp : p < 8
      · have hdiv : p / 8 = 0 := by omega
        have hmod : p % 8 = p := by omega
        calc payloadBit (bitsBytes (n + 1) (b :: bs)) p
            = (BitVec.ofNat 8 (bitsValue ((b :: bs).take 8))).getLsbD p := by
              simp only [payloadBit, bitsBytes, hdiv, hmod, List.getElem?_cons_zero]
          _ = (b :: bs)[p]?.getD false := by
              rw [BitVec.getLsbD_ofNat, bitsValue_testBit, List.getElem?_take_of_lt hp]
              simp [hp]
      · have hdiv : p / 8 = (p - 8) / 8 + 1 := by omega
        have hmod : p % 8 = (p - 8) % 8 := by omega
        have hback : 8 + (p - 8) = p := by omega
        have hrest : ((b :: bs).drop 8).length ≤ n := by
          simp only [List.length_drop, List.length_cons] at h ⊢
          omega
        calc payloadBit (bitsBytes (n + 1) (b :: bs)) p
            = payloadBit (bitsBytes n ((b :: bs).drop 8)) (p - 8) := by
              simp only [payloadBit, bitsBytes, hdiv, hmod, List.getElem?_cons_succ]
          _ = (b :: bs)[p]?.getD false := by rw [ih hrest, List.getElem?_drop, hback]

/-- A payload that holds the bits of `v` from bit `p` on reads as `v` there. -/
theorem payloadBits_of_testBit {payload : List Byte} {p w v : Nat}
    (h : ∀ i, i < w → payloadBit payload (p + i) = v.testBit i) :
    payloadBits payload p w = v % 2 ^ w := by
  induction w generalizing p v with
  | zero => simp [payloadBits, Nat.mod_one]
  | succ w ih =>
    have hfirst : payloadBit payload p = v.testBit 0 := h 0 (Nat.succ_pos w)
    have hrest : payloadBits payload (p + 1) w = v / 2 % 2 ^ w := ih fun i hi => by
      rw [Nat.add_assoc, Nat.add_comm 1 i, h (i + 1) (Nat.succ_lt_succ hi), Nat.testBit_succ]
    rw [payloadBits, hfirst, hrest, Nat.pow_succ', Nat.mod_mul, Nat.toNat_testBit,
      Nat.pow_zero, Nat.div_one]

/-- Bit `i` of a code stands `i` places after the code's first bit. -/
theorem codeBits_getElem? (pre post : List Bool) (c : Code) {w i : Nat} (h : i < w) :
    (pre ++ codeBits c w ++ post)[pre.length + i]? = some (c.getLsbD i) := by
  have hlen : (codeBits c w).length = w := by simp [codeBits]
  rw [List.append_assoc, List.getElem?_append_right (Nat.le_add_right _ _), Nat.add_sub_cancel_left,
    List.getElem?_append_left (by omega)]
  simp [codeBits, h]

/-- Settles O8: the payload holds the code's bits at its position, and they make up its value. -/
theorem aPackedCodeIsReadBack : Obligations.APackedCodeIsReadBack := by
  intro pre post c w n _ hc hn
  have hbits : ∀ i, i < w →
      payloadBit (bitsBytes n (pre ++ codeBits c w ++ post)) (pre.length + i) =
        c.toNat.testBit i := fun i hi => by
    rw [payloadBit_bitsBytes hn, codeBits_getElem? pre post c hi]
    rfl
  rw [payloadBits_of_testBit hbits, Nat.mod_eq_of_lt hc]

/-! ### Accesses by place and form (20_memory.md R39, R40, R47) -/

theorem inWindow_of_inside {p : Params} {win : Window} {addr n : Nat} (hb : p.base win ≤ addr)
    (he : addr + n ≤ p.base win + p.size win) : inWindow p win addr n = true :=
  decide_eq_true ⟨hb, he⟩

theorem inWindow_of_offset {p : Params} {win : Window} {off n : Nat} (h : off + n ≤ p.size win) :
    inWindow p win (p.base win + off) n = true :=
  inWindow_of_inside (Nat.le_add_right _ _) (by omega)

theorem inWindow_of_outside {p : Params} {win : Window} {addr n : Nat}
    (h : addr < p.base win ∨ p.base win + p.size win < addr + n) :
    inWindow p win addr n = false := decide_eq_false (by omega)

/-- An aligned CSR access is outside the window when its first byte is. -/
theorem inWindow_csr_of_outside {p : Params} {addr : Nat}
    (h : addr < p.csrBase ∨ p.csrBase + 0x40 ≤ addr) : inWindow p .csr addr 4 = false :=
  inWindow_of_outside (h.imp id fun h => by simp only [Params.base, Params.size]; omega)

theorem csrForm_of_word {p : Params} {addr : Nat} (h : addr % 4 = p.csrBase % 4) :
    csrForm p addr 4 = true := decide_eq_true ⟨rfl, h⟩

theorem csrForm_of_other {p : Params} {addr n : Nat} (h : n ≠ 4 ∨ addr % 4 ≠ p.csrBase % 4) :
    csrForm p addr n = false :=
  decide_eq_false fun hf => h.elim (fun hn => hn hf.1) fun ha => ha hf.2

/-! ### CSR accesses (20_memory.md R47) -/

theorem State.csrWrite_of_offset {s : State} {off : Nat} (h4 : off % 4 = 0) (hlt : off < 0x40)
    (v : U32) : s.csrWrite (s.params.csrBase + off) (wordLE v) = .next (s.csrStore off v) := by
  have hlen : (wordLE v).length = 4 := rfl
  have hform : csrForm s.params (s.params.csrBase + off) 4 = true := csrForm_of_word (by omega)
  have hwin : inWindow s.params .csr (s.params.csrBase + off) 4 = true :=
    inWindow_of_offset (by simp only [Params.size]; omega)
  simp only [State.csrWrite, hlen, if_pos hform, if_pos hwin, Params.base, Nat.add_sub_cancel_left,
    ofBytesLE_wordLE]

theorem State.csrWrite_of_otherForm {s : State} {addr : Nat} {data : List Byte}
    (h : data.length ≠ 4 ∨ addr % 4 ≠ s.params.csrBase % 4) :
    s.csrWrite addr data = .refused .csrAccessForm :=
  if_neg (by simp [csrForm_of_other h])

theorem State.csrWrite_of_outside {s : State} {addr : Nat} {data : List Byte}
    (hlen : data.length = 4) (h4 : addr % 4 = s.params.csrBase % 4)
    (h : addr < s.params.csrBase ∨ s.params.csrBase + 0x40 ≤ addr) :
    s.csrWrite addr data = .fault (.noSuchAddress .csr addr) := by
  simp [State.csrWrite, hlen, csrForm_of_word h4, inWindow_csr_of_outside h]

theorem State.csrRead_of_otherForm {s : State} {addr n : Nat}
    (h : n ≠ 4 ∨ addr % 4 ≠ s.params.csrBase % 4) :
    s.csrRead addr n = .refused .csrAccessForm :=
  if_neg (by simp [csrForm_of_other h])

theorem State.csrRead_of_outside {s : State} {addr : Nat} (h4 : addr % 4 = s.params.csrBase % 4)
    (h : addr < s.params.csrBase ∨ s.params.csrBase + 0x40 ≤ addr) :
    s.csrRead addr 4 = .fault (.noSuchAddress .csr addr) := by
  simp [State.csrRead, csrForm_of_word h4, inWindow_csr_of_outside h]

/-- Every CSR but CTRL and IN_LEN ignores a write (20_memory.md R47). -/
theorem State.csrStore_of_ignored {off : Nat} (h0 : off ≠ 0) (h14 : off ≠ 0x14) (v : U32)
    (s : State) : s.csrStore off v = s := by
  simp [State.csrStore, h0, h14]

theorem decodeCtrl_of_noCommand {v : U32} (h0 : v.getLsbD 0 = false) (h1 : v.getLsbD 1 = false)
    (h2 : v.getLsbD 2 = false) (h3 : v.getLsbD 3 = false) : decodeCtrl v = none := by
  simp only [decodeCtrl, h0, h1, h2, h3, Bool.false_eq_true, if_false]

/-- A host write at an aligned CSR offset other than CTRL's (20_memory.md R47). -/
theorem step_of_csrStore {s : State} {off : Nat} {v : U32} {q : List HostAction}
    (h4 : off % 4 = 0) (hlt : off < 0x40) (h0 : off ≠ 0)
    (ht : s.HostTurn (.write .csr (s.params.csrBase + off) (wordLE v)) q) :
    step s = .next (State.csrStore off v { s with hostq := q }) :=
  (step_of_write ht (ctrlWordOf_other (.inr (.inl (by omega))))).trans
    (State.csrWrite_of_offset (s := { s with hostq := q }) h4 hlt v)

/-- A host write of a CTRL word with no command bit (45_decoder.md R148). -/
theorem step_of_noCommandWord {s : State} {v : U32} {q : List HostAction}
    (h0 : v.getLsbD 0 = false) (h1 : v.getLsbD 1 = false) (h2 : v.getLsbD 2 = false)
    (h3 : v.getLsbD 3 = false) (ht : s.HostTurn (.write .csr s.params.csrBase (wordLE v)) q) :
    step s =
      .next { s with hostq := q, ctl := { s.ctl with cancel := false, irqEn := false } } := by
  have hword : ctrlWordOf s.params .csr s.params.csrBase (wordLE v) = some v :=
    (ctrlWordOf_ctrl rfl).trans (congrArg some (ofBytesLE_wordLE v))
  have hctl : s.ctl.written v = { s.ctl with cancel := false, irqEn := false } := by
    simp only [Ctl.written, h1, h2, h3, Bool.false_eq_true, if_false]
  rw [step_of_noCommand ht hword (decodeCtrl_of_noCommand h0 h1 h2 h3), ← hctl]
  calc State.csrWrite s.params.csrBase (wordLE v) { s with hostq := q }
      = .next (State.ctrlWrite v { s with hostq := q }) :=
        State.csrWrite_of_offset (s := { s with hostq := q }) (off := 0) rfl (by decide) v
    _ = .next { s with hostq := q, ctl := s.ctl.written v } := by
        rw [State.ctrlWrite_of_hold (s := { s with hostq := q }) (.inl h0)]

/-- A host write at the CSR window that cannot be a CTRL word. -/
theorem step_of_csrWrite {s : State} {addr : Nat} {data : List Byte} {q : List HostAction}
    (h : addr ≠ s.params.csrBase ∨ data.length ≠ 4) (ht : s.HostTurn (.write .csr addr data) q) :
    step s = State.csrWrite addr data { s with hostq := q } :=
  step_of_write ht (ctrlWordOf_other (.inr h))

/-! ### Writes to the result windows (20_memory.md R49) -/

/-- A host write to a result window changes nothing or faults. -/
theorem step_of_resultWrite {s : State} {win : Window} {addr : Nat} {data : List Byte}
    {q : List HostAction} (hw : win = .frameMem ∨ win = .delayMem ∨ win = .evtMem)
    (ht : s.HostTurn (.write win addr data) q) :
    step s = State.resultWrite win addr data.length { s with hostq := q } := by
  have hcsr : win ≠ .csr := by rintro rfl; simp at hw
  rw [step_of_write ht (ctrlWordOf_other (.inl hcsr))]
  rcases hw with rfl | rfl | rfl <;> rfl

theorem State.resultWrite_of_inside {s : State} {win : Window} {addr n : Nat}
    (hb : s.params.base win ≤ addr) (he : addr + n ≤ s.params.base win + s.params.size win) :
    s.resultWrite win addr n = .next s := if_pos (inWindow_of_inside hb he)

theorem State.resultWrite_of_outside {s : State} {win : Window} {addr n : Nat}
    (h : addr < s.params.base win ∨ s.params.base win + s.params.size win < addr + n) :
    s.resultWrite win addr n = .fault (.noSuchAddress win addr) :=
  if_neg (by simp [inWindow_of_outside h])

/-- Settles O44: each kind of access is one of the cases above. -/
theorem hostWritesActOnlyWhereTheyMay : Obligations.HostWritesActOnlyWhereTheyMay := by
  intro s v off addr n data q
  refine ⟨fun ht => ?_, fun h4 hlt h0 h14 ht => ?_, step_of_noCommandWord,
    fun win hw hb he ht => ?_, fun hr ht => ?_, fun win hw hout ht => ?_, fun hform ht => ?_,
    fun hform ht => ?_, fun hlen h4 hout ht => ?_, fun h4 hout ht => ?_⟩
  · rw [step_of_csrStore (off := 0x14) rfl (by decide) (by decide) ht]
    by_cases hr : s.ctl.run = .busy <;> simp [State.csrStore, State.writeInLen, hr]
  · rw [step_of_csrStore h4 hlt h0 ht, State.csrStore_of_ignored h0 h14]
  · exact (step_of_resultWrite hw ht).trans
      (State.resultWrite_of_inside (s := { s with hostq := q }) hb he)
  · exact (step_of_write ht (ctrlWordOf_other (.inl nofun))).trans (if_pos hr)
  · exact (step_of_resultWrite hw ht).trans
      (State.resultWrite_of_outside (s := { s with hostq := q }) hout)
  · have hne : addr ≠ s.params.csrBase ∨ data.length ≠ 4 :=
      hform.symm.imp (fun h he => h (he ▸ rfl)) id
    exact (step_of_csrWrite hne ht).trans
      (State.csrWrite_of_otherForm (s := { s with hostq := q }) hform)
  · exact (step_of_read ht).trans (State.csrRead_of_otherForm (s := { s with hostq := q }) hform)
  · exact (step_of_csrWrite (.inl (by omega)) ht).trans
      (State.csrWrite_of_outside (s := { s with hostq := q }) hlen h4 hout)
  · exact (step_of_read ht).trans (State.csrRead_of_outside (s := { s with hostq := q }) h4 hout)

/-! ### The layout of frames, delays and events (20_memory.md R41; 45_decoder.md R157) -/

/-- FRAME_MEM holds pixel `i` of frame `k` four bytes wide, after the frames before it. -/
theorem State.frameMemByte_of_pixel {s : State} {k i c : Nat} {f : List Pixel} {p : Pixel}
    (hk : k < s.comp.frameCount.toNat) (hf : s.outp.frames[k]? = some f)
    (hlen : f.length = s.scr.pixels) (hp : f[i]? = some p) (hc : c < 4) :
    s.frameMemByte (k * (s.scr.pixels * 4) + (i * 4 + c)) = (pixelBytes p)[c]? := by
  have hi : i < s.scr.pixels := hlen ▸ (List.getElem?_eq_some_iff.1 hp).1
  have hin : i * 4 + c < s.scr.pixels * 4 := by omega
  have hpix : (i * 4 + c) / 4 = i := rowMajor_div hc
  have hchan : (k * (s.scr.pixels * 4) + (i * 4 + c)) % 4 = c := by
    rw [← Nat.mul_assoc, ← Nat.add_assoc, ← Nat.add_mul]
    exact rowMajor_mod hc
  simp only [State.frameMemByte, rowMajor_div hin, rowMajor_mod hin, hpix, hchan, if_pos hk, hf, hp]

theorem pixelBytes_getElem? (p : Pixel) {c : Nat} (hc : c < 4) :
    (pixelBytes p)[c]? =
      some (if c = 0 then p.r else if c = 1 then p.g else if c = 2 then p.b else p.a) := by
  interval_cases c <;> rfl

/-- DELAY_MEM holds delay `k` two bytes wide, after the delays before it. -/
theorem State.delayMemByte_of_delay {s : State} {k j : Nat} {d : U16}
    (hk : k < s.comp.frameCount.toNat) (hd : s.outp.delays[k]? = some d) (hj : j < 2) :
    s.delayMemByte (2 * k + j) = (u16Bytes d)[j]? := by
  have hdiv : (2 * k + j) / 2 = k := by omega
  have hmod : (2 * k + j) % 2 = j := by omega
  simp only [State.delayMemByte, hdiv, hmod, if_pos hk, hd]

/-- EVT_MEM holds record `k` twenty bytes wide, after the records before it. -/
theorem State.evtMemByte_of_record {s : State} {k j : Nat} {r : EventRec}
    (hk : k < s.outp.evtCount.toNat) (hr : s.outp.events[k]? = some r) (hj : j < 20) :
    s.evtMemByte (20 * k + j) = (EventRec.bytes r)[j]? := by
  have hdiv : (20 * k + j) / 20 = k := by omega
  have hmod : (20 * k + j) % 20 = j := by omega
  simp only [State.evtMemByte, hdiv, hmod, if_pos hk, hr]

/-- The four words of an event record, low byte first. -/
theorem EventRec.bytes_word (r : EventRec) {j : Nat} (hj : j < 4) :
    (EventRec.bytes r)[4 + j]? = some (r.off.extractLsb' (8 * j) 8) ∧
      (EventRec.bytes r)[8 + j]? = some (r.len.extractLsb' (8 * j) 8) ∧
      (EventRec.bytes r)[12 + j]? = some (r.dataOff.extractLsb' (8 * j) 8) ∧
      (EventRec.bytes r)[16 + j]? = some (r.dataLen.extractLsb' (8 * j) 8) := by
  interval_cases j <;> exact ⟨rfl, rfl, rfl, rfl⟩

/-- Settles O46: each offset names one byte of one pixel, delay or record. -/
theorem framesDelaysAndEventsAreLaidOut : Obligations.FramesDelaysAndEventsAreLaidOut := by
  intro s k
  refine ⟨fun x y c f p hr hk hf hlen _ _ hp hc => ?_, fun d hr hk hd => ?_,
    fun r hr hk hrec => ?_⟩
  · have hoff : k * s.scr.w.toNat * s.scr.h.toNat * 4 + (y * s.scr.w.toNat + x) * 4 + c =
        k * (s.scr.pixels * 4) + ((y * s.scr.w.toNat + x) * 4 + c) := by
      rw [Screen.pixels, Nat.add_assoc, Nat.mul_assoc k, Nat.mul_assoc k]
    rw [hoff]
    exact (if_pos hr).trans
      ((State.frameMemByte_of_pixel hk hf hlen hp hc).trans (pixelBytes_getElem? p hc))
  · have hbyte {j : Nat} (hj : j < 2) : s.definedByte .delayMem (2 * k + j) = (u16Bytes d)[j]? :=
      (if_pos hr).trans (State.delayMemByte_of_delay hk hd hj)
    refine ⟨d.extractLsb' 0 8, d.extractLsb' 8 8, hbyte (j := 0) (by decide),
      hbyte (j := 1) (by decide), ?_⟩
    rw [← le16_toNat, le16_bytes]
  · have hbyte {j : Nat} (hj : j < 20) :
        s.definedByte .evtMem (20 * k + j) = (EventRec.bytes r)[j]? :=
      (if_pos (State.finished_eq_true hr)).trans (State.evtMemByte_of_record hk hrec hj)
    refine ⟨hbyte (j := 0) (by decide), hbyte (j := 1) (by decide), hbyte (j := 2) (by decide),
      hbyte (j := 3) (by decide), fun j hj => ?_⟩
    obtain ⟨hoff, hlen, hdataOff, hdataLen⟩ := EventRec.bytes_word r hj
    simp only [Nat.add_assoc]
    exact ⟨(hbyte (by omega)).trans hoff, (hbyte (by omega)).trans hlen,
      (hbyte (by omega)).trans hdataOff, (hbyte (by omega)).trans hdataLen⟩

/-! ### Reads of the data windows (20_memory.md R49) -/

/-- The bytes a data read of `n` bytes at a window offset returns (20_memory.md R49). -/
def State.windowBytes (s : State) (win : Window) (off n : Nat) : List Byte :=
  (List.range n).map fun i => s.hostByte win (off + i)

theorem State.windowBytes_length (s : State) (win : Window) (off n : Nat) :
    (s.windowBytes win off n).length = n := by
  simp [State.windowBytes]

/-- A read returns every byte the spec defines (20_memory.md R42). -/
theorem State.windowBytes_of_defined {s : State} {win : Window} {off n i : Nat} {b : Byte}
    (hi : i < n) (h : s.definedByte win (off + i) = some b) :
    (s.windowBytes win off n)[i]? = some b := by
  simp [State.windowBytes, hi, State.hostByte, h]

theorem State.dataRead_of_offset {s : State} {win : Window} {off n : Nat} (h1 : 1 ≤ n) (h4 : n ≤ 4)
    (h : off + n ≤ s.params.size win) :
    s.dataRead win (s.params.base win + off) n =
      .next { s.drawn with rdata := s.windowBytes win off n } := by
  simp only [State.dataRead, if_pos (And.intro h1 h4), if_pos (inWindow_of_offset h),
    Nat.add_sub_cancel_left, State.windowBytes]

theorem State.dataRead_of_width {s : State} {win : Window} {addr n : Nat} (h : n < 1 ∨ 4 < n) :
    s.dataRead win addr n = .refused .dataReadWidth := if_neg (by omega)

theorem State.dataRead_of_outside {s : State} {win : Window} {addr n : Nat} (h1 : 1 ≤ n)
    (h4 : n ≤ 4) (h : addr < s.params.base win ∨ s.params.base win + s.params.size win < addr + n) :
    s.dataRead win addr n = .fault (.noSuchAddress win addr) := by
  simp [State.dataRead, h1, h4, inWindow_of_outside h]

/-- A host read of a data window that STATE opens (45_decoder.md R158). -/
theorem step_of_dataRead {s : State} {win : Window} {addr n : Nat} {q : List HostAction}
    (hw : win ≠ .csr) (hopen : win = .evtMem → s.ctl.run = .done ∨ s.ctl.run = .error)
    (ht : s.HostTurn (.read win addr n) q) :
    step s = State.dataRead win addr n { s with hostq := q } := by
  rw [step_of_read ht]
  cases win with
  | inMem => rfl
  | csr => exact absurd rfl hw
  | frameMem => rfl
  | delayMem => rfl
  | evtMem => exact if_pos (State.finished_eq_true (s := { s with hostq := q }) (hopen rfl))

/-- A host read of EVT_MEM in IDLE or BUSY (45_decoder.md R158). -/
theorem step_of_earlyEvtRead {s : State} {addr n : Nat} {q : List HostAction}
    (hr : s.ctl.run = .idle ∨ s.ctl.run = .busy) (ht : s.HostTurn (.read .evtMem addr n) q) :
    step s = .refused .evtMemReadEarly :=
  (step_of_read ht).trans
    (if_neg (by simp [State.finished_eq_false (s := { s with hostq := q }) hr]))

/-- Settles O47: a read that is let through returns the window's bytes; every other one stops. -/
theorem dataReadsReturnTheWindowBytes : Obligations.DataReadsReturnTheWindowBytes := by
  intro s win off addr n q
  refine ⟨⟨rfl, rfl, rfl, rfl⟩, fun hw hopen h1 h4 hin ht => ?_, fun hw hopen => ⟨?_, ?_⟩,
    step_of_earlyEvtRead⟩
  · have hstep := (step_of_dataRead hw hopen ht).trans
      (State.dataRead_of_offset (s := { s with hostq := q }) h1 h4 hin)
    have hread {i : Nat} {b : Byte} (hi : i < n) (hb : s.definedByte win (off + i) = some b) :
        (State.windowBytes { s with hostq := q } win off n)[i]? = some b :=
      State.windowBytes_of_defined hi hb
    exact ⟨_, hstep, State.windowBytes_length _ _ _ _, fun i b => hread,
      fun hmem i hi => hread hi (hmem ▸ rfl)⟩
  · exact fun hwidth ht => (step_of_dataRead hw hopen ht).trans (State.dataRead_of_width hwidth)
  · exact fun h1 h4 hout ht => (step_of_dataRead hw hopen ht).trans
      (State.dataRead_of_outside (s := { s with hostq := q }) h1 h4 hout)

end Sys2Proof.Machine

end

/-! ## Encoding and decoding give each other back

Each read of the byte reader is run on what the encoder writes, then each block on its bytes. -/

section

namespace Sys2Proof

/-- A bind of reads runs its second part on what the first one read. -/
theorem reader_ok_bind {α β : Type} (a : α) (f : α → Except Short β) :
    ((Except.ok a : Except Short α) >>= f) = f a := rfl

/-! ### Reads of what the encoder writes -/

theorem readByte_cons (b : Byte) (rest : List Byte) : readByte (b :: rest) = .ok (b, rest) := rfl

theorem readU16_bytes (v : U16) (rest : List Byte) :
    readU16 (u16Bytes v ++ rest) = .ok (v, rest) := readU16_ok.2 rfl

theorem readBytes_append {n : Nat} {d : List Byte} (h : d.length = n) (rest : List Byte) :
    readBytes n (d ++ rest) = .ok (d, rest) := readBytes_ok.2 ⟨h, rfl⟩

theorem readOptTable_bytes {flag : Bool} {size : BitVec 3} {t : List Rgb}
    (h : tableOk flag size t = true) (rest : List Byte) :
    readOptTable flag size (tableBytes t ++ rest) = .ok (t, rest) := readOptTable_ok.2 ⟨h, rfl⟩

theorem readSubBlocks_bytes {data : Chain} (h : chainOk data = true) (rest : List Byte) :
    readSubBlocks (chainBytes data ++ rest) = .ok (data, rest) := readSubBlocks_ok.2 ⟨h, rfl⟩

/-! ### The sentinel and label maps (30_encoding.md R80, R81) -/

theorem decodeBlock_gce (bs : List Byte) : decodeBlock (0x21 :: 0xF9 :: bs) = decodeGce bs := rfl

theorem decodeBlock_comment (bs : List Byte) :
    decodeBlock (0x21 :: 0xFE :: bs) = decodeComment bs := rfl

theorem decodeBlock_plaintext (bs : List Byte) :
    decodeBlock (0x21 :: 0x01 :: bs) = decodePlaintext bs := rfl

theorem decodeBlock_app (bs : List Byte) : decodeBlock (0x21 :: 0xFF :: bs) = decodeApp bs := rfl

theorem decodeBlock_image (bs : List Byte) : decodeBlock (0x2C :: bs) = decodeImage bs := rfl

theorem decodeBlock_unknown {label : Byte}
    (h : label ≠ 0xF9 ∧ label ≠ 0xFE ∧ label ≠ 0x01 ∧ label ≠ 0xFF) (bs : List Byte) :
    decodeBlock (0x21 :: label :: bs) = decodeUnknown label bs := by
  obtain ⟨hgce, hcomment, hplain, happ⟩ := h
  have hext : decodeBlock (0x21 :: label :: bs) = decodeExtension (label :: bs) := rfl
  rw [hext, decodeExtension, readByte_cons, reader_ok_bind]
  simp only [hgce, hcomment, hplain, happ, if_false]

theorem decodeBlock_sentinel {b : Byte} (h : b ≠ 0x21 ∧ b ≠ 0x2C ∧ b ≠ 0x3B) (bs : List Byte) :
    decodeBlock (b :: bs) = .ok (.illegalSentinel b, bs) := by
  obtain ⟨hext, himage, htrailer⟩ := h
  rw [decodeBlock, readByte_cons, reader_ok_bind]
  simp only [hext, himage, htrailer, if_false]
  rfl

/-! ### Each block read back from its bytes -/

theorem decodeHeader_headerBytes {op : HeaderOp} (hw : WellFormed (.header op) = true)
    (rest : List Byte) : decodeHeader (headerBytes op ++ rest) = .ok (.header op, rest) := by
  obtain ⟨hv, ht⟩ := Bool.and_eq_true_iff.1 hw
  obtain ⟨h7, h4, h3, h0⟩ : (headerPacked op).getLsbD 7 = op.gctFlag ∧
      (headerPacked op).extractLsb' 4 3 = op.colorRes ∧ (headerPacked op).getLsbD 3 = op.sort ∧
      (headerPacked op).extractLsb' 0 3 = op.gctSize := headerPacked_fields _ _ _ _
  simp only [headerBytes, gifSignature, List.append_assoc, List.cons_append, List.nil_append,
    decodeHeader, if_true, decodeHeaderBody, readBytes_append (of_decide_eq_true hv),
    readU16_bytes, readByte_cons, h7, h4, h3, h0, readOptTable_bytes ht, reader_ok_bind]
  rfl

theorem decodeHeader_badSignature {s0 s1 s2 : Byte} (h : [s0, s1, s2] ≠ gifSignature)
    (rest : List Byte) : decodeHeader (s0 :: s1 :: s2 :: rest) = .ok (.badSignature s0 s1 s2, rest) :=
  if_neg h

theorem decodeBlock_gceBytes (op : GceOp) (rest : List Byte) :
    decodeBlock (gceBytes op ++ rest) = .ok (.extGce op, rest) := by
  obtain ⟨h5, h2, h1, h0⟩ : (gcePacked op).extractLsb' 5 3 = op.rsvd ∧
      (gcePacked op).extractLsb' 2 3 = op.disp ∧ (gcePacked op).getLsbD 1 = op.ui ∧
      (gcePacked op).getLsbD 0 = op.tf := gcePacked_fields _ _ _ _
  simp only [gceBytes, List.append_assoc, List.cons_append, List.nil_append, decodeBlock_gce,
    decodeGce, readByte_cons, readU16_bytes, h5, h2, h1, h0, reader_ok_bind]
  rfl

theorem decodeBlock_commentBytes {data : Chain} (h : chainOk data = true) (rest : List Byte) :
    decodeBlock (0x21 :: 0xFE :: (chainBytes data ++ rest)) = .ok (.extComment data, rest) := by
  rw [decodeBlock_comment, decodeComment, readSubBlocks_bytes h, reader_ok_bind]
  rfl

theorem decodeBlock_plaintextBytes {hdr : List Byte} {data : Chain} (hl : hdr.length = 12)
    (h : chainOk data = true) (size : Byte) (rest : List Byte) :
    decodeBlock ([0x21, 0x01, size] ++ hdr ++ chainBytes data ++ rest) =
      .ok (.extPlaintext size hdr data, rest) := by
  simp only [List.append_assoc, List.cons_append, List.nil_append, decodeBlock_plaintext,
    decodePlaintext, readByte_cons, readBytes_append hl,
    readSubBlocks_bytes h, reader_ok_bind]
  rfl

theorem decodeBlock_netscapeBytes {op : NetscapeOp} (ha : op.auth.length = 3)
    (rest : List Byte) :
    decodeBlock (netscapeBytes op ++ rest) = .ok (.extAppNetscape op, rest) := by
  have hid : netscapeId.length = 8 := rfl
  simp only [netscapeBytes, List.append_assoc, List.cons_append, List.nil_append, decodeBlock_app,
    decodeApp, readByte_cons, readBytes_append hid, readBytes_append ha, if_true, readU16_bytes,
    reader_ok_bind]
  rfl

theorem decodeBlock_appBytes {op : AppOp} (hw : WellFormed (.extApp op) = true)
    (rest : List Byte) : decodeBlock (appBytes op ++ rest) = .ok (.extApp op, rest) := by
  simp only [WellFormed, Bool.and_eq_true, decide_eq_true_eq] at hw
  obtain ⟨⟨⟨hi, hn⟩, ha⟩, hd⟩ := hw
  simp only [appBytes, List.append_assoc, List.cons_append, List.nil_append, decodeBlock_app,
    decodeApp, readByte_cons, readBytes_append hi, readBytes_append ha, if_neg hn,
    readSubBlocks_bytes hd, reader_ok_bind]
  rfl

theorem decodeBlock_unknownBytes {label : Byte} {data : Chain}
    (hl : label ≠ 0xF9 ∧ label ≠ 0xFE ∧ label ≠ 0x01 ∧ label ≠ 0xFF) (h : chainOk data = true)
    (rest : List Byte) :
    decodeBlock (0x21 :: label :: (chainBytes data ++ rest)) =
      .ok (.extUnknown label data, rest) := by
  rw [decodeBlock_unknown hl, decodeUnknown, readSubBlocks_bytes h, reader_ok_bind]
  rfl

theorem decodeBlock_imageBytes {op : ImageOp} (hw : WellFormed (.image op) = true)
    (rest : List Byte) : decodeBlock (imageBytes op ++ rest) = .ok (.image op, rest) := by
  obtain ⟨ht, hd⟩ := Bool.and_eq_true_iff.1 hw
  obtain ⟨h7, h6, h5, h3, h0⟩ : (imagePacked op).getLsbD 7 = op.lctFlag ∧
      (imagePacked op).getLsbD 6 = op.interlace ∧ (imagePacked op).getLsbD 5 = op.sort ∧
      (imagePacked op).extractLsb' 3 2 = op.rsvd ∧
      (imagePacked op).extractLsb' 0 3 = op.lctSize := imagePacked_fields _ _ _ _ _
  simp only [imageBytes, List.append_assoc, List.cons_append, List.nil_append, decodeBlock_image,
    decodeImage, readU16_bytes, readByte_cons, h7, h6, h5, h3, h0, readOptTable_bytes ht,
    readSubBlocks_bytes hd, reader_ok_bind]
  rfl

/-! ### LZW codes (30_encoding.md R82) -/

/-- A code keeps its value in every context (log 20). -/
theorem encode_decodeCode (x : CodeCtx) (c : Code) : encode (decodeCode x c) = .code c := by
  rcases Machine.decodeCode_cases x c with h | h | h | h | h <;> rw [h.1] <;> rfl

/-- Settles O3: each row's test, with the earlier rows' tests failed, decides the class. -/
theorem codeClassIsTheFirstMatchingRow : Obligations.CodeClassIsTheFirstMatchingRow := by
  intro x c
  by_cases hclear : c = x.clearCode
  · have h : decodeCode x c = .lzwClear c := if_pos hclear
    rw [h]
    simp [hclear]
  by_cases heoi : c = x.eoiCode
  · have h : decodeCode x c = .lzwEoi c := (if_neg hclear).trans (if_pos heoi)
    rw [h]
    simp [hclear, ← heoi]
  have hdata : decodeCode x c =
      if c.toNat < x.dictLen.toNat then .lzwKnown c
      else if c.toNat = x.dictLen.toNat ∧ x.prev ≠ none then .lzwKwkwk c
      else .lzwInvalid c := (if_neg hclear).trans (if_neg heoi)
  rcases lt_trichotomy c.toNat x.dictLen.toNat with hlt | heq | hgt
  · simp [hdata, hclear, heoi, hlt, hlt.ne, hlt.not_gt]
  · by_cases hprev : x.prev = none <;> simp [hdata, hclear, heoi, heq, hprev]
  · simp [hdata, hclear, heoi, hgt, hgt.ne', hgt.not_gt]

/-- A context that does not take `c` for its clear or EOI code. -/
def dataCtx (c : Code) (dictLen : BitVec 13) (prev : Option Code) : CodeCtx :=
  { clearCode := c + 1, eoiCode := c + 1, dictLen, prev }

theorem dataCtx_ne (c : Code) (d : BitVec 13) (p : Option Code) :
    c ≠ (dataCtx c d p).clearCode ∧ c ≠ (dataCtx c d p).eoiCode := by
  have h : c ≠ c + 1 := by bv_omega
  exact ⟨h, h⟩

theorem exists_ctx_clear (c : Code) : ∃ x, decodeCode x c = .lzwClear c :=
  ⟨{ dataCtx c 0 none with clearCode := c }, if_pos rfl⟩

theorem exists_ctx_eoi (c : Code) : ∃ x, decodeCode x c = .lzwEoi c :=
  ⟨{ dataCtx c 0 none with eoiCode := c },
    (if_neg (dataCtx_ne c 0 none).1).trans (if_pos rfl)⟩

theorem exists_ctx_known (c : Code) : ∃ x, decodeCode x c = .lzwKnown c := by
  obtain ⟨hclear, heoi⟩ := dataCtx_ne c 4096 none
  obtain ⟨-, -, hknown, -⟩ := codeClassIsTheFirstMatchingRow (dataCtx c 4096 none) c
  exact ⟨_, hknown.2 ⟨hclear, heoi, c.isLt⟩⟩

theorem exists_ctx_kwkwk (c : Code) : ∃ x, decodeCode x c = .lzwKwkwk c := by
  obtain ⟨hclear, heoi⟩ := dataCtx_ne c (c.setWidth 13) (some c)
  have hlen : c.toNat = (c.setWidth 13).toNat := by bv_omega
  obtain ⟨-, -, -, hkwkwk, -⟩ :=
    codeClassIsTheFirstMatchingRow (dataCtx c (c.setWidth 13) (some c)) c
  exact ⟨_, hkwkwk.2 ⟨hclear, heoi, hlen, Option.some_ne_none c⟩⟩

theorem exists_ctx_invalid (c : Code) : ∃ x, decodeCode x c = .lzwInvalid c := by
  obtain ⟨hclear, heoi⟩ := dataCtx_ne c (c.setWidth 13) none
  have hlen : c.toNat = (c.setWidth 13).toNat := by bv_omega
  obtain ⟨-, -, -, -, hinvalid⟩ :=
    codeClassIsTheFirstMatchingRow (dataCtx c (c.setWidth 13) none) c
  exact ⟨_, hinvalid.2 ⟨hclear, heoi, .inr ⟨hlen, rfl⟩⟩⟩

/-! ### Disposal values and CTRL words (30_encoding.md R83, R84) -/

theorem decodeDisposal_reserved {d : BitVec 3} (h : 4 ≤ d.toNat) :
    decodeDisposal d = .disposeRsvd d := by
  revert d
  decide

/-- A well-formed command is the row of its word's lowest set command bit (log 12). -/
theorem decodeCtrl_word {i : Instr} {v : U32} (hw : WellFormed i = true)
    (he : encode i = .word v) : decodeCtrl v = some i := by
  cases i with
  | ctrlStart _ | ctrlCancel _ | ctrlIrqEn _ | ctrlIrqAck _ =>
    obtain rfl := Encoded.word.inj he
    simp only [WellFormed, Bool.and_eq_true, Bool.not_eq_true'] at hw
    simp only [decodeCtrl, hw, Bool.false_eq_true, if_false, if_true]
  | _ => cases he

/-! ### The round trips -/

/-- Settles O1: each kind of encoding is read back by its own decoder, block by block. -/
theorem decodingAnEncodedInstructionGivesItBack :
    Obligations.DecodingAnEncodedInstructionGivesItBack := by
  intro i hw
  cases i with
  | header op => exact decodeHeader_headerBytes hw
  | badSignature s0 s1 s2 => exact decodeHeader_badSignature (of_decide_eq_true hw)
  | extGce op => exact decodeBlock_gceBytes op
  | extComment data => exact decodeBlock_commentBytes hw
  | extPlaintext size hdr data =>
    obtain ⟨hl, hd⟩ := Bool.and_eq_true_iff.1 hw
    exact decodeBlock_plaintextBytes (of_decide_eq_true hl) hd size
  | extAppNetscape op => exact decodeBlock_netscapeBytes (of_decide_eq_true hw)
  | extApp op => exact decodeBlock_appBytes hw
  | extUnknown label data =>
    obtain ⟨hl, hd⟩ := Bool.and_eq_true_iff.1 hw
    exact decodeBlock_unknownBytes (of_decide_eq_true hl) hd
  | image op => exact decodeBlock_imageBytes hw
  | trailer => exact fun rest => rfl
  | illegalSentinel b => exact decodeBlock_sentinel (of_decide_eq_true hw)
  | lzwClear c => exact ⟨fun x => encode_decodeCode x c, exists_ctx_clear c⟩
  | lzwEoi c => exact ⟨fun x => encode_decodeCode x c, exists_ctx_eoi c⟩
  | lzwKnown c => exact ⟨fun x => encode_decodeCode x c, exists_ctx_known c⟩
  | lzwKwkwk c => exact ⟨fun x => encode_decodeCode x c, exists_ctx_kwkwk c⟩
  | lzwInvalid c => exact ⟨fun x => encode_decodeCode x c, exists_ctx_invalid c⟩
  | dispose0 => rfl
  | dispose1 => rfl
  | dispose2 => rfl
  | dispose3 => rfl
  | disposeRsvd d => exact decodeDisposal_reserved (of_decide_eq_true hw)
  | ctrlStart v => exact decodeCtrl_word hw rfl
  | ctrlCancel v => exact decodeCtrl_word hw rfl
  | ctrlIrqEn v => exact decodeCtrl_word hw rfl
  | ctrlIrqAck v => exact decodeCtrl_word hw rfl

/-- Settles O2: what a block decodes to spells the bytes that were read. -/
theorem encodingADecodedBlockGivesItsBytes : Obligations.EncodingADecodedBlockGivesItsBytes := by
  refine fun bs rest i => ⟨fun h => ?_, fun h => ?_⟩
  · obtain ⟨⟨hwf, hbytes⟩, hrow⟩ := decodeHeader_spells h
    exact ⟨hwf, hrow, hbytes⟩
  · obtain ⟨⟨hwf, hbytes⟩, hrow⟩ := decodeBlock_spells h
    exact ⟨hwf, hrow, hbytes⟩

/-! ### The sub-blocks SUB cuts (30_encoding.md R88) -/

theorem chainOk_cutChain (n : Nat) (d : List Byte) : chainOk (Machine.cutChain n d) = true := by
  induction n generalizing d with
  | zero => rfl
  | succ n ih =>
    cases d with
    | nil => rfl
    | cons b bs =>
      refine (chainOk_cons _ _).2 ⟨?_, ih _⟩
      rw [List.length_take, List.length_cons]
      omega

/-- `n` sub-blocks hold any `n` bytes. -/
theorem flatten_cutChain {n : Nat} {d : List Byte} (h : d.length ≤ n) :
    (Machine.cutChain n d).flatten = d := by
  induction n generalizing d with
  | zero => exact (List.eq_nil_of_length_eq_zero (Nat.le_zero.1 h)).symm
  | succ n ih =>
    cases d with
    | nil => rfl
    | cons b bs =>
      have hrest : ((b :: bs).drop 255).length ≤ n := by
        rw [List.length_drop]
        omega
      rw [Machine.cutChain, List.flatten_cons, ih hrest, List.take_append_drop]

/-- Settles O6: SUB's chain has sub-blocks of 1 to 255 bytes and flattens to its data. -/
theorem subBlocksReadBackTheirData : Obligations.SubBlocksReadBackTheirData := fun d rest =>
  ⟨Machine.subChain d, readSubBlocks_bytes (chainOk_cutChain d.length d) rest,
    flatten_cutChain le_rfl⟩

end Sys2Proof

end

/-! ## Reads that fail, and the blocks they cut short (40_bitstream.md R89 to R93) -/

section

namespace Sys2Proof

/-! ### Each read on too few bytes -/

theorem readBytes_short {n : Nat} {bs : List Byte} (h : bs.length < n) :
    readBytes n bs = .error ⟨n, bs.length⟩ := if_neg (Nat.not_le.2 h)

theorem readByte_nil : readByte [] = .error ⟨1, 0⟩ := rfl

theorem readU16_short {bs : List Byte} (h : bs.length < 2) : readU16 bs = .error ⟨2, bs.length⟩ := by
  match bs, h with
  | [], _ => rfl
  | [_], _ => rfl

theorem readU16_cons (b0 b1 : Byte) (bs : List Byte) :
    readU16 (b0 :: b1 :: bs) = .ok (le16 b0 b1, bs) := rfl

/-- Settles O5: `readBytes` splits the bytes at `n` when there are that many, and the two fixed-size reads
take the bytes in front. -/
theorem readsReturnAllTheirBytesOrFail : Obligations.ReadsReturnAllTheirBytesOrFail := by
  intro n bs
  refine ⟨fun h => ?_, readBytes_short, fun b => readByte_cons b bs, readByte_nil, fun b0 b1 => ?_,
    fun b0 => readU16_short (bs := [b0]) Nat.one_lt_two, readU16_short (bs := []) Nat.two_pos⟩
  · have hlen : (bs.take n).length = n := List.length_take_of_le h
    have hsplit : bs = bs.take n ++ bs.drop n := (List.take_append_drop n bs).symm
    exact ⟨_, _, readBytes_ok.2 ⟨hlen, hsplit⟩, hlen, hsplit⟩
  · exact ⟨le16 b0 b1, readU16_cons b0 b1 bs, le16_toNat b0 b1⟩

end Sys2Proof

namespace Sys2Proof.Machine

/-! ### The error entry of a block cut short -/

/-- `t` is the UnexpectedEndOfStream of a block that began in `s`, with the bytes asked for and the cursor
of the failing read `e` (40_bitstream.md R89; 60_exceptions.md R160, R161). -/
def State.EndsShort (s : State) (e : Short) (t : State) : Prop :=
  s.ErrorEntered t 2 (BitVec.ofNat 32 e.need)
    (BitVec.ofNat 32 (s.cur.pos.toNat + (s.streamRest.length - e.left)))

theorem State.endOfStream_endsShort (e : Short) (s : State) : s.EndsShort e (s.endOfStream e) :=
  (State.raise_errorOnly _ s).entered

/-- A header that is cut short wrote no register that error entry keeps (60_exceptions.md R162). -/
theorem State.cutHeader_endsShort (e : Short) (s : State) :
    s.EndsShort e (s.cutHeader.endOfStream e) :=
  have hsize := Screen.cutHeader_size s.streamRest s.scr
  (s.cutHeader.endOfStream_endsShort e).of_same rfl hsize.1 hsize.2 rfl rfl rfl
    (.of_eq rfl rfl rfl rfl rfl)

/-- A block that is cut short wrote no register that error entry keeps: an image wrote only image and table
registers, any other block none (60_exceptions.md R162). -/
theorem State.cutBlock_endsShort (e : Short) (s : State) : s.EndsShort e (s.cutBlock e) := by
  unfold State.cutBlock
  split
  · exact (s.cutImage.endOfStream_endsShort e).of_same rfl rfl rfl rfl rfl rfl
      (.of_eq rfl rfl rfl rfl rfl)
  · exact s.endOfStream_endsShort e

/-- Settles O7: the engine's step on a cut-short block is the error entry of its failing read. -/
theorem aCutShortBlockIsEndOfStream : Obligations.ACutShortBlockIsEndOfStream := by
  intro s e hb
  constructor
  · intro hp hd
    rw [step_of_boundary hb, hp]
    simp only [State.fetchHeader, State.streamRest_blkStart, hd, Fetched.outcome]
    exact ⟨_, rfl, State.cutHeader_endsShort e _⟩
  · intro hp hd
    rw [step_of_boundary hb, hp]
    simp only [State.fetchBlock, State.streamRest_blkStart, hd, Fetched.outcome]
    exact ⟨_, rfl, State.cutBlock_endsShort e _⟩

end Sys2Proof.Machine

end

/-! ## The LZW registers: the invariant between codes is kept by every register operation

A clear code makes it hold again; a data code breaks it with its append and restores it with the width
test. Between the two the registers meet it with `prev` forgotten (41_lzw.md R99 to R109). -/

section

namespace Sys2Proof.Machine

/-! ### The dictionary a clear code leaves (41_lzw.md R100) -/

theorem freshDict_length (n : Nat) : (freshDict n).length = n + 2 := by simp [freshDict]

theorem freshDict_symbol {n i : Nat} (h : i < n) :
    (freshDict n)[i]? = some (.seq [BitVec.ofNat 11 i]) := by
  rw [freshDict, List.getElem?_append_left (by simpa using h)]
  simp [h]

theorem freshDict_clear (n : Nat) : (freshDict n)[n]? = some (.seq []) := by
  rw [freshDict, List.getElem?_append_right (by simp)]
  simp

theorem freshDict_eoi (n : Nat) : (freshDict n)[n + 1]? = some .sentinel := by
  rw [freshDict, List.getElem?_append_right (by simp)]
  simp

/-- Every symbol of a fresh dictionary is the index of its slot, below the clear code. -/
theorem freshDict_symbols {n : Nat} {xs : List Sym} (h : Slot.seq xs ∈ freshDict n) :
    ∀ v ∈ xs, v.toNat < n := by
  rw [freshDict, List.mem_append, List.mem_map] at h
  rcases h with ⟨i, hi, hx⟩ | h
  · obtain rfl := Slot.seq.inj hx
    simp only [List.mem_singleton, forall_eq, BitVec.toNat_ofNat]
    exact Nat.lt_of_le_of_lt (Nat.mod_le _ _) (List.mem_range.1 hi)
  · obtain rfl : xs = [] := by simpa using h
    nofun

/-- Settles O9: the dictionary is the fresh one. -/
theorem clearCodeResetsTheDictionary : Obligations.ClearCodeResetsTheDictionary := fun _ s =>
  ⟨freshDict s.lz.clearCode.toNat, rfl, freshDict_length _, fun _ => freshDict_symbol,
    freshDict_clear _, freshDict_eoi _⟩

/-! ### The invariant is kept by every register operation (41_lzw.md R109) -/

theorem Lzw.reset_dictLen (m : Byte) (l : Lzw) :
    (l.reset m).dictLen.toNat = l.clearCode.toNat + 2 := by
  have hc := l.clearCode.isLt
  simp only [Lzw.reset, BitVec.toNat_ofNat]
  omega

/-- LzwReset leaves the invariant whatever the dictionary was (41_lzw.md R100, R109). -/
theorem Lzw.reset_inv {m : Byte} {l : Lzw} (hm : minCodeOk m = true)
    (hc : l.clearCode.toNat = 2 ^ m.toNat) (he : l.eoiCode.toNat = 2 ^ m.toNat + 1)
    (ho : ∀ v ∈ l.out, v.toNat < l.clearCode.toNat) :
    ({ l.reset m with prev := none } : Lzw).Inv m := by
  have hlen := Lzw.reset_dictLen m l
  have hwidth := Lzw.reset_codeWidth l hm
  have hrange := (minCodeOk_iff m).1 hm
  have hpow : 2 ^ 1 ≤ 2 ^ m.toNat := Nat.pow_le_pow_right (by omega) hrange.1
  have hsucc : 2 ^ (m.toNat + 1) = 2 ^ m.toNat * 2 := Nat.pow_succ ..
  exact
    { minCode := hrange
      clear := hc
      eoi := he
      widthLow := hwidth.ge
      widthHigh := by simp only [hwidth]; omega
      lenLow := hlen.ge
      lenHigh := by simp only [hlen, hwidth, hc]; omega
      lenRoom := fun h => absurd rfl h
      listed := (freshDict_length _).trans hlen.symm
      clearSlot := freshDict_clear _
      eoiSlot := by
        have hslot : l.eoiCode.toNat = l.clearCode.toNat + 1 := by omega
        exact hslot ▸ freshDict_eoi l.clearCode.toNat
      dataSlot := fun c ⟨hlt, hclear, heoi⟩ => by
        simp only [hlen] at hlt
        have h1 : c.toNat ≠ l.clearCode.toNat := fun h => hclear (BitVec.eq_of_toNat_eq h)
        have h2 : c.toNat ≠ l.eoiCode.toNat := fun h => heoi (BitVec.eq_of_toNat_eq h)
        exact ⟨_, freshDict_symbol (by omega), by simp⟩
      symbols := fun _ => freshDict_symbols
      outSymbols := ho
      prevData := nofun }

/-- LzwInit meets the invariant (41_lzw.md R99, R109). -/
theorem Lzw.init_inv {m : Byte} (l : Lzw) (hm : minCodeOk m = true) : (l.init m).Inv m := by
  have hrange := (minCodeOk_iff m).1 hm
  have hpow : 2 ^ m.toNat ≤ 2 ^ 11 := Nat.pow_le_pow_right (by omega) hrange.2
  have hclear : (BitVec.ofNat 12 (2 ^ m.toNat)).toNat = 2 ^ m.toNat := by
    rw [BitVec.toNat_ofNat, Nat.mod_eq_of_lt (by omega)]
  have heoi : (BitVec.ofNat 12 (2 ^ m.toNat + 1)).toNat = 2 ^ m.toNat + 1 := by
    rw [BitVec.toNat_ofNat, Nat.mod_eq_of_lt (by omega)]
  exact Lzw.reset_inv (l := { l with
    clearCode := BitVec.ofNat 12 (2 ^ m.toNat), eoiCode := BitVec.ofNat 12 (2 ^ m.toNat + 1),
    bitPos := 0, out := [] }) hm hclear heoi nofun

/-- Without a previous code the invariant asks less: so stand the registers between an append and the
width test (41_lzw.md R109). -/
theorem Lzw.Inv.forgetPrev {m : Byte} {l : Lzw} (h : l.Inv m) :
    ({ l with prev := none } : Lzw).Inv m :=
  { h with lenRoom := fun h0 => absurd rfl h0, prevData := nofun }

theorem Lzw.Inv.extendOut {m : Byte} {l : Lzw} (h : l.Inv m) {xs : List Sym}
    (hx : ∀ v ∈ xs, v.toNat < l.clearCode.toNat) : ({ l with out := l.out ++ xs } : Lzw).Inv m :=
  { h with outSymbols := fun v hv => (List.mem_append.1 hv).elim (h.outSymbols v) (hx v) }

/-- `prev` set to a data code and the width tested: the next entry fits (41_lzw.md R108, R109). -/
theorem Lzw.Inv.settle {m : Byte} {l : Lzw} (h : l.Inv m) {c : Code} (hc : l.IsDataCode c) :
    (l.settle c).Inv m := by
  have hlow := h.widthLow
  have hlen := h.lenHigh
  have hprev : ∀ p, some c = some p → l.IsDataCode p := fun p hp => Option.some.inj hp ▸ hc
  by_cases hgrow : l.dictLen.toNat = 2 ^ l.codeWidth.toNat ∧ l.codeWidth.toNat < 12
  · obtain ⟨hfull, hnarrow⟩ := hgrow
    have hwider : (BitVec.ofNat 4 (l.codeWidth.toNat + 1)).toNat = l.codeWidth.toNat + 1 := by
      rw [BitVec.toNat_ofNat, Nat.mod_eq_of_lt (by omega)]
    have hroom : l.dictLen.toNat < 2 ^ (BitVec.ofNat 4 (l.codeWidth.toNat + 1)).toNat := by
      rw [hwider, hfull]
      exact Nat.pow_lt_pow_succ (by omega)
    have hset : l.settle c =
        { l with prev := some c, codeWidth := BitVec.ofNat 4 (l.codeWidth.toNat + 1) } :=
      if_pos ⟨hfull, hnarrow⟩
    rw [hset]
    exact
      { h with
        widthLow := by simp only [hwider]; omega
        widthHigh := by simp only [hwider]; omega
        lenHigh := hroom.le
        lenRoom := fun _ => .inl hroom
        prevData := hprev }
  · have hhigh := h.widthHigh
    have hset : l.settle c = { l with prev := some c } := if_neg hgrow
    rw [hset]
    exact { h with lenRoom := fun _ => by simp only; omega, prevData := hprev }

/-- An append makes the dictionary one longer. -/
theorem Lzw.append_dictLen {l : Lzw} (e : List Sym) (h : l.dictLen.toNat < 4096) :
    (l.append e).dictLen.toNat = l.dictLen.toNat + 1 := by
  simp only [Lzw.append, BitVec.toNat_ofNat]
  omega

theorem Lzw.Inv.append_dict {m : Byte} {l : Lzw} (h : l.Inv m) (e : List Sym) :
    (l.append e).dict = l.dict ++ [.seq e] := by
  rw [Lzw.append_of_listed e h.listed]

/-- A listed slot is not touched by an append. -/
theorem Lzw.Inv.append_slot {m : Byte} {l : Lzw} (h : l.Inv m) (e : List Sym) {i : Nat}
    (hi : i < l.dictLen.toNat) : (l.append e).dict[i]? = l.dict[i]? := by
  rw [h.append_dict, List.getElem?_append_left (h.listed ▸ hi)]

theorem Lzw.Inv.clear_lt_dictLen {m : Byte} {l : Lzw} (h : l.Inv m) :
    l.clearCode.toNat < l.dictLen.toNat := Nat.lt_of_lt_of_le (by omega) h.lenLow

theorem Lzw.Inv.eoi_lt_dictLen {m : Byte} {l : Lzw} (h : l.Inv m) :
    l.eoiCode.toNat < l.dictLen.toNat :=
  Nat.lt_of_lt_of_le (by rw [h.eoi, h.clear]; omega) h.lenLow

/-- A new entry of image symbols keeps the invariant while the width is to be tested
(41_lzw.md R104, R105, R109). -/
theorem Lzw.Inv.append {m : Byte} {l : Lzw} (h : l.Inv m) {e : List Sym} (hne : e ≠ [])
    (he : ∀ v ∈ e, v.toNat < l.clearCode.toNat) (hroom : l.dictLen.toNat < 2 ^ l.codeWidth.toNat) :
    ({ l.append e with prev := none } : Lzw).Inv m := by
  have hfull : l.dictLen.toNat < 4096 :=
    Nat.lt_of_lt_of_le hroom (Nat.pow_le_pow_right (n := 2) (by omega) h.widthHigh)
  have hlen := Lzw.append_dictLen e hfull
  exact
    { h with
      lenLow := by simp only [hlen]; exact Nat.le_succ_of_le h.lenLow
      lenHigh := by simp only [hlen]; exact hroom
      lenRoom := fun h0 => absurd rfl h0
      listed := by simp only [hlen, h.append_dict, List.length_append, h.listed]; rfl
      clearSlot := (h.append_slot e h.clear_lt_dictLen).trans h.clearSlot
      eoiSlot := (h.append_slot e h.eoi_lt_dictLen).trans h.eoiSlot
      dataSlot := fun c ⟨hlt, hcodes⟩ => by
        simp only [hlen] at hlt
        rcases Nat.lt_succ_iff_lt_or_eq.1 hlt with hold | hnew
        · exact (h.dataSlot c ⟨hold, hcodes⟩).imp fun _ hx => hx.imp_left (h.append_slot e hold).trans
        · refine ⟨e, ?_, hne⟩
          simp only [h.append_dict, hnew, ← h.listed, List.getElem?_concat_length]
      symbols := fun xs hxs => by
        simp only [h.append_dict, List.mem_append, List.mem_singleton, Slot.seq.injEq] at hxs
        rcases hxs with hxs | rfl
        · exact h.symbols xs hxs
        · exact he
      prevData := nofun }

/-! ### The entries of data codes (41_lzw.md R104, R105) -/

/-- A data code's entry is listed, and its symbols are the image's (41_lzw.md R109). -/
theorem Lzw.Inv.entry {m : Byte} {l : Lzw} (h : l.Inv m) {c : Code} (hc : l.IsDataCode c) (d : Nat) :
    ∃ y ys, l.dict[c.toNat]? = some (.seq (y :: ys)) ∧ l.entry d c = y :: ys ∧
      ∀ v ∈ y :: ys, v.toNat < l.clearCode.toNat := by
  obtain ⟨y, ys, hslot⟩ := h.data_entry hc
  exact ⟨y, ys, hslot, Lzw.entry_of_slot hslot, h.symbols _ (List.mem_of_getElem? hslot)⟩

/-- A dictionary with an entry for the previous code and not full has room at this width
(41_lzw.md R108, R109). -/
theorem Lzw.Inv.room {m : Byte} {l : Lzw} (h : l.Inv m) (hp : l.prev ≠ none)
    (hfull : l.dictLen.toNat < 4096) : l.dictLen.toNat < 2 ^ l.codeWidth.toNat := by
  rcases h.lenRoom hp with hroom | hwide
  · exact hroom
  · rw [hwide]
    exact hfull

/-- A known code that appends appends the previous entry with the entry's first symbol, whatever a free
slot would hold (41_lzw.md R104). -/
theorem Lzw.learnKnown_of_slots {l : Lzw} {c p : Code} {ps xs : List Sym}
    {y : Sym} (d : Nat) (hp : l.prev = some p) (hfull : l.dictLen.toNat < 4096)
    (hps : l.dict[p.toNat]? = some (.seq ps)) (hxs : l.dict[c.toNat]? = some (.seq (y :: xs))) :
    l.learnKnown d c = l.append (ps ++ [y]) := by
  rw [Lzw.learnKnown_of_append hp hfull, Lzw.entryHead, Lzw.entry_of_slot hps,
    Lzw.entry_of_slot hxs]
  rfl

/-- The two things a known code can do to the dictionary: leave it, or append one entry of image symbols
(41_lzw.md R104, R107). -/
theorem Lzw.Inv.learnKnown_cases {m : Byte} {l : Lzw} (h : l.Inv m) {c : Code} (hc : l.IsDataCode c) :
    (∀ d, l.learnKnown d c = l) ∨
    (l.dictLen.toNat < 2 ^ l.codeWidth.toNat ∧ l.dictLen.toNat < 4096 ∧
      ∃ e, e ≠ [] ∧ (∀ v ∈ e, v.toNat < l.clearCode.toNat) ∧
        ∀ d, l.learnKnown d c = l.append e) := by
  cases hp : l.prev with
  | none => exact .inl fun d => Lzw.learnKnown_of_skip (.inl hp)
  | some p =>
    rcases Nat.lt_or_ge l.dictLen.toNat 4096 with hfull | hfull
    · obtain ⟨z, zs, hps, -, hz⟩ := h.entry (h.prevData p hp) 0
      obtain ⟨y, ys, hxs, -, hy⟩ := h.entry hc 0
      refine .inr ⟨h.room (by simp [hp]) hfull, hfull, z :: zs ++ [y], by simp, fun v hv => ?_,
        fun d => Lzw.learnKnown_of_slots d hp hfull hps hxs⟩
      rcases List.mem_append.1 hv with hv | hv
      · exact hz v hv
      · exact hy v (List.mem_singleton.1 hv ▸ List.mem_cons_self)
    · exact .inl fun d => Lzw.learnKnown_of_skip (.inr hfull)

/-- A known code keeps the invariant (41_lzw.md R104, R109). -/
theorem Lzw.Inv.known {m : Byte} {l : Lzw} (h : l.Inv m) {c : Code} (hc : l.IsDataCode c) (d : Nat) :
    (Lzw.settle c { l.learnKnown d c with out := l.out ++ l.entry d c }).Inv m := by
  obtain ⟨y, ys, -, hentry, hsyms⟩ := h.entry hc d
  rw [hentry]
  rcases h.learnKnown_cases hc with hskip | ⟨hroom, hfull, e, hne, he, hlearn⟩
  · rw [hskip d]
    exact (h.extendOut hsyms).settle hc
  · rw [hlearn d]
    exact ((h.append hne he hroom).extendOut hsyms).settle (c := c)
      ⟨(Lzw.append_dictLen e hfull).symm ▸ Nat.lt_succ_of_lt hc.1, hc.2⟩

/-- A code one past the last entry is a data code once its entry is appended (41_lzw.md R105). -/
theorem Lzw.Inv.kwkwk {m : Byte} {l : Lzw} (h : l.Inv m) {c : Code} (hp : l.prev ≠ none)
    (hc : c.toNat = l.dictLen.toNat) (d : Nat) :
    (Lzw.settle c { l.append (l.rebuilt d) with out := l.out ++ l.rebuilt d }).Inv m := by
  obtain ⟨p, hp'⟩ := Option.ne_none_iff_exists'.1 hp
  obtain ⟨y, ys, hslot, -, hsyms⟩ := h.entry (h.prevData p hp') d
  have hfull : l.dictLen.toNat < 4096 := hc ▸ c.isLt
  have hnew (k : Code) (hk : k.toNat < l.dictLen.toNat) : c ≠ k := by
    rintro rfl
    omega
  have he : ∀ v ∈ y :: ys ++ [y], v.toNat < l.clearCode.toNat := fun v hv => by
    rcases List.mem_append.1 hv with hv | hv
    · exact hsyms v hv
    · exact hsyms v (List.mem_singleton.1 hv ▸ List.mem_cons_self)
  rw [Lzw.rebuilt_of_slot hp' hslot]
  exact ((h.append (by simp) he (h.room hp hfull)).extendOut he).settle (c := c)
    ⟨(Lzw.append_dictLen (y :: ys ++ [y]) hfull).symm ▸ Nat.lt_succ_of_le hc.le,
      hnew _ h.clear_lt_dictLen, hnew _ h.eoi_lt_dictLen⟩

end Sys2Proof.Machine

end

/-! ## One code of the LZW unit, and what its steps do

A turn of the unit and a turn of `lzwLoop` are both `lzwNext` of the unit's own registers and inputs, so
what is shown of `lzwNext` holds of both (41_lzw.md R96 to R113). -/

section

namespace Sys2Proof.Machine

/-! ### One code, as a function of the unit's registers and inputs (41_lzw.md R96, R97) -/

/-- What one turn of the decode loop answers: an error, the end of the loop, or the registers for the next
code. -/
inductive LzwAnswer where
  | fails (e : DecodeError)
  | leaves (l : Lzw)
  | goesOn (l : Lzw)

/-- `Emit(s); prev <- c; LzwGrow()` from registers `l` (41_lzw.md R97, R110). -/
def lzwEmit (npix : Nat) (xs : List Sym) (c : Code) (l : Lzw) : LzwAnswer :=
  if npix < l.out.length + xs.length then .fails (.pixelCountMismatch (l.out.length + xs.length))
  else .goesOn (Lzw.settle c { l with out := l.out ++ xs })

/-- One turn of the decode loop from registers `l` (41_lzw.md R97). -/
def lzwNext (draw : Nat) (m : Byte) (payload : List Byte) (npix : Nat) (l : Lzw) : LzwAnswer :=
  match l.peekCode payload with
  | none => .fails (.endOfPayload l.bitPos.toNat)
  | some c =>
    match decodeCode l.ctx c with
    | .lzwClear _ => .goesOn { l.skipCode.reset m with prev := none }
    | .lzwEoi _ =>
      if l.out.length = npix then .leaves l.skipCode else .fails (.pixelCountMismatch l.out.length)
    | .lzwKnown _ => lzwEmit npix (l.skipCode.entry draw c) c (l.skipCode.learnKnown draw c)
    | .lzwKwkwk _ =>
      lzwEmit npix (l.skipCode.rebuilt draw) c (l.skipCode.append (l.skipCode.rebuilt draw))
    | _ => .fails (.invalidLzwCode c)

/-- What the machine makes of an answer of its LZW unit (41_lzw.md R97, R103). -/
def State.answerLzw (s : State) : LzwAnswer → State
  | .fails e => s.raise e
  | .leaves l => { s with lz := l, unit := .reorder }
  | .goesOn l => { s with lz := l }

/-- What the decode loop makes of an answer, `next` being its remaining turns (41_lzw.md R97). -/
def LzwAnswer.result (next : Lzw → Except DecodeError (List Sym)) :
    LzwAnswer → Except DecodeError (List Sym)
  | .fails e => .error e
  | .leaves l => .ok l.out
  | .goesOn l => next l

theorem State.emitSyms_eq (xs : List Sym) (c : Code) (l : Lzw) (s : State) :
    State.emitSyms xs c { s with lz := l } = s.answerLzw (lzwEmit s.img.pixels xs c l) := by
  rcases Nat.lt_or_ge s.img.pixels (l.out.length + xs.length) with h | h
  · rw [State.emitSyms_of_overlong h, lzwEmit, if_pos h]
    rfl
  · rw [State.emitSyms_of_fits h, lzwEmit, if_neg (Nat.not_lt.2 h)]
    rfl

/-- A turn of the unit is `lzwNext` of its registers and inputs (41_lzw.md R96, R97). -/
theorem State.lzwTurn_eq (s : State) :
    s.lzwTurn =
      s.answerLzw (lzwNext s.draws s.img.minCode s.img.payload s.img.pixels s.lz) := by
  cases hp : s.lz.peekCode s.img.payload with
  | none => simp only [State.lzwTurn, lzwNext, hp]; rfl
  | some c =>
    simp only [State.lzwTurn, State.lzwCode, State.skipCode_lz, Lzw.skipCode_ctx, lzwNext, hp]
    rcases decodeCode_cases s.lz.ctx c with ⟨hc, -⟩ | ⟨hc, -⟩ | ⟨hc, -⟩ | ⟨hc, -⟩ | ⟨hc, -⟩ <;>
      simp only [hc]
    · rfl
    · by_cases hn : s.lz.out.length = s.img.pixels
      · rw [if_pos hn]
        exact if_pos hn
      · rw [if_neg hn]
        exact if_neg hn
    · exact State.emitSyms_eq _ c _ s
    · exact State.emitSyms_eq _ c _ s
    · rfl

/-- A turn of `lzwLoop` is `lzwNext` too (41_lzw.md R97). -/
theorem lzwLoop_succ (draw : Nat) (m : Byte) (payload : List Byte) (npix n : Nat) (l : Lzw) :
    lzwLoop draw m payload npix (n + 1) l =
      (lzwNext draw m payload npix l).result (lzwLoop draw m payload npix n) := by
  have hemit (xs : List Sym) (c : Code) (k : Lzw) (hk : k.out = l.out) :
      (lzwEmit npix xs c k).result (lzwLoop draw m payload npix n) =
        if npix < l.out.length + xs.length then
          .error (.pixelCountMismatch (l.out.length + xs.length))
        else lzwLoop draw m payload npix n (Lzw.settle c { k with out := l.out ++ xs }) := by
    rw [lzwEmit, hk]
    split <;> rfl
  rw [lzwLoop, lzwNext]
  cases l.peekCode payload with
  | none => rfl
  | some c =>
    simp only [Lzw.skipCode_ctx]
    rcases decodeCode_cases l.ctx c with ⟨hc, -⟩ | ⟨hc, -⟩ | ⟨hc, -⟩ | ⟨hc, -⟩ | ⟨hc, -⟩ <;>
      simp only [hc]
    · rfl
    · split <;> rfl
    · exact (hemit _ c (l.skipCode.learnKnown draw c) (Lzw.learnKnown_out _ _ _)).symm
    · exact (hemit _ c (l.skipCode.append (l.skipCode.rebuilt draw)) rfl).symm
    · rfl

/-! ### Codes under the invariant (41_lzw.md R109) -/

/-- An Emit that goes on stayed within the pixel count and moved no bit position (41_lzw.md R110). -/
theorem lzwEmit_goesOn {npix : Nat} {xs : List Sym} {c : Code} {l l' : Lzw}
    (h : lzwEmit npix xs c l = .goesOn l') :
    l' = Lzw.settle c { l with out := l.out ++ xs } ∧ l'.out.length ≤ npix ∧ l'.bitPos = l.bitPos := by
  unfold lzwEmit at h
  split at h
  · cases h
  · cases h
    simp only [Lzw.settle_out, Lzw.settle_bitPos, List.length_append]
    exact ⟨trivial, by omega, trivial⟩

/-- A code that goes on lies in the payload, moves `bit_pos` past itself, and keeps the invariant and the
bound on the output (41_lzw.md R97, R109). -/
theorem lzwNext_goesOn {draw npix : Nat} {m : Byte} {payload : List Byte} {l l' : Lzw}
    (hi : l.Inv m) (ho : l.out.length ≤ npix) (h : lzwNext draw m payload npix l = .goesOn l') :
    (∃ c, l.peekCode payload = some c) ∧ l'.bitPos = l.skipCode.bitPos ∧ l'.Inv m ∧
      l'.out.length ≤ npix := by
  have hi' := hi.skipCode
  unfold lzwNext at h
  cases hp : l.peekCode payload with
  | none => simp only [hp] at h; cases h
  | some c =>
    refine ⟨⟨c, rfl⟩, ?_⟩
    simp only [hp] at h
    rcases decodeCode_cases l.ctx c with ⟨hc, -⟩ | ⟨hc, -⟩ | ⟨hc, hcl, heoi, hlt⟩ |
      ⟨hc, -, -, hlen, hprev⟩ | ⟨hc, -⟩ <;> simp only [hc] at h
    · cases h
      exact ⟨rfl, Lzw.reset_inv hi.minCodeOk hi'.clear hi'.eoi hi'.outSymbols, ho⟩
    · split at h <;> cases h
    · obtain ⟨rfl, hout, hbit⟩ := lzwEmit_goesOn h
      refine ⟨hbit.trans (Lzw.learnKnown_bitPos _ _ _), ?_, hout⟩
      rw [Lzw.learnKnown_out]
      exact hi'.known ⟨hlt, hcl, heoi⟩ draw
    · obtain ⟨rfl, hout, hbit⟩ := lzwEmit_goesOn h
      exact ⟨hbit, hi'.kwkwk hprev hlen draw, hout⟩
    · cases h

/-- Settles O15: a code that leaves the loop running is one that `lzwNext` goes on from. -/
theorem everyCodeKeepsTheLzwInvariant : Obligations.EveryCodeKeepsTheLzwInvariant := by
  intro s t hr hu hi hstep ht
  rw [step_lzw hr hu, State.lzwTurn_eq] at hstep
  obtain rfl := Host.Outcome.next.inj hstep
  cases hn : lzwNext s.draws s.img.minCode s.img.payload s.img.pixels s.lz with
  | fails e => rw [hn] at ht; cases ht
  | leaves l => rw [hn] at ht; cases ht
  | goesOn l =>
    obtain ⟨-, -, hinv, hout⟩ := lzwNext_goesOn hi.lzw hi.outFits hn
    exact ⟨hinv, hout⟩

/-- Settles O16: both states answer the same `lzwNext`, and an answer that is no error changes the LZW
registers and the unit alone. -/
theorem lzwReadsOnlyItsOwnInputs : Obligations.LzwReadsOnlyItsOwnInputs := by
  intro s s' t hr hr' hu hu' hlz hm hp hn hd hstep ht
  rw [step_lzw hr hu, State.lzwTurn_eq] at hstep
  obtain rfl := Host.Outcome.next.inj hstep
  have hsame : lzwNext s'.draws s'.img.minCode s'.img.payload s'.img.pixels s'.lz =
      lzwNext s.draws s.img.minCode s.img.payload s.img.pixels s.lz := by rw [hlz, hm, hp, hn, hd]
  rw [step_lzw hr' hu', State.lzwTurn_eq, hsame]
  cases hnext : lzwNext s.draws s.img.minCode s.img.payload s.img.pixels s.lz with
  | fails e => rw [hnext] at ht; exact absurd rfl ht
  | leaves l => exact ⟨_, rfl, rfl, rfl, rfl, rfl⟩
  | goesOn l =>
    have hunit : s'.unit = s.unit := hu'.trans hu.symm
    exact ⟨_, rfl, hunit, rfl, by simp only [State.answerLzw, ← hunit], rfl⟩

/-- More turns than the payload has codes of 2 bits change no result (41_lzw.md R113). -/
theorem lzwLoop_of_moreTurns {draw npix n n' : Nat} {m : Byte} {payload : List Byte} {l : Lzw}
    (hp : payload.length < 2 ^ 32) (hi : l.Inv m) (ho : l.out.length ≤ npix)
    (hn : 8 * payload.length < l.bitPos.toNat + 2 * n) (hle : n ≤ n') :
    lzwLoop draw m payload npix n' l = lzwLoop draw m payload npix n l := by
  induction n generalizing n' l with
  | zero =>
    cases n' with
    | zero => rfl
    | succ n' =>
      have hend : l.peekCode payload = none := if_pos (by omega)
      rw [lzwLoop_succ, lzwNext, hend]
      rfl
  | succ n ih =>
    obtain ⟨k, rfl⟩ := Nat.exists_eq_add_of_le' hle
    rw [← Nat.add_assoc, lzwLoop_succ, lzwLoop_succ]
    cases hnext : lzwNext draw m payload npix l with
    | fails e => rfl
    | leaves l' => rfl
    | goesOn l' =>
      obtain ⟨⟨c, hread⟩, hbit, hi', ho'⟩ := lzwNext_goesOn hi ho hnext
      have hskip := Lzw.skipCode_bitPos hread hp
      rw [← hbit] at hskip
      have hwide := hi.widthLow
      have hmin := hi.minCode
      exact ih hi' ho' (by omega) (Nat.le_add_left n k)

/-- Settles O18: `lzwDecode` has turns enough for a payload read from bit 0. -/
theorem lzwDecodeEndsWithinItsPayload : Obligations.LzwDecodeEndsWithinItsPayload := by
  intro draw m payload npix n h1 h11 hp hn
  have hm : minCodeOk m = true := (minCodeOk_iff m).2 ⟨h1, h11⟩
  rw [lzwDecode, if_pos hm]
  exact lzwLoop_of_moreTurns hp (Lzw.init_inv _ hm) (Nat.zero_le _)
    (by simp only [Lzw.init, BitVec.ofNat_eq_ofNat, BitVec.toNat_ofNat]; omega) hn

/-- Settles O14: the front of an image step runs LzwInit. -/
theorem everyImageStartsTheLzwInvariant : Obligations.EveryImageStartsTheLzwInvariant := by
  intro op s hsize h1 h11
  have hm : minCodeOk (s.loadImage op).img.minCode = true := (minCodeOk_iff op.minCode).2 ⟨h1, h11⟩
  have hfits : ¬ (s.loadImage op).params.maxImagePixels < (s.loadImage op).img.pixels :=
    Nat.not_lt.2 hsize
  have hbegin : (s.loadImage op).beginLzw =
      { s.loadImage op with lz := (s.loadImage op).lz.init op.minCode, unit := .lzw } := by
    rw [State.beginLzw, if_neg hfits, if_pos hm]
    rfl
  rw [hbegin]
  exact ⟨rfl, ⟨Lzw.init_inv _ hm, Nat.zero_le _⟩, rfl, rfl, rfl⟩

/-! ### The data codes, field by field (41_lzw.md R104, R105, R108, R110) -/

/-- Error entry overwrites the LZW registers (60_exceptions.md R162). -/
theorem State.raise_of_lz (l : Lzw) (e : DecodeError) (s : State) :
    State.raise e { s with lz := l } = s.raise e := rfl

/-- Settles O11: `learnKnown` makes the dictionary and `settle` the rest. -/
theorem knownCodeEmitsAndAppends : Obligations.KnownCodeEmitsAndAppends := by
  intro c s xs hi hc hxs hfits
  have hentry : s.lz.entry s.draws c = xs := Lzw.entry_of_slot hxs
  have hexec : exec (.lzwKnown c) s =
      .next { s with
        lz := Lzw.settle c { s.lz.learnKnown s.draws c with out := s.lz.out ++ xs } } := by
    have hout := Lzw.learnKnown_out s.draws c s.lz
    show Host.Outcome.next (s.lzwKnown c) = _
    rw [State.lzwKnown, hentry, State.emitSyms_of_fits (by rw [hout]; exact hfits), hout]
  refine ⟨_, hexec, Lzw.settle_out _ _, Lzw.settle_prev _ _, fun hskip => ?_, fun p hp hfull => ?_, ?_,
    ?_, ?_, ?_⟩
  · rw [Lzw.settle_dict, Lzw.settle_dictLen, Lzw.learnKnown_of_skip (hskip.imp_right Eq.ge)]
    exact ⟨rfl, rfl⟩
  · obtain ⟨z, zs, hps⟩ := hi.lzw.data_entry (hi.lzw.prevData p hp)
    obtain ⟨y, ys, hcs⟩ := hi.lzw.data_entry hc
    obtain rfl : xs = y :: ys := Slot.seq.inj (Option.some.inj (hxs.symm.trans hcs))
    rw [Lzw.settle_dict, Lzw.settle_dictLen, Lzw.learnKnown_of_slots _ hp hfull hps hcs]
    exact ⟨z :: zs, y, hps, rfl, hi.lzw.append_dict _, Lzw.append_dictLen (z :: zs ++ [y]) hfull⟩
  · rw [Lzw.settle_codeWidth, Lzw.settle_dictLen, Lzw.learnKnown_codeWidth]
  · rw [Lzw.settle_clearCode, Lzw.learnKnown_clearCode]
  · rw [Lzw.settle_eoiCode, Lzw.learnKnown_eoiCode]
  · rw [Lzw.settle_bitPos, Lzw.learnKnown_bitPos]

/-- Settles O12: the rebuilt entry is appended and emitted. -/
theorem kwkwkCodeRebuildsTheEntry : Obligations.KwkwkCodeRebuildsTheEntry := by
  intro c p s ps hi hp hlen hps hfits
  obtain ⟨y, ys, hslot⟩ := hi.lzw.data_entry (hi.lzw.prevData p hp)
  obtain rfl : ps = y :: ys := Slot.seq.inj (Option.some.inj (hps.symm.trans hslot))
  have hfull : s.lz.dictLen.toNat < 4096 := hlen ▸ c.isLt
  have hexec : exec (.lzwKwkwk c) s =
      .next { s with
        lz := Lzw.settle c
          { s.lz.append (y :: ys ++ [y]) with out := s.lz.out ++ (y :: ys ++ [y]) } } := by
    show Host.Outcome.next (s.lzwKwkwk c) = _
    rw [State.lzwKwkwk, Lzw.rebuilt_of_slot hp hslot,
      State.emitSyms_of_fits (by simpa using hfits)]
    rfl
  refine ⟨_, y, hexec, rfl, Lzw.settle_out _ _, Lzw.settle_prev _ _, ?_, ?_, ?_,
    Lzw.settle_clearCode _ _, Lzw.settle_eoiCode _ _, Lzw.settle_bitPos _ _⟩
  · rw [Lzw.settle_dict, hi.lzw.append_dict]
  · rw [Lzw.settle_dictLen, Lzw.append_dictLen _ hfull]
  · rw [Lzw.settle_codeWidth, Lzw.settle_dictLen]
    rfl

/-- Settles O13: the emit of either class raises the error with the length it would have reached. -/
theorem overlongOutputIsReported : Obligations.OverlongOutputIsReported := by
  intro c s hi
  constructor
  · intro xs _ hxs hlong
    refine ⟨s.raise (.pixelCountMismatch (s.lz.out.length + xs.length)), ?_, State.raise_errorOnly _ s⟩
    have hout := Lzw.learnKnown_out s.draws c s.lz
    show Host.Outcome.next (s.lzwKnown c) = _
    rw [State.lzwKnown, Lzw.entry_of_slot hxs,
      State.emitSyms_of_overlong (by rw [hout]; exact hlong), hout, State.raise_of_lz]
  · intro p ps hp hps hlong
    obtain ⟨y, ys, hslot⟩ := hi.lzw.data_entry (hi.lzw.prevData p hp)
    obtain rfl : ps = y :: ys := Slot.seq.inj (Option.some.inj (hps.symm.trans hslot))
    have hlen : (y :: ys ++ [y]).length = (y :: ys).length + 1 := List.length_append
    refine ⟨s.raise (.pixelCountMismatch (s.lz.out.length + ((y :: ys).length + 1))), ?_,
      State.raise_errorOnly _ s⟩
    show Host.Outcome.next (s.lzwKwkwk c) = _
    rw [State.lzwKwkwk, Lzw.rebuilt_of_slot hp hslot,
      State.emitSyms_of_overlong (by rw [hlen]; exact hlong), hlen, State.raise_of_lz]
    rfl

/-! ### EOI, the end of the payload, and the steps that run a code, a disposal or a command -/

/-- Settles O10: LzwFinish compares the counts. -/
theorem eoiCodeChecksThePixelCount : Obligations.EoiCodeChecksThePixelCount := fun _ s =>
  ⟨fun h => congrArg Host.Outcome.next (if_pos h), fun h =>
    ⟨s.raise (.pixelCountMismatch s.lz.out.length), congrArg Host.Outcome.next (if_neg h),
      State.raise_errorOnly _ s⟩⟩

/-- Settles O17: no code is read, so the turn is the error entry of R101. -/
theorem payloadThatEndsBeforeEoiIsReported : Obligations.PayloadThatEndsBeforeEoiIsReported := by
  intro s hr hu hshort
  have hend : s.lz.peekCode s.img.payload = none := if_pos hshort
  refine ⟨s.payloadEnded, ?_, State.raise_errorOnly (.endOfPayload s.lz.bitPos.toNat) s⟩
  simp only [step_lzw hr hu, State.lzwTurn, hend]

/-- Settles O49: inside a block a step is one unit turn, and at a boundary the pending write is the step. -/
theorem aStepRunsTheCodeDisposalOrCommand : Obligations.AStepRunsTheCodeDisposalOrCommand := by
  intro s c i v data q
  refine ⟨fun hr hu hread => ?_, fun hr hu => ?_, step_of_command⟩
  · rw [step_lzw hr hu, State.lzwTurn, hread]
    exact (exec_decodeCode c s.skipCode).symm
  · rw [step_of_inside hr (by rw [hu]; nofun), State.unitTurn, hu]
    exact (exec_decodeDisposal { s with unit := .paint }).symm

end Sys2Proof.Machine

end

/-! ## Literal codes, packed and decoded

PACK runs `Lzw.afterCode`, the decode loop `lzwNext`; on a literal both leave the same registers but for
`bit_pos` and `out`, which PACK does not use. So the loop always stands where PACK wrote the next code
(30_encoding.md R88; 41_lzw.md R104, R107, R108). -/

section

namespace Sys2Proof.Machine

/-! ### PACK uses neither `bit_pos` nor `out` (30_encoding.md R88) -/

/-- The registers at another bit position and with another output. -/
def Lzw.placed (b : BitVec 35) (o : List Sym) (l : Lzw) : Lzw := { l with bitPos := b, out := o }

@[simp] theorem Lzw.placed_codeWidth (b : BitVec 35) (o : List Sym) (l : Lzw) :
    (l.placed b o).codeWidth = l.codeWidth := rfl
@[simp] theorem Lzw.placed_bitPos (b : BitVec 35) (o : List Sym) (l : Lzw) :
    (l.placed b o).bitPos = b := rfl
@[simp] theorem Lzw.placed_out (b : BitVec 35) (o : List Sym) (l : Lzw) : (l.placed b o).out = o := rfl
@[simp] theorem Lzw.placed_ctx (b : BitVec 35) (o : List Sym) (l : Lzw) :
    (l.placed b o).ctx = l.ctx := rfl

theorem Lzw.settle_placed (b : BitVec 35) (o : List Sym) (c : Code) (l : Lzw) :
    (l.placed b o).settle c = (l.settle c).placed b o := by
  by_cases h : l.dictLen.toNat = 2 ^ l.codeWidth.toNat ∧ l.codeWidth.toNat < 12
  · have hset : l.settle c =
        { l with prev := some c, codeWidth := BitVec.ofNat 4 (l.codeWidth.toNat + 1) } := if_pos h
    rw [hset]
    exact if_pos h
  · have hset : l.settle c = { l with prev := some c } := if_neg h
    rw [hset]
    exact if_neg h

theorem Lzw.learnKnown_placed (b : BitVec 35) (o : List Sym) (d : Nat) (c : Code) (l : Lzw) :
    (l.placed b o).learnKnown d c = (l.learnKnown d c).placed b o := by
  have hprev : (l.placed b o).prev = l.prev := rfl
  rw [Lzw.learnKnown, Lzw.learnKnown, hprev]
  cases l.prev with
  | none => rfl
  | some p =>
    by_cases h : l.dictLen.toNat < 4096
    · simp only [if_pos h]
      exact if_pos h
    · simp only [if_neg h]
      exact if_neg h

theorem Lzw.afterCode_placed (b : BitVec 35) (o : List Sym) (m : Byte) (c : Code) (l : Lzw) :
    (l.placed b o).afterCode m c = (l.afterCode m c).placed b o := by
  unfold Lzw.afterCode
  rw [Lzw.placed_ctx]
  rcases decodeCode_cases l.ctx c with ⟨hc, -⟩ | ⟨hc, -⟩ | ⟨hc, -⟩ | ⟨hc, -⟩ | ⟨hc, -⟩ <;>
    simp only [hc]
  · rfl
  · rw [Lzw.learnKnown_placed, Lzw.settle_placed]
  · exact Lzw.settle_placed b o c (l.append (l.rebuilt 0))

theorem packBits_placed (b : BitVec 35) (o : List Sym) (m : Byte) (cs : List Code) (l : Lzw) :
    packBits m cs (l.placed b o) = packBits m cs l := by
  induction cs generalizing l with
  | nil => rfl
  | cons c cs ih => rw [packBits, packBits, Lzw.afterCode_placed, ih, Lzw.placed_codeWidth]

theorem codeBits_length (c : Code) (w : Nat) : (codeBits c w).length = w := by simp [codeBits]

/-- No code takes more than the 15 bits that `code_width` can name. -/
theorem packBits_length_le (m : Byte) (cs : List Code) (l : Lzw) :
    (packBits m cs l).length ≤ 15 * cs.length := by
  induction cs generalizing l with
  | nil => exact Nat.le_refl 0
  | cons c cs ih =>
    have hw := l.codeWidth.isLt
    have hcs := ih (l.afterCode m c)
    rw [packBits, List.length_append, codeBits_length, List.length_cons]
    omega

/-- Packed bits take whole bytes, the last one padded (30_encoding.md R88). -/
theorem bitsBytes_length {n : Nat} {bits : List Bool} (h : bits.length ≤ n) :
    (bitsBytes n bits).length = (bits.length + 7) / 8 := by
  induction n generalizing bits with
  | zero =>
    obtain rfl := List.eq_nil_of_length_eq_zero (Nat.le_zero.1 h)
    rfl
  | succ n ih =>
    cases bits with
    | nil => rfl
    | cons b bs =>
      have hrest : ((b :: bs).drop 8).length = (b :: bs).length - 8 := List.length_drop
      have hcons : (b :: bs).length = bs.length + 1 := List.length_cons
      rw [bitsBytes, List.length_cons, ih (by omega)]
      omega

/-! ### The decode loop at a packed code -/

theorem Lzw.Inv.clearCode_eq {m : Byte} {l : Lzw} (h : l.Inv m) :
    l.clearCode = BitVec.ofNat 12 (2 ^ m.toNat) := by
  rw [← h.clear, BitVec.ofNat_toNat, BitVec.setWidth_eq]

theorem Lzw.Inv.eoiCode_eq {m : Byte} {l : Lzw} (h : l.Inv m) :
    l.eoiCode = BitVec.ofNat 12 (2 ^ m.toNat + 1) := by
  rw [← h.eoi, BitVec.ofNat_toNat, BitVec.setWidth_eq]

/-- Every image symbol has its one-symbol entry (41_lzw.md R100). -/
def Lzw.Literals (l : Lzw) : Prop :=
  ∀ v : Sym, v.toNat < l.clearCode.toNat → l.dict[v.toNat]? = some (.seq [v])

theorem Lzw.reset_literals (m : Byte) (l : Lzw) : (l.reset m).Literals := fun v hv =>
  (freshDict_symbol hv).trans (by rw [BitVec.ofNat_toNat, BitVec.setWidth_eq])

theorem Lzw.Inv.learnKnown_literals {m : Byte} {l : Lzw} (h : l.Inv m) (hl : l.Literals) {c : Code}
    (hc : l.IsDataCode c) (d : Nat) : (l.learnKnown d c).Literals := by
  rcases h.learnKnown_cases hc with hskip | ⟨-, -, e, -, -, hlearn⟩
  · rw [hskip]
    exact hl
  · rw [hlearn]
    exact fun v hv => (h.append_slot e (Nat.lt_trans hv h.clear_lt_dictLen)).trans (hl v hv)

theorem Lzw.settle_literals {l : Lzw} (hl : l.Literals) (c : Code) : (l.settle c).Literals := by
  intro v hv
  rw [Lzw.settle_clearCode] at hv
  rw [Lzw.settle_dict]
  exact hl v hv

/-- Under the invariant no free value reaches the dictionary, so PACK and the loop learn the same entry
(41_lzw.md R109). -/
theorem Lzw.Inv.learnKnown_draw {m : Byte} {l : Lzw} (h : l.Inv m) {c : Code} (hc : l.IsDataCode c)
    (d d' : Nat) : l.learnKnown d c = l.learnKnown d' c := by
  rcases h.learnKnown_cases hc with hskip | ⟨-, -, e, -, -, hlearn⟩
  · rw [hskip, hskip]
  · rw [hlearn, hlearn]

/-- A data code is of the class KNOWN (30_encoding.md R82). -/
theorem Lzw.IsDataCode.decodeCode {l : Lzw} {c : Code} (h : l.IsDataCode c) :
    decodeCode l.ctx c = .lzwKnown c :=
  (if_neg h.2.1).trans ((if_neg h.2.2).trans (if_pos h.1))

/-- The decode loop stands at the first bit of the codes `cs` that PACK wrote from the registers it holds
(30_encoding.md R88). -/
structure Lzw.Reads (m : Byte) (bits : List Bool) (cs : List Code) (l : Lzw) : Prop where
  inv : l.Inv m
  literals : l.Literals
  packed : ∃ pre, l.bitPos.toNat = pre.length ∧ bits = pre ++ packBits m cs l

section

variable {draw npix : Nat} {m : Byte} {bits : List Bool} {c : Code} {cs : List Code} {l : Lzw}

/-- The loop reads the code that PACK wrote (20_memory.md R44; 41_lzw.md R101). -/
theorem Lzw.Reads.peekCode (h : l.Reads m bits (c :: cs)) (hc : c.toNat < 2 ^ l.codeWidth.toNat) :
    l.peekCode (bitsBytes bits.length bits) = some c := by
  obtain ⟨pre, hpos, hbits⟩ := h.packed
  rw [packBits, ← List.append_assoc] at hbits
  have hlen : bits.length = pre.length + l.codeWidth.toNat + (packBits m cs (l.afterCode m c)).length := by
    rw [hbits, List.length_append, List.length_append, codeBits_length]
  have hread : payloadBits (bitsBytes bits.length bits) pre.length l.codeWidth.toNat = c.toNat := by
    rw [hbits]
    exact aPackedCodeIsReadBack pre _ c _ _ h.inv.widthHigh hc (Nat.le_refl _)
  have hbytes := bitsBytes_length (Nat.le_refl bits.length)
  rw [Lzw.peekCode, if_neg (by omega), hpos, hread, BitVec.ofNat_toNat, BitVec.setWidth_eq]

/-- A code from which the loop goes on as PACK did leaves the loop at the next code. -/
theorem Lzw.Reads.next {o : List Sym} (h : l.Reads m bits (c :: cs))
    (hp : (bitsBytes bits.length bits).length < 2 ^ 32) (ho : l.out.length ≤ npix)
    (hl : (l.afterCode m c).Literals)
    (hn : lzwNext draw m (bitsBytes bits.length bits) npix l =
      .goesOn ((l.afterCode m c).placed l.skipCode.bitPos o)) :
    ((l.afterCode m c).placed l.skipCode.bitPos o).Reads m bits cs := by
  obtain ⟨⟨_, hread⟩, -, hinv, -⟩ := lzwNext_goesOn h.inv ho hn
  obtain ⟨pre, hpos, hbits⟩ := h.packed
  refine ⟨hinv, hl, pre ++ codeBits c l.codeWidth.toNat, ?_, ?_⟩
  · rw [Lzw.placed_bitPos, Lzw.skipCode_bitPos hread hp, List.length_append, codeBits_length, hpos]
  · rw [packBits_placed, hbits, packBits, List.append_assoc]

/-- A clear code resets what PACK reset (41_lzw.md R102). -/
theorem Lzw.Reads.clear (h : l.Reads m bits (l.clearCode :: cs))
    (hp : (bitsBytes bits.length bits).length < 2 ^ 32) (ho : l.out.length ≤ npix) :
    ∃ l', lzwNext draw m (bitsBytes bits.length bits) npix l = .goesOn l' ∧
      l'.Reads m bits cs ∧ l'.out = l.out := by
  have hclass : decodeCode l.ctx l.clearCode = .lzwClear l.clearCode := if_pos rfl
  have hfits : l.clearCode.toNat < 2 ^ l.codeWidth.toNat :=
    Nat.lt_of_lt_of_le h.inv.clear_lt_dictLen h.inv.lenHigh
  have hafter : l.afterCode m l.clearCode = { l.reset m with prev := none } := by
    simp only [Lzw.afterCode, hclass]
  have hnext : lzwNext draw m (bitsBytes bits.length bits) npix l =
      .goesOn ((l.afterCode m l.clearCode).placed l.skipCode.bitPos l.out) := by
    rw [hafter]
    simp only [lzwNext, h.peekCode hfits, hclass]
    rfl
  exact ⟨_, hnext, h.next hp ho (hafter ▸ Lzw.reset_literals m l) hnext, rfl⟩

/-- A literal emits its symbol, and the dictionary grows as PACK's did (41_lzw.md R104, R107, R108). -/
theorem Lzw.Reads.literal {v : Sym} (h : l.Reads m bits (v.setWidth 12 :: cs))
    (hp : (bitsBytes bits.length bits).length < 2 ^ 32) (hv : v.toNat < l.clearCode.toNat)
    (ho : l.out.length + 1 ≤ npix) :
    ∃ l', lzwNext draw m (bitsBytes bits.length bits) npix l = .goesOn l' ∧
      l'.Reads m bits cs ∧ l'.out = l.out ++ [v] := by
  have hclear := h.inv.clear
  have heoi := h.inv.eoi
  have hlow := h.inv.lenLow
  have hcode : (v.setWidth 12).toNat = v.toNat := BitVec.toNat_setWidth_of_le (by omega)
  have hdata : l.IsDataCode (v.setWidth 12) :=
    ⟨by omega, fun h0 => by rw [h0] at hcode; omega, fun h0 => by rw [h0] at hcode; omega⟩
  have hfits : (v.setWidth 12).toNat < 2 ^ l.codeWidth.toNat :=
    Nat.lt_of_lt_of_le hdata.1 h.inv.lenHigh
  have hentry : l.skipCode.entry draw (v.setWidth 12) = [v] :=
    Lzw.entry_of_slot (hcode.symm ▸ h.literals v hv)
  have hlearn : l.skipCode.learnKnown draw (v.setWidth 12) =
      (l.learnKnown 0 (v.setWidth 12)).placed l.skipCode.bitPos l.out := by
    rw [← h.inv.learnKnown_draw hdata draw]
    exact Lzw.learnKnown_placed l.skipCode.bitPos l.out draw _ l
  have hafter : l.afterCode m (v.setWidth 12) =
      (l.learnKnown 0 (v.setWidth 12)).settle (v.setWidth 12) := by
    simp only [Lzw.afterCode, hdata.decodeCode]
  have hnext : lzwNext draw m (bitsBytes bits.length bits) npix l =
      .goesOn ((l.afterCode m (v.setWidth 12)).placed l.skipCode.bitPos (l.out ++ [v])) := by
    simp only [lzwNext, h.peekCode hfits, hdata.decodeCode, hentry, hlearn]
    rw [hafter, ← Lzw.settle_placed]
    exact if_neg (Nat.not_lt.2 ho)
  have hliterals : (l.afterCode m (v.setWidth 12)).Literals :=
    hafter ▸ Lzw.settle_literals (h.inv.learnKnown_literals h.literals hdata 0) _
  exact ⟨_, hnext, h.next hp (Nat.le_of_succ_le ho) hliterals hnext, rfl⟩

/-- The EOI code leaves the loop (41_lzw.md R103). -/
theorem Lzw.Reads.eoi (h : l.Reads m bits (l.eoiCode :: cs)) (ho : l.out.length = npix) :
    lzwNext draw m (bitsBytes bits.length bits) npix l = .leaves l.skipCode := by
  have hclear := h.inv.clear
  have heoi := h.inv.eoi
  have hne : l.eoiCode ≠ l.clearCode := fun h0 => by rw [h0] at heoi; omega
  have hclass : decodeCode l.ctx l.eoiCode = .lzwEoi l.eoiCode :=
    (if_neg hne).trans (if_pos rfl)
  have hfits : l.eoiCode.toNat < 2 ^ l.codeWidth.toNat :=
    Nat.lt_of_lt_of_le h.inv.eoi_lt_dictLen h.inv.lenHigh
  simp only [lzwNext, h.peekCode hfits, hclass, if_pos ho]

/-- Literals up to the EOI code are emitted one by one (41_lzw.md R104, R114). -/
theorem lzwLoop_literals {n : Nat} {xs : List Sym}
    (h : l.Reads m bits (xs.map (fun v => v.setWidth 12) ++ [BitVec.ofNat 12 (2 ^ m.toNat + 1)]))
    (hp : (bitsBytes bits.length bits).length < 2 ^ 32) (hx : ∀ v ∈ xs, v.toNat < 2 ^ m.toNat)
    (ho : l.out.length + xs.length = npix) (hn : xs.length < n) :
    lzwLoop draw m (bitsBytes bits.length bits) npix n l = .ok (l.out ++ xs) := by
  induction xs generalizing l n with
  | nil =>
    obtain ⟨n, rfl⟩ := Nat.exists_eq_add_one_of_ne_zero (Nat.ne_of_gt hn)
    rw [List.map_nil, List.nil_append, ← h.inv.eoiCode_eq] at h
    rw [lzwLoop_succ, h.eoi ho, List.append_nil]
    rfl
  | cons v xs ih =>
    obtain ⟨n, rfl⟩ := Nat.exists_eq_add_one_of_ne_zero (Nat.ne_of_gt (Nat.zero_lt_of_lt hn))
    obtain ⟨hv, hxs⟩ := List.forall_mem_cons.1 hx
    rw [List.length_cons] at ho hn
    obtain ⟨l', hnext, h', hout⟩ := Lzw.Reads.literal (draw := draw) (npix := npix) h hp
      (h.inv.clear ▸ hv) (by omega)
    have hlen : l'.out.length = l.out.length + 1 := by rw [hout, List.length_append]; rfl
    calc lzwLoop draw m (bitsBytes bits.length bits) npix (n + 1) l
        = lzwLoop draw m (bitsBytes bits.length bits) npix n l' := by rw [lzwLoop_succ, hnext]; rfl
      _ = .ok (l'.out ++ xs) := ih h' hxs (by omega) (by omega)
      _ = .ok (l.out ++ v :: xs) := by rw [hout, List.append_assoc]; rfl

end

/-- Settles O19: the loop reads the clear code, then the literals, with turns enough for any payload. -/
theorem literalCodesDecodeToTheirPixels : Obligations.LiteralCodesDecodeToTheirPixels := by
  intro draw m xs h1 h11 hx hlen
  have hm : minCodeOk m = true := (minCodeOk_iff m).2 ⟨h1, h11⟩
  have hinit := Lzw.init_inv State.reset.lz hm
  generalize hcodes : [BitVec.ofNat 12 (2 ^ m.toNat)] ++ xs.map (fun v => v.setWidth 12) ++
    [BitVec.ofNat 12 (2 ^ m.toNat + 1)] = codes
  generalize hbits : packBits m codes (Lzw.init m State.reset.lz) = bits
  have hpack : packCodes m codes = bitsBytes bits.length bits := by rw [← hbits]; rfl
  have hreads : (Lzw.init m State.reset.lz).Reads m bits codes :=
    ⟨hinit, Lzw.reset_literals m _, [], rfl, hbits.symm⟩
  have hsize : bits.length ≤ 15 * (xs.length + 2) := by
    have hcount : codes.length = 1 + xs.length + 1 := by
      rw [← hcodes, List.length_append, List.length_append, List.length_map]
      rfl
    have hle := packBits_length_le m codes (Lzw.init m State.reset.lz)
    rw [hbits] at hle
    omega
  have hp : (bitsBytes bits.length bits).length < 2 ^ 32 := by
    rw [bitsBytes_length (Nat.le_refl _)]
    omega
  rw [← hcodes, List.append_assoc, ← hinit.clearCode_eq] at hreads
  obtain ⟨l', hnext, h', hout⟩ :=
    Lzw.Reads.clear (draw := draw) (npix := xs.length) hreads hp (Nat.zero_le _)
  have hempty : l'.out = [] := hout
  rw [hpack, ← lzwDecodeEndsWithinItsPayload draw m _ xs.length
    (4 * (bitsBytes bits.length bits).length + 1 + xs.length + 1) h1 h11 hp (by omega),
    lzwLoop_succ, hnext]
  calc lzwLoop draw m (bitsBytes bits.length bits) xs.length
        (4 * (bitsBytes bits.length bits).length + 1 + xs.length) l'
      = .ok (l'.out ++ xs) := lzwLoop_literals h' hp hx (by simp [hempty]) (by omega)
    _ = .ok xs := by rw [hempty, List.nil_append]

end Sys2Proof.Machine

end

/-! ## The image block: its frame, or the first of its errors

An image that decodes passes through `State.readyToPaint`, whose palette and painting are those of
`ActiveTable` and `PaintsTo`. Each end of the block is one equation of `composite` there
(42_block_parser.md R128, R129; 44_compositor.md R135). -/

section

namespace Sys2Proof.Machine

/-- Settles O20: each unit turn is a turn of the pass, and there are turns enough for the payload. -/
theorem theImageStepIsOnePass : Obligations.TheImageStepIsOnePass :=
  fun _ s hp => congrArg Host.Outcome.next (s.imageStep_eq_imagePass hp)

/-! ### The ends of Composite (44_compositor.md R135, R141 to R145) -/

@[simp] theorem State.trackRestore_palette (s : State) : s.trackRestore.palette = s.palette := by
  rw [State.trackRestore_eq]
  rfl

@[simp] theorem State.trackRestore_paintEnv (table : List Rgb) (len : BitVec 9) (s : State) :
    s.trackRestore.paintEnv table len = s.paintEnv table len := by
  rw [State.trackRestore_eq]
  rfl

@[simp] theorem State.trackRestore_idx (s : State) : s.trackRestore.idx = s.idx := by
  rw [State.trackRestore_eq]

@[simp] theorem State.trackRestore_canvas (s : State) :
    s.trackRestore.comp.canvas = s.comp.canvas := by
  rw [State.trackRestore_eq]

/-- The restore base TrackRestore leaves (44_compositor.md R141). -/
theorem State.trackRestore_restoreFrom (s : State) :
    s.trackRestore.comp.restoreFrom =
      if s.comp.frameCount ≠ 0 ∧ s.comp.lastDisp ≠ 3 then some (s.comp.frameCount - 1)
      else s.comp.restoreFrom := by
  unfold State.trackRestore
  split <;> rfl

theorem State.composite_of_noTable {s : State} (hp : s.palette = none) :
    s.composite = s.trackRestore.raise .noColorTable := by
  simp only [State.composite, State.trackRestore_palette, hp]

theorem State.composite_of_table {s : State} {table : List Rgb} {len : BitVec 9}
    (hp : s.palette = some (table, len)) :
    s.composite = s.trackRestore.paintAndDeliver table len := by
  simp only [State.composite, State.trackRestore_palette, hp]

theorem State.composite_of_outOfRange {s : State} {table : List Rgb} {len : BitVec 9} {v : Sym}
    (hp : s.palette = some (table, len))
    (hv : paintFrom (s.paintEnv table len) 0 s.idx s.comp.canvas = .error v) :
    s.composite = s.trackRestore.raise (.pixelIndexOutOfRange v) := by
  simp only [State.composite_of_table hp, State.paintAndDeliver, State.trackRestore_paintEnv,
    State.trackRestore_idx, State.trackRestore_canvas, hv]

theorem State.composite_of_painted {s : State} {table : List Rgb} {len : BitVec 9}
    {canvas : List Pixel} (hp : s.palette = some (table, len))
    (hc : paintFrom (s.paintEnv table len) 0 s.idx s.comp.canvas = .ok canvas) :
    s.composite = (s.painted canvas s.trackRestore.comp.restoreFrom).deliverAndRecord := by
  simp only [State.composite_of_table hp, State.paintAndDeliver, State.trackRestore_paintEnv,
    State.trackRestore_idx, State.trackRestore_canvas, hc]
  rw [State.trackRestore_eq]
  rfl

theorem State.composite_of_room {s : State} {table : List Rgb} {len : BitVec 9}
    {canvas : List Pixel} (hp : s.palette = some (table, len))
    (hc : paintFrom (s.paintEnv table len) 0 s.idx s.comp.canvas = .ok canvas)
    (hroom : s.comp.frameCount.toNat < s.params.maxFrames) :
    s.composite =
      (s.painted canvas s.trackRestore.comp.restoreFrom).deliver.recordPrevious.endImage :=
  (State.composite_of_painted hp hc).trans (if_pos hroom)

theorem State.composite_of_full {s : State} {table : List Rgb} {len : BitVec 9}
    {canvas : List Pixel} (hp : s.palette = some (table, len))
    (hc : paintFrom (s.paintEnv table len) 0 s.idx s.comp.canvas = .ok canvas)
    (hfull : s.params.maxFrames ≤ s.comp.frameCount.toNat) :
    s.composite =
      (s.painted canvas s.trackRestore.comp.restoreFrom).raise (.resourceExhausted .frames) :=
  (State.composite_of_painted hp hc).trans (if_neg (Nat.not_lt.2 hfull))

/-! ### The state in which a decoded image is composited -/

/-- The canvas an image is painted on (44_compositor.md R135, R136). -/
def State.disposedCanvas (s : State) : List Pixel :=
  if s.comp.frameCount = 0 then s.comp.canvas else s.disposePrevious.comp.canvas

/-- `Composite()` with its first step done (44_compositor.md R135). -/
theorem State.compositeAll_eq (s : State) :
    s.compositeAll =
      State.composite { s with comp := { s.comp with canvas := s.disposedCanvas } } := by
  unfold State.compositeAll State.disposedCanvas
  split
  · rfl
  · rw [← State.disposePrevious_eq]

/-- The loaded image block with other IDX and compositor registers. -/
def State.loadedWith (op : ImageOp) (xs : List Sym) (c : Comp) (s : State) : State :=
  { s.loadImage op with idx := xs, comp := c }

/-- Disposal reads no register that the descriptor or the decoder writes (44_compositor.md R136). -/
theorem State.disposedCanvas_loadedWith (op : ImageOp) (xs : List Sym) (s : State) :
    (s.loadedWith op xs s.comp).disposedCanvas = s.disposedCanvas := by
  have hrestore : (s.loadedWith op xs s.comp).restorePrevious.comp.canvas =
      s.restorePrevious.comp.canvas := by
    have hbase : (s.loadedWith op xs s.comp).comp.restoreFrom = s.comp.restoreFrom := rfl
    simp only [State.restorePrevious, hbase]
    cases s.comp.restoreFrom <;> rfl
  have hdispose : (s.loadedWith op xs s.comp).disposePrevious.comp.canvas =
      s.disposePrevious.comp.canvas := by
    have hdisp : (s.loadedWith op xs s.comp).comp.lastDisp = s.comp.lastDisp := rfl
    simp only [State.disposePrevious, hdisp]
    cases decodeDisposal s.comp.lastDisp with
    | dispose3 => exact hrestore
    | _ => rfl
  simp only [State.disposedCanvas, hdispose]
  rfl

/-- An image block whose symbols `out` are decoded, on the disposed canvas (42_block_parser.md R128). -/
def State.readyToPaint (op : ImageOp) (out : List Sym) (s : State) : State :=
  s.loadedWith op (imageIdx op out) { s.comp with canvas := s.disposedCanvas }

section

variable {op : ImageOp} {s : State} {out : List Sym}

/-- An image that fits and decodes is composited (42_block_parser.md R128). -/
theorem State.imagePass_of_decoded
    (hfit : op.width.toNat * op.height.toNat ≤ s.params.maxImagePixels)
    (hd : lzwDecode s.draws op.minCode op.data.flatten (op.width.toNat * op.height.toNat) = .ok out) :
    s.imagePass op = (s.readyToPaint op out).composite := by
  have hd' : lzwDecode s.draws op.minCode op.data.flatten (s.loadImage op).img.pixels = .ok out := hd
  rw [State.imagePass_of_fits (Nat.not_lt.2 hfit), hd']
  show (s.loadedWith op (imageIdx op out) s.comp).compositeAll = _
  rw [State.compositeAll_eq, State.disposedCanvas_loadedWith]
  rfl

theorem State.readyToPaint_palette {table : List Rgb} {len : BitVec 9}
    (h : s.ActiveTable op table len) : (s.readyToPaint op out).palette = some (table, len) :=
  State.palette_eq_some_iff.2 h

theorem State.readyToPaint_noPalette (hl : op.lctFlag = false) (hg : s.scr.gctFlag = false) :
    (s.readyToPaint op out).palette = none :=
  State.palette_eq_none_iff.2 ⟨hl, hg⟩

theorem State.readyToPaint_paints {table : List Rgb} {len : BitVec 9} {r : Except Sym (List Pixel)}
    (h : s.PaintsTo op out table len r) :
    paintFrom ((s.readyToPaint op out).paintEnv table len) 0 (s.readyToPaint op out).idx
      (s.readyToPaint op out).comp.canvas = r :=
  State.paintsTo_iff.1 h

end

/-! ### The errors of an image block (42_block_parser.md R129) -/

/-- An error raised after the descriptor was loaded, whatever IDX and the compositor hold, is an error
of the image block. -/
theorem State.raise_imageError (op : ImageOp) (xs : List Sym) (c : Comp) (s : State)
    {e : DecodeError} (hpos : e.pos s.cur = s.cur.blkStart) :
    s.ImageError op ((s.loadedWith op xs c).raise e) e.code e.info where
  entered :=
    hpos ▸ (State.raise_errorOnly e (s.loadedWith op xs c)).entered.of_same rfl rfl rfl rfl rfl rfl
      (.of_eq rfl rfl rfl rfl rfl)
  scr := rfl
  tabs := rfl
  img := rfl

theorem State.trackRestore_imageError (op : ImageOp) (out : List Sym) (s : State)
    {e : DecodeError} (hpos : e.pos s.cur = s.cur.blkStart) :
    s.ImageError op ((s.readyToPaint op out).trackRestore.raise e) e.code e.info := by
  rw [State.trackRestore_eq]
  exact State.raise_imageError op _ _ s hpos

/-- The errors of one code stand at the block's offset (60_exceptions.md R160). -/
theorem lzwNext_fails_pos {draw npix : Nat} {m : Byte} {payload : List Byte} {l : Lzw}
    {e : DecodeError} (h : lzwNext draw m payload npix l = .fails e) (cur : Cursor) :
    e.pos cur = cur.blkStart := by
  have hemit {xs : List Sym} {c : Code} {k : Lzw} (h : lzwEmit npix xs c k = .fails e) :
      e.pos cur = cur.blkStart := by
    unfold lzwEmit at h
    split at h <;> cases h
    rfl
  rw [lzwNext] at h
  split at h
  · cases h; rfl
  · split at h
    · cases h
    · split at h <;> cases h
      rfl
    · exact hemit h
    · exact hemit h
    · cases h; rfl

theorem lzwLoop_error_pos {draw npix n : Nat} {m : Byte} {payload : List Byte} {l : Lzw}
    {e : DecodeError} (h : lzwLoop draw m payload npix n l = .error e) (cur : Cursor) :
    e.pos cur = cur.blkStart := by
  induction n generalizing l with
  | zero => cases h; rfl
  | succ n ih =>
    rw [lzwLoop_succ] at h
    cases hn : lzwNext draw m payload npix l with
    | fails e' =>
      rw [hn] at h
      cases h
      exact lzwNext_fails_pos hn cur
    | leaves l' => rw [hn] at h; cases h
    | goesOn l' => exact ih (hn ▸ h)

/-- The errors of the LZW unit stand at the block's offset (60_exceptions.md R160). -/
theorem lzwDecode_error_pos {draw npix : Nat} {m : Byte} {payload : List Byte} {e : DecodeError}
    (h : lzwDecode draw m payload npix = .error e) (cur : Cursor) : e.pos cur = cur.blkStart := by
  unfold lzwDecode at h
  split at h
  · exact lzwLoop_error_pos h cur
  · cases h; rfl

/-- A minimum code size outside 1 to 11 decodes nothing (41_lzw.md R98). -/
theorem lzwDecode_of_badMinCode {m : Byte} (h : m.toNat < 1 ∨ 11 < m.toNat) (draw npix : Nat)
    (payload : List Byte) : lzwDecode draw m payload npix = .error (.invalidMinCodeSize m) := by
  have hm : ¬ minCodeOk m = true := fun hm => by
    have hrange := (minCodeOk_iff m).1 hm
    omega
  rw [lzwDecode, if_neg hm]

/-- A decode that fails is the error of the image block (42_block_parser.md R129). -/
theorem State.imagePass_of_lzwError {op : ImageOp} {s : State} {e : DecodeError}
    (hfit : op.width.toNat * op.height.toNat ≤ s.params.maxImagePixels)
    (he : lzwDecode s.draws op.minCode op.data.flatten (op.width.toNat * op.height.toNat) = .error e) :
    s.imagePass op = (s.loadImage op).raise e := by
  have he' : lzwDecode s.draws op.minCode op.data.flatten (s.loadImage op).img.pixels = .error e := he
  rw [State.imagePass_of_fits (Nat.not_lt.2 hfit), he']
  rfl

/-- Settles O22: the pass tests the size, decodes, selects the table, paints and delivers, in this
order. -/
theorem imageErrorsComeInOrder : Obligations.ImageErrorsComeInOrder := by
  intro op s hp
  rw [theImageStepIsOnePass op s hp]
  refine ⟨fun hbig => ?_, fun hfit => ?_⟩
  · have hpass : s.imagePass op = (s.loadImage op).raise (.resourceExhausted .image) := if_pos hbig
    exact ⟨_, rfl, hpass ▸ State.raise_imageError op s.idx s.comp s rfl⟩
  have hlzw (e : DecodeError) (he : lzwDecode s.draws op.minCode op.data.flatten
      (op.width.toNat * op.height.toNat) = .error e) :
      s.ImageError op (s.imagePass op) e.code e.info := by
    rw [State.imagePass_of_lzwError hfit he]
    exact State.raise_imageError op s.idx s.comp s (lzwDecode_error_pos he s.cur)
  refine ⟨fun hmin => ⟨_, rfl, hlzw _ (lzwDecode_of_badMinCode hmin _ _ _)⟩,
    fun e he => ⟨_, rfl, hlzw e he⟩, fun out hd => ?_⟩
  rw [State.imagePass_of_decoded hfit hd]
  refine ⟨fun hl hg => ?_, fun table len ht => ⟨fun v hv => ?_, fun canvas hc hfull => ?_⟩⟩
  · rw [State.composite_of_noTable (State.readyToPaint_noPalette hl hg)]
    exact ⟨_, rfl, State.trackRestore_imageError op out s rfl⟩
  · rw [State.composite_of_outOfRange (State.readyToPaint_palette ht) (State.readyToPaint_paints hv)]
    exact ⟨_, rfl, State.trackRestore_imageError op out s rfl⟩
  · rw [State.composite_of_full (State.readyToPaint_palette ht) (State.readyToPaint_paints hc) hfull]
    exact ⟨_, rfl, State.raise_imageError op _ _ s rfl⟩

/-! ### The frame of an image block (42_block_parser.md R128; 44_compositor.md R145, R146) -/

/-- The first sub-block's offset, past the descriptor and its own table if it has one
(42_block_parser.md R128). -/
theorem State.loadImage_imageDataOff (op : ImageOp) (s : State) :
    (s.loadImage op).imageDataOff =
      s.cur.blkStart.toNat + 11 + 3 * (if op.lctFlag then 2 ^ (op.lctSize.toNat + 1) else 0) := by
  have hlen : (s.loadImage op).tabs.lctLen.toNat =
      if op.lctFlag then 2 ^ (op.lctSize.toNat + 1) else 0 := by
    rw [State.loadImage_tabs, imageTabs]
    split
    · exact toNat_ofNat_tableLen op.lctSize
    · rfl
  rw [State.imageDataOff, hlen]
  rfl

/-- What delivering a frame and ending its block leave, register by register (44_compositor.md R145,
R146; 42_block_parser.md R128). -/
theorem State.delivered_eq (s : State) :
    s.deliver.recordPrevious.endImage =
      { s with
        outp := Output.emit s.params.maxEvents
          { kind := 8, label := 0, off := s.cur.blkStart, len := s.cur.pos - s.cur.blkStart,
            dataOff := BitVec.ofNat 32 s.imageDataOff,
            dataLen := BitVec.ofNat 32 s.img.payload.length }
          { s.outp with
            frames := s.outp.frames.take s.comp.frameCount.toNat ++ [s.comp.canvas]
            delays := s.outp.delays.take s.comp.frameCount.toNat ++ [s.gce.activeDelay] }
        comp :=
          { s.comp with
            frameCount := s.comp.frameCount + 1
            lastDisp := s.gce.activeDisposal
            prevLeft := s.img.left
            prevTop := s.img.top
            prevW := s.img.w
            prevH := s.img.h }
        gce := { s.gce with valid := false }
        lz := Lzw.free s.draws s.params.maxImagePixels
        idx := []
        unit := .parser
        draws := s.draws + 1 } := rfl

/-- Settles O21: the pass ends with the painted canvas delivered and the image recorded. -/
theorem anImageDeliversItsFrame : Obligations.AnImageDeliversItsFrame := by
  intro op s out table len canvas hp hfit hd ht hc hroom
  rw [theImageStepIsOnePass op s hp, State.imagePass_of_decoded hfit hd,
    State.composite_of_room (State.readyToPaint_palette ht) (State.readyToPaint_paints hc) hroom,
    State.delivered_eq, State.trackRestore_restoreFrom, ← State.loadImage_imageDataOff]
  exact ⟨_, rfl, rfl, rfl, rfl, rfl, rfl, rfl, rfl, rfl, rfl, rfl, .of_eq rfl rfl rfl rfl rfl⟩

end Sys2Proof.Machine

end

/-! ## The blocks other than IMAGE (42_block_parser.md R115 to R130) -/

section

namespace Sys2Proof.Machine

/-! ### The header -/

theorem exec_header_of_fits {op : HeaderOp} {s : State}
    (h : op.width.toNat * op.height.toNat ≤ s.params.maxCanvasPixels) :
    exec (.header op) s = .next ((s.opened op).emit .header 0 0 0) := by
  rw [← State.openScreen_eq]
  exact if_neg (Nat.not_lt.2 h)

theorem exec_header_of_oversized {op : HeaderOp} {s : State}
    (h : s.params.maxCanvasPixels < op.width.toNat * op.height.toNat) :
    exec (.header op) s = .next ((s.loadHeader op).raise (.resourceExhausted .canvas)) := if_pos h

/-- Settles O30: the screen is opened, then the event is logged. -/
theorem headerOpensTheScreen : Obligations.HeaderOpensTheScreen := by
  intro op s hfit
  exact ⟨_, exec_header_of_fits hfit, rfl, rfl, rfl, rfl, rfl, rfl, rfl, rfl, rfl, rfl, rfl, rfl,
    .of_eq rfl rfl rfl rfl rfl⟩

/-- Settles O31: the error is raised after the header's hidden registers are loaded. -/
theorem anOversizedCanvasIsReported : Obligations.AnOversizedCanvasIsReported := by
  intro op s hbig
  have hentered := (State.raise_errorOnly (.resourceExhausted .canvas) (s.loadHeader op)).entered
  exact ⟨_, exec_header_of_oversized hbig,
    hentered.of_same rfl rfl rfl rfl rfl rfl (.of_eq rfl rfl rfl rfl rfl), rfl, rfl, rfl⟩

/-! ### Input that is not recognized -/

/-- The ERRINFO of NotAGifFile holds the three bytes, the first in the low bits
(60_exceptions.md R160). -/
theorem notAGifFile_info (s0 s1 s2 : Byte) :
    (DecodeError.notAGifFile s0 s1 s2).info =
      BitVec.ofNat 32 (s0.toNat + 256 * s1.toNat + 65536 * s2.toNat) := by
  have h0 := s0.isLt
  have h1 := s1.isLt
  have h2 := s2.isLt
  apply BitVec.eq_of_toNat_eq
  simp only [DecodeError.info, BitVec.toNat_append, BitVec.ofNat_eq_ofNat, BitVec.toNat_ofNat]
  rw [← Nat.shiftLeft_add_eq_or_of_lt h0, ← Nat.shiftLeft_add_eq_or_of_lt h1,
    ← Nat.shiftLeft_add_eq_or_of_lt h2]
  simp only [Nat.shiftLeft_eq]
  omega

/-- Settles O32: each of the three rows is an error entry. -/
theorem unrecognizedInputIsReported : Obligations.UnrecognizedInputIsReported := by
  intro s0 s1 s2 b c s
  exact ⟨⟨_, rfl, notAGifFile_info s0 s1 s2 ▸ State.raise_errorOnly (.notAGifFile s0 s1 s2) s⟩,
    ⟨_, rfl, State.raise_errorOnly (.unknownBlockSentinel b) s⟩,
    ⟨_, rfl, State.raise_errorOnly (.invalidLzwCode c) s⟩⟩

/-! ### Extensions and the trailer -/

/-- Logging an event changes the event log only (45_decoder.md R157). -/
theorem State.emit_eq (kind : EventKind) (label : Byte) (off len : Nat) (s : State) :
    s.emit kind label off len =
      { s with
        outp := s.outp.emit s.params.maxEvents
          { kind := kind.code, label := label, off := s.cur.blkStart,
            len := s.cur.pos - s.cur.blkStart, dataOff := BitVec.ofNat 32 off,
            dataLen := BitVec.ofNat 32 len } } := rfl

/-- Settles O33: the fields are loaded, then the event is logged. -/
theorem graphicControlBecomesPending : Obligations.GraphicControlBecomesPending :=
  fun _ _ => congrArg Host.Outcome.next (State.emit_eq .gce 0xF9 0 0 _)

/-- Settles O34: each of the four is its event alone. -/
theorem extensionsAreSurfacedOnly : Obligations.ExtensionsAreSurfacedOnly :=
  fun data _ label _ op s =>
    have hsurface (kind : EventKind) (label : Byte) (skip : Nat) (data : Chain) :=
      congrArg Host.Outcome.next
        (s.emit_eq kind label (s.cur.blkStart.toNat + skip) data.flatten.length)
    ⟨⟨_, hsurface .comment 0xFE 2 data, rfl⟩, ⟨_, hsurface .plaintext 0x01 15 data, rfl⟩,
      ⟨_, hsurface .application 0xFF 14 op.data, rfl⟩, ⟨_, hsurface .unknownExt label 2 data, rfl⟩⟩

/-- Settles O35: the loop registers are set, then the event is logged with the count as its length. -/
theorem netscapeSetsTheLoopCount : Obligations.NetscapeSetsTheLoopCount := fun op s =>
  ⟨_, congrArg Host.Outcome.next
    (State.emit_eq .netscape 0xFF 0 op.loopCount.toNat
      { s with outp := { s.outp with loopCount := op.loopCount, loopValid := true } }),
    by rw [← BitVec.ofNat_toNat]; rfl⟩

/-- Settles O36: the event is logged, then the decode is committed. -/
theorem trailerCommitsTheDecode : Obligations.TrailerCommitsTheDecode := by
  intro s
  have hlogged := s.emit_eq .trailer 0 0 0
  exact congrArg (fun t => Host.Outcome.next (State.commit t)) hlogged

/-! ### Words of the specification -/

/-- Settles O4: the words are the encodings of their blocks, or too short for one. -/
theorem specWordsDecodeToTheirBlocks : Obligations.SpecWordsDecodeToTheirBlocks :=
  ⟨decodeBlock_gceBytes
      { size := 4, rsvd := 0, disp := 2, ui := false, tf := true, delay := 10, ti := 3, term := 0 } [],
    decodeBlock_commentBytes (data := [[0x68, 0x69]]) rfl [],
    decodeBlock_unknownBytes (label := 0xAA) (data := [[0x55]]) (by decide) rfl [], rfl, rfl⟩

end Sys2Proof.Machine

end

/-! ## What a cut-short block has read (42_block_parser.md R115, R116, R128)

`Screen.cutHeader`, `Img.cutImage` and `Tables.cutImage` are followed case by case: whether the flags byte
is there, and whether the table after it is. -/

section

namespace Sys2Proof

/-! ### The table of a descriptor, where the stream holds it whole -/

/-- A color table's entry is its three bytes (30_encoding.md R66). -/
theorem triples_getElem? {bs : List Byte} {i : Nat} {r g b : Byte} (hr : bs[3 * i]? = some r)
    (hg : bs[3 * i + 1]? = some g) (hb : bs[3 * i + 2]? = some b) :
    (triples bs)[i]? = some { r, g, b } := by
  induction i generalizing bs with
  | zero =>
    match bs, hr, hg, hb with
    | _ :: _ :: _ :: _, rfl, rfl, rfl => rfl
  | succ i ih =>
    match bs, hr, hg, hb with
    | _ :: _ :: _ :: bs, hr, hg, hb => exact ih (bs := bs) hr hg hb

end Sys2Proof

namespace Sys2Proof.Machine

theorem cutTable_of_noFlag {q : Byte} (h : q.getLsbD 7 = false) (bs : List Byte) :
    cutTable q bs = .ok ([], bs.drop 10) := by
  rw [cutTable, h]
  rfl

theorem cutTable_of_short {q : Byte} {bs : List Byte} (h : q.getLsbD 7 = true)
    (hl : bs.length < 10 + 3 * tableLen (q.extractLsb' 0 3)) : ∃ e, cutTable q bs = .error e := by
  have hshort : (bs.drop 10).length < 3 * tableLen (q.extractLsb' 0 3) := by
    have hpos : 0 < tableLen (q.extractLsb' 0 3) := Nat.two_pow_pos _
    rw [List.length_drop]
    omega
  simp only [cutTable, readOptTable, h, if_true, readColorTable, readBytes_short hshort]
  exact ⟨_, rfl⟩

/-- A table that is there whole is the triples of its bytes, with the rest of the stream after it. -/
theorem cutTable_of_whole {q : Byte} {bs : List Byte} (h : q.getLsbD 7 = true)
    (hl : 10 + 3 * tableLen (q.extractLsb' 0 3) ≤ bs.length) :
    cutTable q bs =
      .ok (triples ((bs.drop 10).take (3 * tableLen (q.extractLsb' 0 3))),
        bs.drop (10 + 3 * tableLen (q.extractLsb' 0 3))) := by
  have hwhole : 3 * tableLen (q.extractLsb' 0 3) ≤ (bs.drop 10).length := by
    rw [List.length_drop]
    omega
  simp only [cutTable, readOptTable, h, if_true, readColorTable, readBytes, if_pos hwhole,
    List.drop_drop]

/-! ### The header -/

/-- A header cut short wrote the registers of the bytes it read (42_block_parser.md R115, R116). -/
theorem Screen.cutHeader_readSoFar (bs : List Byte) (c : Screen) :
    Screen.HeaderReadSoFar bs c (c.cutHeader bs) := by
  cases hp : bs[10]? with
  | none =>
    have hlen : bs.length ≤ 10 := List.getElem?_eq_none_iff.1 hp
    rw [Screen.cutHeader_of_short hlen]
    exact
      { size := ⟨rfl, rfl⟩
        notRead := fun _ => rfl
        packed := fun _ h => nomatch hp.symm.trans h
        bgIndex := by rw [List.getElem?_eq_none (by omega)]
        aspect := by rw [List.getElem?_eq_none (by omega)] }
  | some p =>
    refine
      { size := Screen.cutHeader_size bs c
        notRead := fun h => Screen.cutHeader_of_short h c
        packed := fun p' h => ?_
        bgIndex := ?_
        aspect := ?_ }
    · obtain rfl : p = p' := Option.some.inj (hp.symm.trans h)
      simp only [Screen.cutHeader, hp, and_self]
    · simp only [Screen.cutHeader, hp]
      cases bs[11]? <;> rfl
    · simp only [Screen.cutHeader, hp]
      cases bs[12]? <;> rfl

/-! ### The image registers -/

/-- A 16-bit field holds the bytes that were read, or what it held (40_bitstream.md R93). -/
theorem u16At_readSoFar (bs : List Byte) (k : Nat) (old : U16) :
    FieldReadSoFar bs k old (u16At bs k old) :=
  ⟨fun b0 b1 h0 h1 => by rw [u16At_of_bytes h0 h1, le16_toNat], fun h => u16At_of_short h old⟩

/-- The four fields of a descriptor before its flags (30_encoding.md R74). -/
def Img.cutFields (bs : List Byte) (m : Img) : Img :=
  { m with
    left := u16At bs 1 m.left, top := u16At bs 3 m.top, w := u16At bs 5 m.w, h := u16At bs 7 m.h }

/-- The fields of a flags byte (30_encoding.md R75). -/
def Img.withFlags (q : Byte) (m : Img) : Img :=
  { m with
    lctFlag := q.getLsbD 7, interlace := q.getLsbD 6, sort := q.getLsbD 5,
    rsvd := q.extractLsb' 3 2, lctSize := q.extractLsb' 0 3 }

theorem Img.cutImage_of_noFlags {bs : List Byte} (h : bs[9]? = none) (m : Img) :
    m.cutImage bs = m.cutFields bs := by
  simp only [Img.cutImage, h]
  rfl

theorem Img.cutImage_of_noTable {bs : List Byte} {q : Byte} {e : Short} (h : bs[9]? = some q)
    (ht : cutTable q bs = .error e) (m : Img) :
    m.cutImage bs = (m.cutFields bs).withFlags q := by
  simp only [Img.cutImage, h, ht]
  rfl

theorem Img.cutImage_of_table {bs rest : List Byte} {q : Byte} {t : List Rgb} (h : bs[9]? = some q)
    (ht : cutTable q bs = .ok (t, rest)) (m : Img) :
    m.cutImage bs =
      { (m.cutFields bs).withFlags q with minCode := rest.head?.getD m.minCode } := by
  simp only [Img.cutImage, h, ht]
  rfl

theorem Tables.cutImage_of_noFlags {bs : List Byte} (h : bs[9]? = none) (t : Tables) :
    t.cutImage bs = t := by
  simp only [Tables.cutImage, h]

theorem Tables.cutImage_of_noTable {bs : List Byte} {q : Byte} {e : Short} (h : bs[9]? = some q)
    (ht : cutTable q bs = .error e) (t : Tables) : t.cutImage bs = t := by
  simp only [Tables.cutImage, h, ht]

theorem Tables.cutImage_of_table {bs rest : List Byte} {q : Byte} {l : List Rgb}
    (h : bs[9]? = some q) (ht : cutTable q bs = .ok (l, rest)) (t : Tables) :
    t.cutImage bs =
      { t with
        lct := l
        lctLen := if q.getLsbD 7 then BitVec.ofNat 9 (tableLen (q.extractLsb' 0 3)) else 0 } := by
  simp only [Tables.cutImage, h, ht]

/-- Once its flags byte is read an image cut short has their fields, whatever came of its table
(42_block_parser.md R128). -/
theorem Img.cutImage_of_flags {bs : List Byte} {q : Byte} (h : bs[9]? = some q) (m : Img) :
    ∃ c, m.cutImage bs = { (m.cutFields bs).withFlags q with minCode := c } := by
  cases ht : cutTable q bs with
  | error e => exact ⟨m.minCode, Img.cutImage_of_noTable h ht m⟩
  | ok r => exact ⟨_, Img.cutImage_of_table h ht m⟩

/-- An image cut short has the four fields before the flags, whether or not the flags were read
(42_block_parser.md R128). -/
theorem Img.cutImage_fields (bs : List Byte) (m : Img) :
    (m.cutImage bs).left = u16At bs 1 m.left ∧ (m.cutImage bs).top = u16At bs 3 m.top ∧
      (m.cutImage bs).w = u16At bs 5 m.w ∧ (m.cutImage bs).h = u16At bs 7 m.h := by
  cases hq : bs[9]? with
  | none =>
    rw [Img.cutImage_of_noFlags hq]
    exact ⟨rfl, rfl, rfl, rfl⟩
  | some q =>
    obtain ⟨c, hc⟩ := Img.cutImage_of_flags hq m
    rw [hc]
    exact ⟨rfl, rfl, rfl, rfl⟩

/-- The entries of a table that was read whole, from the offset of the table in its block
(42_block_parser.md R128). -/
theorem triples_of_block {bs : List Byte} {n i : Nat} {r g b : Byte} (hi : i < n)
    (hr : bs[10 + 3 * i]? = some r) (hg : bs[10 + 3 * i + 1]? = some g)
    (hb : bs[10 + 3 * i + 2]? = some b) :
    (triples ((bs.drop 10).take (3 * n)))[i]? = some { r, g, b } := by
  have hbyte {k : Nat} (hk : k < 3 * n) : ((bs.drop 10).take (3 * n))[k]? = bs[10 + k]? := by
    rw [List.getElem?_take_of_lt hk, List.getElem?_drop]
  exact triples_getElem? ((hbyte (by omega)).trans hr) ((hbyte (by omega)).trans hg)
    ((hbyte (by omega)).trans hb)

/-- An image cut short wrote the registers of the bytes it read (42_block_parser.md R128). -/
theorem State.imageReadSoFar_of_cut {bs : List Byte} {s t : State}
    (h : t.img = s.img.cutImage bs ∧ t.tabs = s.tabs.cutImage bs) :
    State.ImageReadSoFar bs s t := by
  obtain ⟨himg, htabs⟩ := h
  obtain ⟨hleft, htop, hw, hh⟩ := Img.cutImage_fields bs s.img
  rw [← himg] at hleft htop hw hh
  refine
    { left := hleft ▸ u16At_readSoFar bs 1 _
      top := htop ▸ u16At_readSoFar bs 3 _
      w := hw ▸ u16At_readSoFar bs 5 _
      h := hh ▸ u16At_readSoFar bs 7 _
      flagsNotRead := fun hshort => ?_
      flags := fun q hq => ?_
      noTable := fun q hq hflag => ?_
      tableNotRead := fun q hq hflag hshort => ?_
      table := fun q hq hflag hwhole => ?_
      payload := by rw [himg, Img.cutImage_payload] }
  · have hq : bs[9]? = none := List.getElem?_eq_none hshort
    rw [htabs, himg, Tables.cutImage_of_noFlags hq, Img.cutImage_of_noFlags hq]
    exact ⟨rfl, rfl⟩
  · obtain ⟨c, hc⟩ := Img.cutImage_of_flags hq s.img
    rw [himg, hc]
    exact ⟨rfl, rfl, rfl, rfl, rfl⟩
  · have ht := cutTable_of_noFlag hflag bs
    rw [htabs, himg, Tables.cutImage_of_table hq ht, Img.cutImage_of_table hq ht, hflag,
      List.head?_drop]
    exact ⟨rfl, by cases bs[10]? <;> rfl⟩
  · obtain ⟨e, he⟩ := cutTable_of_short hflag hshort
    rw [htabs, himg, Tables.cutImage_of_noTable hq he, Img.cutImage_of_noTable hq he]
    exact ⟨rfl, rfl⟩
  · have ht := cutTable_of_whole hflag hwhole
    rw [tableLen] at ht
    have hlen : ((bs.drop 10).take (3 * tableLen (q.extractLsb' 0 3))).length =
        3 * tableLen (q.extractLsb' 0 3) := by
      have hwhole' : 10 + 3 * tableLen (q.extractLsb' 0 3) ≤ bs.length := hwhole
      rw [List.length_take, List.length_drop]
      omega
    rw [htabs, himg, Tables.cutImage_of_table hq ht, Img.cutImage_of_table hq ht, hflag,
      List.head?_drop]
    exact ⟨rfl, rfl, toNat_ofNat_tableLen _, (tableBytes_triples _ _ hlen).2,
      fun i r g b hi => triples_of_block hi,
      by cases bs[10 + 3 * 2 ^ ((q.extractLsb' 0 3).toNat + 1)]? <;> rfl⟩

/-! ### The step that meets the end of the stream -/

@[simp] theorem State.cutBlock_scr (e : Short) (s : State) : (s.cutBlock e).scr = s.scr := by
  unfold State.cutBlock
  split <;> rfl

theorem State.cutBlock_of_image {e : Short} {s : State} (h : s.streamRest.head? = some 0x2C) :
    (s.cutBlock e).img = s.img.cutImage s.streamRest ∧
      (s.cutBlock e).tabs = s.tabs.cutImage s.streamRest := by
  rw [State.cutBlock, if_pos h]
  exact ⟨rfl, rfl⟩

theorem State.cutBlock_of_other {e : Short} {s : State} (h : s.streamRest.head? ≠ some 0x2C) :
    (s.cutBlock e).tabs = s.tabs ∧ (s.cutBlock e).img = s.img := by
  rw [State.cutBlock, if_neg h]
  exact ⟨rfl, rfl⟩

/-- Settles O60: the step leaves the registers of `cutHeader`, of `cutImage`, or those it found. -/
theorem aCutShortBlockKeepsWhatItRead : Obligations.ACutShortBlockKeepsWhatItRead := by
  intro s e hb
  constructor
  · intro hp hd
    rw [step_of_boundary hb, hp]
    simp only [State.fetchHeader, State.streamRest_blkStart, hd, Fetched.outcome]
    exact ⟨_, rfl, Screen.cutHeader_readSoFar _ _, rfl, rfl⟩
  · intro hp hd
    rw [step_of_boundary hb, hp]
    simp only [State.fetchBlock, State.streamRest_blkStart, hd, Fetched.outcome]
    exact ⟨_, rfl, State.cutBlock_scr e _,
      fun h => State.imageReadSoFar_of_cut (State.cutBlock_of_image h),
      fun h => State.cutBlock_of_other h⟩

end Sys2Proof.Machine

end

/-! ## Deinterlacing (43_deinterlace.md R131 to R134) -/

section

namespace Sys2Proof.Machine

/-! ### The rows of a pass -/

/-- Row `start + j * step` is one of the pass's rows exactly when it is a row of the image
(43_deinterlace.md R132). -/
theorem lt_passRowCount_iff {start step : Nat} (hstep : start < step) (h j : Nat) :
    j < (h - start + step - 1) / step ↔ start + j * step < h := by
  rw [← Nat.succ_le_iff, Nat.le_div_iff_mul_le (by omega), Nat.succ_mul]
  omega

theorem mem_passRows {start step : Nat} (hstep : start < step) {h y : Nat} :
    y ∈ passRows h start step ↔ y < h ∧ y % step = start := by
  simp only [passRows, List.mem_map, List.mem_range, lt_passRowCount_iff hstep]
  constructor
  · rintro ⟨j, hj, rfl⟩
    exact ⟨hj, by rw [Nat.add_mul_mod_self_right, Nat.mod_eq_of_lt hstep]⟩
  · rintro ⟨hy, rfl⟩
    have hrow : y % step + y / step * step = y := Nat.mod_add_div' y step
    exact ⟨y / step, hrow.symm ▸ hy, hrow⟩

/-- A pass goes from the top (43_deinterlace.md R132). -/
theorem passRows_pairwise_lt {start step : Nat} (hstep : start < step) (h : Nat) :
    (passRows h start step).Pairwise (· < ·) :=
  List.pairwise_lt_range.map _ fun _ _ hij =>
    Nat.add_lt_add_left (Nat.mul_lt_mul_of_pos_right hij (Nat.zero_lt_of_lt hstep)) start

/-- A pass visits the rows of one residue class, in order (43_deinterlace.md R132). -/
theorem passRows_eq_filter {start step : Nat} (hstep : start < step) (h : Nat) :
    passRows h start step = (List.range h).filter fun y => y % step = start := by
  refine List.Perm.eq_of_pairwise' (passRows_pairwise_lt hstep h)
    (List.pairwise_lt_range.filter _) ?_
  rw [List.perm_ext_iff_of_nodup (passRows_pairwise_lt hstep h).nodup (List.nodup_range.filter _)]
  intro y
  rw [mem_passRows hstep, List.mem_filter, List.mem_range, decide_eq_true_iff]

/-! ### The rows of all passes -/

theorem rowOrder_eq_filters (h : Nat) :
    rowOrder h =
      (List.range h).filter (fun y => y % 8 = 0) ++ (List.range h).filter (fun y => y % 8 = 4) ++
        (List.range h).filter (fun y => y % 4 = 2) ++ (List.range h).filter (fun y => y % 2 = 1) := by
  simp only [rowOrder, passTable, List.flatMap_cons, List.flatMap_nil, List.append_nil,
    List.append_assoc]
  rw [passRows_eq_filter (by decide), passRows_eq_filter (by decide),
    passRows_eq_filter (by decide), passRows_eq_filter (by decide)]

/-- The classes of the four passes cover each residue (43_deinterlace.md R132). -/
@[simp] theorem mem_rowOrder {h y : Nat} : y ∈ rowOrder h ↔ y < h := by
  simp only [rowOrder_eq_filters, List.mem_append, List.mem_filter, List.mem_range,
    decide_eq_true_iff]
  omega

/-- The classes of the four passes exclude each other (43_deinterlace.md R132). -/
theorem rowOrder_nodup (h : Nat) : (rowOrder h).Nodup := by
  have hpass (p : Nat → Bool) : ((List.range h).filter p).Nodup := List.nodup_range.filter p
  rw [rowOrder_eq_filters]
  refine (((hpass _).append (hpass _) ?_).append (hpass _) ?_).append (hpass _) ?_ <;>
  · intro y
    simp only [List.mem_append, List.mem_filter, decide_eq_true_iff]
    omega

/-- Every row is visited exactly once (43_deinterlace.md R132). -/
theorem rowOrder_perm_range (h : Nat) : (rowOrder h).Perm (List.range h) := by
  rw [List.perm_ext_iff_of_nodup (rowOrder_nodup h) List.nodup_range]
  intro y
  rw [mem_rowOrder, List.mem_range]

@[simp] theorem rowOrder_length (h : Nat) : (rowOrder h).length = h := by
  rw [(rowOrder_perm_range h).length_eq, List.length_range]

/-- Settles O23: each pass is a residue class, and the four classes partition the rows. -/
theorem thePassesVisitEveryRowOnce : Obligations.ThePassesVisitEveryRowOnce := fun h =>
  ⟨rowOrder_length h, rowOrder_perm_range h, rowOrder_eq_filters h⟩

/-! ### Buffers of whole rows -/

section

variable {row : Nat → List Sym} {w h : Nat}

theorem length_flatMap_rows (hrow : ∀ y < h, (row y).length = w) :
    ((List.range h).flatMap row).length = w * h := by
  rw [List.length_flatMap, List.map_congr_left fun y hy => hrow y (List.mem_range.1 hy),
    List.map_const', List.length_range, List.sum_replicate, smul_eq_mul, Nat.mul_comm]

/-- Entry `r * w + c` of a buffer of rows is entry `c` of row `r`. -/
theorem getElem?_flatMap_rows (hrow : ∀ y < h, (row y).length = w) {r c : Nat} (hr : r < h)
    (hc : c < w) : ((List.range h).flatMap row)[r * w + c]? = (row r)[c]? := by
  induction h with
  | zero => exact absurd hr (Nat.not_lt_zero r)
  | succ h ih =>
    have hbefore : ∀ y < h, (row y).length = w := fun y hy => hrow y (Nat.lt_succ_of_lt hy)
    have hlen : ((List.range h).flatMap row).length = h * w := by
      rw [length_flatMap_rows hbefore, Nat.mul_comm]
    rw [List.range_succ, List.flatMap_append, List.flatMap_singleton]
    rcases Nat.lt_succ_iff_lt_or_eq.1 hr with hlt | rfl
    · have hin : r * w + c < h * w := by
        calc r * w + c < r * w + w := Nat.add_lt_add_left hc _
          _ = (r + 1) * w := (Nat.succ_mul r w).symm
          _ ≤ h * w := Nat.mul_le_mul_right w hlt
      rw [List.getElem?_append_left (hlen ▸ hin), ih hbefore hlt]
    · rw [List.getElem?_append_right (hlen ▸ Nat.le_add_right _ _), hlen, Nat.add_sub_cancel_left]

end

/-! ### The reordered buffer -/

theorem decodedRow_length {idx : List Sym} {w h k : Nat} (hidx : idx.length = w * h) (hk : k < h) :
    (decodedRow idx w k).length = w := by
  have hwhole : (k + 1) * w ≤ idx.length := by
    rw [hidx, Nat.mul_comm w]
    exact Nat.mul_le_mul_right w hk
  rw [Nat.succ_mul] at hwhole
  rw [decodedRow, List.length_take, List.length_drop]
  omega

theorem decodedRow_getElem? (idx : List Sym) (w k : Nat) {c : Nat} (hc : c < w) :
    (decodedRow idx w k)[c]? = idx[k * w + c]? := by
  rw [decodedRow, List.getElem?_take_of_lt hc, List.getElem?_drop]

/-- The decoded row that goes to a row of the image is one of the `h` rows (43_deinterlace.md R133). -/
theorem idxOf_rowOrder_lt {h y : Nat} (hy : y < h) : (rowOrder h).idxOf y < h := by
  simpa only [rowOrder_length] using List.idxOf_lt_length_of_mem (mem_rowOrder.2 hy)

theorem length_decodedRow_idxOf {idx : List Sym} {w h : Nat} (hidx : idx.length = w * h) :
    ∀ y < h, (decodedRow idx w ((rowOrder h).idxOf y)).length = w :=
  fun _ hy => decodedRow_length hidx (idxOf_rowOrder_lt hy)

theorem deinterlace_length {idx : List Sym} {w h : Nat} (hidx : idx.length = w * h) :
    (deinterlace idx w h).length = w * h :=
  length_flatMap_rows (length_decodedRow_idxOf hidx)

/-- Row `r` of the reordered buffer is the decoded row at which the passes visit `r`
(43_deinterlace.md R133). -/
theorem deinterlace_getElem? {idx : List Sym} {w h r c : Nat} (hidx : idx.length = w * h)
    (hr : r < h) (hc : c < w) :
    (deinterlace idx w h)[r * w + c]? = idx[(rowOrder h).idxOf r * w + c]? := by
  rw [deinterlace, getElem?_flatMap_rows (length_decodedRow_idxOf hidx) hr hc,
    decodedRow_getElem? idx w _ hc]

/-- Settles O24: `RowOrder(h)` has no duplicates, so its entry `k` is first found at `k`. -/
theorem deinterlaceMovesRowsWhole : Obligations.DeinterlaceMovesRowsWhole := by
  intro idx w h hidx
  refine ⟨deinterlace_length hidx, fun k c hk hc => ?_⟩
  have hk' : k < (rowOrder h).length := by rwa [rowOrder_length]
  have hr : (rowOrder h)[k] < h := mem_rowOrder.1 (List.getElem_mem hk')
  refine ⟨(rowOrder h)[k], List.getElem?_eq_getElem hk', hr, ?_⟩
  rw [deinterlace_getElem? hidx hr hc, (rowOrder_nodup h).idxOf_getElem k hk']

end Sys2Proof.Machine

end

/-! ## The compositor (44_compositor.md R137 to R144) -/

section

namespace Sys2Proof.Machine

/-! ### Disposal -/

/-- Settles O25: the three rows answer the state they are given. -/
theorem disposalsThatLeaveTheCanvas : Obligations.DisposalsThatLeaveTheCanvas := fun _ _ =>
  ⟨rfl, rfl, rfl⟩

theorem inRect_iff {l t w h : U16} {x y : Nat} :
    inRect l t w h x y = true ↔
      l.toNat ≤ x ∧ x < l.toNat + w.toNat ∧ t.toNat ≤ y ∧ y < t.toNat + h.toNat :=
  decide_eq_true_iff

/-- Settles O26: DISPOSE_2 is ClearRegion over the previous image's rectangle. -/
theorem disposal2ClearsThePreviousRectangle : Obligations.Disposal2ClearsThePreviousRectangle :=
  fun s => ⟨s.clearPrevious.comp.canvas, rfl, clearRegion_length .., fun _ _ hx hy =>
    (clearRegion_getElem? _ _ _ _ hx hy).trans (if_congr inRect_iff rfl rfl)⟩

theorem State.restorePrevious_of_noBase {s : State} (h : s.comp.restoreFrom = none) :
    s.restorePrevious = s.clearPrevious := by
  rw [State.restorePrevious, h]

theorem State.restorePrevious_of_base {s : State} {k : U32} {f : List Pixel}
    (hk : s.comp.restoreFrom = some k) (hf : s.outp.frames[k.toNat]? = some f) :
    s.restorePrevious =
      { s with
        comp :=
          { s.comp with
            canvas :=
              copyRegion s.draws f s.scr.w.toNat s.comp.prevLeft s.comp.prevTop s.comp.prevW
                s.comp.prevH s.comp.canvas } } := by
  simp only [State.restorePrevious, hk, Output.framePixels, hf]

/-- Settles O27: DISPOSE_3 is DISPOSE_2 while there is no restore base, else CopyRegion from it. -/
theorem disposal3RestoresThePreviousRectangle :
    Obligations.Disposal3RestoresThePreviousRectangle := by
  intro s
  constructor
  · intro hbase
    have hclear : exec .dispose3 s = exec .dispose2 s :=
      congrArg Host.Outcome.next (State.restorePrevious_of_noBase hbase)
    rw [hclear]
    exact disposal2ClearsThePreviousRectangle s
  · intro k f hk hf hsize
    exact ⟨_, congrArg Host.Outcome.next (State.restorePrevious_of_base hk hf),
      copyRegion_length .., fun x y hx hy =>
        (copyRegion_getElem? _ _ _ _ _ hx hy hsize).trans (if_congr inRect_iff rfl rfl)⟩

/-! ### One index of an image -/

theorem Gce.transparent_iff {g : Gce} {v : Sym} :
    g.transparent v = true ↔ g.valid = true ∧ g.tf = true ∧ v.toNat = g.ti.toNat := by
  simp only [Gce.transparent, Bool.and_eq_true, decide_eq_true_eq, and_assoc]

/-- A painted pixel is opaque, and has its entry's color where the table lists one
(44_compositor.md R144; log 8). -/
theorem opaquePixel_spec (draw : Nat) (table : List Rgb) (v : Sym) :
    ∃ c : Rgb, (∀ c', table[v.toNat]? = some c' → c = c') ∧
      opaquePixel draw table v = { r := c.r, g := c.g, b := c.b, a := 255 } := by
  cases hc : table[v.toNat]? with
  | none => exact ⟨Config.freeRgb draw v.toNat, nofun, by simp only [opaquePixel, hc]⟩
  | some c => exact ⟨c, fun _ => Option.some.inj, by simp only [opaquePixel, hc]⟩

/-- The indices that make `Paint` fail (44_compositor.md R144). -/
def PaintEnv.outOfRange (e : PaintEnv) (v : Sym) : Bool :=
  !e.gce.transparent v && decide (e.tableLen.toNat ≤ v.toNat)

theorem PaintEnv.outOfRange_iff {e : PaintEnv} {v : Sym} :
    e.outOfRange v = true ↔ e.gce.transparent v = false ∧ e.tableLen.toNat ≤ v.toNat := by
  rw [PaintEnv.outOfRange, Bool.and_eq_true, Bool.not_eq_true', decide_eq_true_iff]

theorem PaintEnv.outOfRange_eq_false_iff {e : PaintEnv} {v : Sym} :
    e.outOfRange v = false ↔ e.gce.transparent v = true ∨ v.toNat < e.tableLen.toNat := by
  rw [PaintEnv.outOfRange, Bool.and_eq_false_iff, Bool.not_eq_false', decide_eq_false_iff_not,
    Nat.not_le]

/-- What `Paint` makes of the canvas at index number `k`, when its value `v` is in range
(44_compositor.md R144). -/
def PaintEnv.paintAt (e : PaintEnv) (k : Nat) (v : Sym) (canvas : List Pixel) : List Pixel :=
  if e.gce.transparent v then canvas
  else
    putPixel e.scr.w.toNat e.scr.h.toNat (e.img.left.toNat + k % e.img.w.toNat)
      (e.img.top.toNat + k / e.img.w.toNat) (opaquePixel e.draw e.table v) canvas

/-- Index number `k` of the image belongs to pixel (x, y) (44_compositor.md R144). -/
def PaintEnv.PlacedAt (e : PaintEnv) (k x y : Nat) : Prop :=
  e.img.left.toNat + k % e.img.w.toNat = x ∧ e.img.top.toNat + k / e.img.w.toNat = y

theorem paintFrom_cons (e : PaintEnv) (i : Nat) (v : Sym) (vs : List Sym) (canvas : List Pixel) :
    paintFrom e i (v :: vs) canvas =
      if e.outOfRange v then .error v else paintFrom e (i + 1) vs (e.paintAt i v canvas) := by
  rw [paintFrom, PaintEnv.outOfRange, PaintEnv.paintAt]
  cases e.gce.transparent v with
  | true => rfl
  | false => simp only [Bool.not_false, Bool.true_and, decide_eq_true_eq, if_neg Bool.false_ne_true]

theorem paintFrom_cons_ok {e : PaintEnv} {i : Nat} {v : Sym} {vs : List Sym}
    {canvas painted : List Pixel} (h : paintFrom e i (v :: vs) canvas = .ok painted) :
    paintFrom e (i + 1) vs (e.paintAt i v canvas) = .ok painted := by
  rw [paintFrom_cons] at h
  split at h
  · cases h
  · exact h

/-! ### The first index out of range -/

theorem paintFrom_error_iff_find? {e : PaintEnv} {idx : List Sym} {v : Sym} :
    ∀ {i : Nat} {canvas : List Pixel},
      paintFrom e i idx canvas = .error v ↔ idx.find? e.outOfRange = some v := by
  induction idx with
  | nil => exact ⟨nofun, nofun⟩
  | cons u us ih =>
    intro i canvas
    rw [paintFrom_cons, List.find?_cons]
    cases e.outOfRange u with
    | true => simp only [if_true, Except.error.injEq, Option.some.injEq]
    | false => exact ih

/-- Settles O29: painting reports what a search for an index out of range finds first. -/
theorem paintingStopsAtTheFirstIndexOutOfRange :
    Obligations.PaintingStopsAtTheFirstIndexOutOfRange := by
  intro e i idx canvas v
  rw [paintFrom_error_iff_find?, List.find?_eq_some_iff_append]
  simp only [Bool.not_eq_true', PaintEnv.outOfRange_iff, PaintEnv.outOfRange_eq_false_iff,
    and_left_comm (a := idx = _), exists_and_left]

/-! ### One pixel of the canvas -/

theorem rowMajor_lt {scrW scrH x y : Nat} (hx : x < scrW) (hy : y < scrH) :
    y * scrW + x < scrW * scrH := by
  calc y * scrW + x < y * scrW + scrW := Nat.add_lt_add_left hx _
    _ = (y + 1) * scrW := (Nat.succ_mul y scrW).symm
    _ ≤ scrW * scrH := Nat.mul_comm scrW scrH ▸ Nat.mul_le_mul_right scrW hy

theorem putPixel_getElem?_self {scrW scrH x y : Nat} (v : Pixel) {canvas : List Pixel}
    (hx : x < scrW) (hy : y < scrH) (hlen : canvas.length = scrW * scrH) :
    (putPixel scrW scrH x y v canvas)[y * scrW + x]? = some v := by
  rw [putPixel, if_pos ⟨hx, hy⟩, List.getElem?_set_self (hlen ▸ rowMajor_lt hx hy)]

theorem putPixel_getElem?_of_ne {scrW scrH x y x' y' : Nat} (v : Pixel) (canvas : List Pixel)
    (hx : x < scrW) (hne : ¬ (x' = x ∧ y' = y)) :
    (putPixel scrW scrH x' y' v canvas)[y * scrW + x]? = canvas[y * scrW + x]? := by
  rw [putPixel]
  split
  case isTrue hin =>
    refine List.getElem?_set_ne fun hsame => hne ⟨?_, ?_⟩
    · rw [← rowMajor_mod (y := y') hin.1, hsame, rowMajor_mod hx]
    · rw [← rowMajor_div (y := y') hin.1, hsame, rowMajor_div hx]
  case isFalse => rfl

section

variable {e : PaintEnv} {x y : Nat}

@[simp] theorem PaintEnv.paintAt_length (k : Nat) (v : Sym) (canvas : List Pixel) :
    (e.paintAt k v canvas).length = canvas.length := by
  rw [PaintEnv.paintAt]
  split
  · rfl
  · exact putPixel_length ..

theorem PaintEnv.PlacedAt.unique {j k : Nat} (hj : e.PlacedAt j x y) (hk : e.PlacedAt k x y) :
    j = k := by
  have hmod : j % e.img.w.toNat = k % e.img.w.toNat := Nat.add_left_cancel (hj.1.trans hk.1.symm)
  have hdiv : j / e.img.w.toNat = k / e.img.w.toNat := Nat.add_left_cancel (hj.2.trans hk.2.symm)
  rw [← Nat.div_add_mod j e.img.w.toNat, hmod, hdiv, Nat.div_add_mod]

/-- The place of a pixel of the rectangle in the row-major image (44_compositor.md R144). -/
theorem PaintEnv.placedAt_of_inside (hl : e.img.left.toNat ≤ x)
    (hr : x < e.img.left.toNat + e.img.w.toNat) (ht : e.img.top.toNat ≤ y) :
    e.PlacedAt ((y - e.img.top.toNat) * e.img.w.toNat + (x - e.img.left.toNat)) x y := by
  have hcol : x - e.img.left.toNat < e.img.w.toNat := by omega
  rw [PaintEnv.PlacedAt, rowMajor_mod hcol, rowMajor_div hcol]
  omega

/-- The indices of an image belong to pixels of its rectangle. -/
theorem PaintEnv.PlacedAt.inside {k : Nat} (hk : e.PlacedAt k x y)
    (hlt : k < e.img.w.toNat * e.img.h.toNat) :
    e.img.left.toNat ≤ x ∧ x < e.img.left.toNat + e.img.w.toNat ∧
      e.img.top.toNat ≤ y ∧ y < e.img.top.toNat + e.img.h.toNat := by
  obtain ⟨rfl, rfl⟩ := hk
  have hcol : k % e.img.w.toNat < e.img.w.toNat :=
    Nat.mod_lt _ (Nat.pos_of_mul_pos_right (Nat.zero_lt_of_lt hlt))
  have hrow : k / e.img.w.toNat < e.img.h.toNat := Nat.div_lt_of_lt_mul hlt
  exact ⟨Nat.le_add_right .., Nat.add_lt_add_left hcol _, Nat.le_add_right ..,
    Nat.add_lt_add_left hrow _⟩

theorem PaintEnv.paintAt_getElem?_of_missed {k : Nat} (v : Sym) (canvas : List Pixel)
    (hx : x < e.scr.w.toNat) (hk : ¬ e.PlacedAt k x y) :
    (e.paintAt k v canvas)[y * e.scr.w.toNat + x]? = canvas[y * e.scr.w.toNat + x]? := by
  rw [PaintEnv.paintAt]
  split
  · rfl
  · exact putPixel_getElem?_of_ne _ _ hx hk

theorem PaintEnv.paintAt_getElem?_of_placed {k : Nat} (v : Sym) {canvas : List Pixel}
    (hx : x < e.scr.w.toNat) (hy : y < e.scr.h.toNat)
    (hlen : canvas.length = e.scr.w.toNat * e.scr.h.toNat) (hk : e.PlacedAt k x y) :
    (e.paintAt k v canvas)[y * e.scr.w.toNat + x]? =
      if e.gce.transparent v then canvas[y * e.scr.w.toNat + x]?
      else some (opaquePixel e.draw e.table v) := by
  obtain ⟨rfl, rfl⟩ := hk
  rw [PaintEnv.paintAt]
  split
  · rfl
  · exact putPixel_getElem?_self _ hx hy hlen

/-- A pixel to which no index belongs stays as it was. -/
theorem paintFrom_getElem?_of_missed {i : Nat} {idx : List Sym} {canvas painted : List Pixel}
    (h : paintFrom e i idx canvas = .ok painted) (hx : x < e.scr.w.toNat)
    (hmiss : ∀ j < idx.length, ¬ e.PlacedAt (i + j) x y) :
    painted[y * e.scr.w.toNat + x]? = canvas[y * e.scr.w.toNat + x]? := by
  induction idx generalizing i canvas with
  | nil => cases h; rfl
  | cons v vs ih =>
    have hrest : ∀ j < vs.length, ¬ e.PlacedAt (i + 1 + j) x y := fun j hj => by
      rw [Nat.add_assoc, Nat.add_comm 1]
      exact hmiss (j + 1) (Nat.succ_lt_succ hj)
    rw [ih (paintFrom_cons_ok h) hrest]
    exact PaintEnv.paintAt_getElem?_of_missed v canvas hx (hmiss 0 (Nat.succ_pos _))

/-- The one index that belongs to a pixel decides it. -/
theorem paintFrom_getElem?_of_placed {i j : Nat} {idx : List Sym} {v : Sym}
    {canvas painted : List Pixel} (h : paintFrom e i idx canvas = .ok painted)
    (hx : x < e.scr.w.toNat) (hy : y < e.scr.h.toNat)
    (hlen : canvas.length = e.scr.w.toNat * e.scr.h.toNat) (hv : idx[j]? = some v)
    (hj : e.PlacedAt (i + j) x y) :
    painted[y * e.scr.w.toNat + x]? =
      if e.gce.transparent v then canvas[y * e.scr.w.toNat + x]?
      else some (opaquePixel e.draw e.table v) := by
  induction idx generalizing i j canvas with
  | nil => cases hv
  | cons u us ih =>
    have hother : ∀ k, k ≠ i + j → ¬ e.PlacedAt k x y := fun k hk hp => hk (hp.unique hj)
    cases j with
    | zero =>
      obtain rfl : u = v := Option.some.inj hv
      rw [paintFrom_getElem?_of_missed (paintFrom_cons_ok h) hx fun j _ => hother _ (by omega)]
      exact PaintEnv.paintAt_getElem?_of_placed u hx hy hlen hj
    | succ j =>
      rw [← PaintEnv.paintAt_getElem?_of_missed u canvas hx (hother i (by omega))]
      refine ih (paintFrom_cons_ok h) ((PaintEnv.paintAt_length ..).trans hlen) hv ?_
      rwa [Nat.add_assoc, Nat.add_comm 1]

end

/-- Settles O28: the index at a pixel's place in the image decides it, and a pixel outside the
rectangle is missed by every index. -/
theorem paintingSetsExactlyTheOpaquePixels : Obligations.PaintingSetsExactlyTheOpaquePixels := by
  intro e idx canvas painted hidx hlen h
  refine ⟨paintFrom_length h, fun x y hx hy => ⟨fun v hl hr ht _ hv => ?_, fun hout => ?_⟩⟩
  · have hplace := PaintEnv.placedAt_of_inside hl hr ht
    rw [← Nat.zero_add (_ + _)] at hplace
    rw [paintFrom_getElem?_of_placed h hx hy hlen hv hplace, ← Gce.transparent_iff]
    refine ⟨fun htr => if_pos htr, fun htr => ?_⟩
    obtain ⟨c, hc, hpixel⟩ := opaquePixel_spec e.draw e.table v
    exact ⟨c, hc, by rw [if_neg htr, hpixel]⟩
  · refine paintFrom_getElem?_of_missed h hx fun j hj hplace => hout (hplace.inside ?_)
    rwa [Nat.zero_add, ← hidx]

end Sys2Proof.Machine

end

/-! ## Host commands, host writes and the event log (45_decoder.md R148 to R158) -/

section

namespace Sys2Proof.Machine

/-! ### The event log -/

/-- A log that lists its events appends while there is room (45_decoder.md R157). -/
theorem Output.emit_events_of_room {n : Nat} {o : Output} (r : EventRec)
    (hl : o.events.length = o.evtCount.toNat) (h : o.evtCount.toNat < n) :
    (o.emit n r).events = o.events ++ [r] := by
  rw [Output.emit_of_room r h, ← hl, List.take_length]

/-- Settles O37: with room the record goes after the others, and a full log sets only its flag. -/
theorem eventsAreAppendedWhileThereIsRoom : Obligations.EventsAreAppendedWhileThereIsRoom := by
  intro n r o hl hw
  refine ⟨fun h => ⟨Output.emit_events_of_room r hl h, ?_, ?_⟩, Output.emit_of_full r,
    Output.emit_frames n r o, Output.emit_delays n r o, Output.emit_loopCount n r o,
    Output.emit_loopValid n r o⟩
  · rw [Output.emit_of_room r h]
    exact BitVec.toNat_add_of_lt hw
  · rw [Output.emit_of_room r h]

/-! ### CTRL commands -/

/-- Settles O38: every row is the write of its whole word, which starts nothing. -/
theorem ctrlWritesSetTheControlBits : Obligations.CtrlWritesSetTheControlBits := by
  intro v s
  have hhold (h : v.getLsbD 0 = false ∨ s.ctl.run = .busy) :
      execCtrlStart v s = .next { s with ctl := s.ctl.written v } :=
    congrArg Host.Outcome.next (State.ctrlWrite_of_hold h)
  exact ⟨fun h => ⟨hhold (.inl h), hhold (.inl h), hhold (.inl h)⟩, fun h => hhold (.inr h)⟩

/-- CTRL_START outside BUSY runs START after setting the control bits (45_decoder.md R148). -/
theorem exec_ctrlStart_of_rest {v : U32} {s : State} (h0 : v.getLsbD 0 = true)
    (hr : s.ctl.run ≠ .busy) :
    exec (.ctrlStart v) s = .next (State.start { s with ctl := s.ctl.written v }) :=
  congrArg Host.Outcome.next (State.ctrlWrite_of_start h0 hr)

/-- Settles O39: START of a stream that fits writes its registers and enters BUSY. -/
theorem startBeginsADecode : Obligations.StartBeginsADecode := by
  intro v s h0 hr hfit
  rw [exec_ctrlStart_of_rest h0 hr, State.start_of_fits (by exact hfit)]
  exact ⟨_, rfl, rfl, rfl, rfl, rfl, rfl, rfl, rfl, rfl, rfl, rfl, rfl, rfl, rfl, rfl, rfl, rfl, rfl,
    rfl, rfl, .of_eq rfl rfl rfl rfl rfl⟩

/-- Settles O40: START writes its registers, then the error is raised. -/
theorem startOfTooLongAStreamIsReported : Obligations.StartOfTooLongAStreamIsReported := by
  intro v s h0 hr hlong
  rw [exec_ctrlStart_of_rest h0 hr, State.start_of_tooLong (by exact hlong)]
  exact ⟨_, rfl, rfl, rfl, rfl, rfl, rfl, rfl, .of_eq rfl rfl rfl rfl rfl⟩

/-- Settles O41: the cancel test comes before the fetch, and error entry changes nothing else. -/
theorem cancelEndsTheDecodeAtABoundary : Obligations.CancelEndsTheDecodeAtABoundary :=
  fun _ ht hu hc => ⟨_, step_of_cancelled hu ht hc, State.raise_errorOnly .cancelled _⟩

/-! ### Host writes to IN_MEM -/

theorem State.inMemWrite_of_offset {s : State} {off : Nat} {data : List Byte}
    (hr : s.ctl.run ≠ .busy) (h : off + data.length ≤ s.params.inCap) :
    s.inMemWrite (s.params.inBase + off) data =
      .next { s with inMem := memWrite s.inMem off data } := by
  have hwin : inWindow s.params .inMem (s.params.inBase + off) data.length = true :=
    inWindow_of_offset h
  simp only [State.inMemWrite, if_neg hr, if_pos hwin, Params.base, Nat.add_sub_cancel_left]

theorem State.inMemWrite_of_outside {s : State} {addr : Nat} {data : List Byte}
    (hr : s.ctl.run ≠ .busy)
    (h : addr < s.params.inBase ∨ s.params.inBase + s.params.inCap < addr + data.length) :
    s.inMemWrite addr data = .fault (.noSuchAddress .inMem addr) := by
  have hwin : inWindow s.params .inMem addr data.length = false := inWindow_of_outside h
  simp only [State.inMemWrite, if_neg hr, hwin, Bool.false_eq_true, if_false]

/-- A host write to IN_MEM carries no command (45_decoder.md R158). -/
theorem step_of_inMemWrite {s : State} {addr : Nat} {data : List Byte} {q : List HostAction}
    (ht : s.HostTurn (.write .inMem addr data) q) :
    step s = State.inMemWrite addr data { s with hostq := q } :=
  step_of_write ht (ctrlWordOf_other (.inl nofun))

/-- Settles O45: the write inside the window is `memWrite` at the offset, and any other one faults. -/
theorem inputWritesStoreTheirBytes : Obligations.InputWritesStoreTheirBytes := by
  intro s off addr data q hr
  refine ⟨fun hm hin ht => ?_, fun hout ht => ?_⟩
  · have hstep := (step_of_inMemWrite ht).trans
      (State.inMemWrite_of_offset (s := { s with hostq := q }) hr hin)
    exact ⟨_, hstep, Memory.wf_memWrite hm off data, fun a => memByte_memWrite hm off a data⟩
  · exact (step_of_inMemWrite ht).trans
      (State.inMemWrite_of_outside (s := { s with hostq := q }) hr hout)

end Sys2Proof.Machine

end

/-! ## Progress of the engine, and what it leaves of the host's side (45_decoder.md R152, R154)

An engine step from a block boundary raises an error or completes a block: `State.Completes` holds the
cursor it moves and the record it logs. -/

section

namespace Sys2Proof.Machine

/-! ### No instruction touches the host's side -/

theorem State.beginLzw_sameOutside (s : State) : s.SameOutside s.beginLzw := by
  unfold State.beginLzw
  split
  · exact .of_eq rfl rfl rfl rfl rfl
  · split <;> exact .of_eq rfl rfl rfl rfl rfl

theorem State.imageStep_sameOutside (op : ImageOp) (s : State) : s.SameOutside (s.imageStep op) :=
  have hload : s.SameOutside (s.loadImage op) := .of_eq rfl rfl rfl rfl rfl
  (hload.trans (s.loadImage op).beginLzw_sameOutside).trans (State.runUnits_sameOutside _ _)

theorem State.lzwEoi_sameOutside (s : State) : s.SameOutside s.lzwEoi := by
  unfold State.lzwEoi
  split <;> exact .of_eq rfl rfl rfl rfl rfl

/-- An Emit after the registers of the LZW unit have changed. -/
theorem State.emitSyms_of_lz_sameOutside (l : Lzw) (xs : List Sym) (c : Code) (s : State) :
    s.SameOutside (State.emitSyms xs c { s with lz := l }) :=
  have hlz : s.SameOutside { s with lz := l } := .of_eq rfl rfl rfl rfl rfl
  hlz.trans (State.emitSyms_sameOutside xs c _)

theorem State.restorePrevious_sameOutside (s : State) : s.SameOutside s.restorePrevious := by
  unfold State.restorePrevious
  split <;> exact .of_eq rfl rfl rfl rfl rfl

/-- Every instruction goes on and leaves the host's side as it was (45_decoder.md R152, R154). -/
theorem exec_sameOutside (i : Instr) (s : State) : ∃ t, exec i s = .next t ∧ s.SameOutside t := by
  cases i with
  | header op =>
    simp only [exec, execHeader]
    split <;> exact ⟨_, rfl, .of_eq rfl rfl rfl rfl rfl⟩
  | image op => exact ⟨_, rfl, s.imageStep_sameOutside op⟩
  | lzwEoi c => exact ⟨_, rfl, s.lzwEoi_sameOutside⟩
  | lzwKnown c => exact ⟨_, rfl, s.emitSyms_of_lz_sameOutside _ _ c⟩
  | lzwKwkwk c => exact ⟨_, rfl, s.emitSyms_of_lz_sameOutside _ _ c⟩
  | dispose3 => exact ⟨_, rfl, s.restorePrevious_sameOutside⟩
  | ctrlStart v => exact ⟨_, rfl, s.ctrlWrite_sameOutside v⟩
  | ctrlCancel v => exact ⟨_, rfl, s.ctrlWrite_sameOutside v⟩
  | ctrlIrqEn v => exact ⟨_, rfl, s.ctrlWrite_sameOutside v⟩
  | ctrlIrqAck v => exact ⟨_, rfl, s.ctrlWrite_sameOutside v⟩
  | _ => exact ⟨_, rfl, .of_eq rfl rfl rfl rfl rfl⟩

/-- Settles O51: each instruction is built from operations that leave the host's side. -/
theorem noInstructionStopsOrTouchesTheHostSide :
    Obligations.NoInstructionStopsOrTouchesTheHostSide := exec_sameOutside

/-! ### An engine step uses up the engine's turn and no other action -/

/-- The host's side while a fetched block runs is that of the step's start, its turn used up. -/
theorem State.fetched_sameOutside (rest : List Byte) (s : State) :
    State.SameOutside { s with hostq := s.hostq.tail } (s.fetched rest) :=
  .of_eq rfl rfl rfl rfl rfl

/-- A block that runs or is cut short leaves the host's side (45_decoder.md R152). -/
theorem step_of_boundary_sameOutside {s : State} (hb : s.AtBoundary) :
    ∃ t, step s = .next t ∧ State.SameOutside { s with hostq := s.hostq.tail } t := by
  have hran (i : Instr) (rest : List Byte) (h : step s = exec i (s.fetched rest)) :
      ∃ t, step s = .next t ∧ State.SameOutside { s with hostq := s.hostq.tail } t := by
    obtain ⟨t, ht, hsame⟩ := exec_sameOutside i (s.fetched rest)
    exact ⟨t, h.trans ht, (s.fetched_sameOutside rest).trans hsame⟩
  have hblk (n : U32) : State.SameOutside { s with hostq := s.hostq.tail }
      { s with cur := { s.cur with blkStart := n }, hostq := s.hostq.tail } :=
    .of_eq rfl rfl rfl rfl rfl
  cases hp : s.ctl.phase with
  | atHeader =>
    cases hd : decodeHeader s.streamRest with
    | error e =>
      obtain ⟨t, ht, hcut⟩ := (aCutShortBlockIsEndOfStream s e hb).1 hp hd
      exact ⟨t, ht, (hblk 0).trans hcut.outside⟩
    | ok r => exact hran r.1 r.2 (step_of_headerDecoded hb hp hd)
  | atBlock =>
    cases hd : decodeBlock s.streamRest with
    | error e =>
      obtain ⟨t, ht, hcut⟩ := (aCutShortBlockIsEndOfStream s e hb).2 hp hd
      exact ⟨t, ht, (hblk s.cur.pos).trans hcut.outside⟩
    | ok r => exact hran r.1 r.2 (step_of_blockDecoded hb hp hd)

/-- An engine step from a block boundary goes on, and of the host's side it changes only the pending
actions, by its own turn (45_decoder.md R152; log 2). -/
theorem step_of_turn_sameOutside {s : State} (hu : s.unit = .parser) (ht : s.EngineTurn) :
    ∃ t, step s = .next t ∧ State.SameOutside { s with hostq := s.hostq.tail } t := by
  cases hc : s.ctl.cancel with
  | true => exact ⟨_, step_of_cancelled hu ht hc, .of_eq rfl rfl rfl rfl rfl⟩
  | false => exact step_of_boundary_sameOutside ⟨ht, hu, hc⟩

/-! ### A completed block -/

/-- `t` is left by a step that completed the block at the cursor, `rest` being the stream after it: the
decode goes on or is done, the cursor is past the block, and the block's record is logged after some
change of the loop registers and the frames (45_decoder.md R154, R157). -/
structure State.Completes (s : State) (rest : List Byte) (t : State) : Prop where
  run : t.ctl.run = .busy ∨ t.ctl.run = .done
  took : rest.length < s.streamRest.length
  cur : t.cur = (s.fetched rest).cur
  logged : ∃ (o : Output) (r : EventRec), o.events = s.outp.events ∧
    o.evtCount = s.outp.evtCount ∧ r.off = s.blockOffset ∧ r.len = t.cur.pos - s.blockOffset ∧
    t.outp = o.emit s.params.maxEvents r

theorem State.Completes.run_ne_error {s t : State} {rest : List Byte} (h : s.Completes rest t) :
    t.ctl.run ≠ .error := by
  rcases h.run with hr | hr <;> simp [hr]

/-- An engine step raises an error or completes a block (45_decoder.md R152). -/
theorem State.EngineMove.fails_or_completes {s t : State} (hr : s.ctl.run = .busy)
    (hm : s.EngineMove t) : s.Fails t ∨ ∃ rest, s.Completes rest t := by
  cases hm with
  | rest h => exact absurd hr h
  | fails _ hf => exact .inl hf
  | header op rest hb hp hspell =>
    exact .inr ⟨rest, .inl hr, hspell.rest_lt, rfl, _, _, rfl, rfl, rfl, rfl, rfl⟩
  | extension gce loopCount loopValid kind label off len rest hb hp hlt =>
    exact .inr ⟨rest, .inl hr, hlt, rfl,
      { s.outp with loopCount := loopCount, loopValid := loopValid }, _, rfl, rfl, rfl, rfl, rfl⟩
  | image op canvas base rest hb hp hspell =>
    exact .inr ⟨rest, .inl hr, hspell.rest_lt, rfl,
      (((s.fetched rest).loadImage op).painted canvas base).deliver.outp, _, rfl, rfl, rfl, rfl, rfl⟩
  | trailer rest hb hp hd =>
    have hlt := (decodeBlock_spells hd).1.rest_lt
    exact .inr ⟨rest, .inr rfl, hlt, rfl, _, _, rfl, rfl, rfl, rfl, rfl⟩

/-- A step on the engine's turn raises an error or completes a block (45_decoder.md R152). -/
theorem step_fails_or_completes {s t : State} (hu : s.unit = .parser) (ht : s.EngineTurn)
    (h : step s = .next t) : s.Fails t ∨ ∃ rest, s.Completes rest t :=
  (State.engineMove_of_step hu ht.2 h).fails_or_completes ht.1

/-- A completed block moves the cursor forward, never past the stream's length (45_decoder.md R154;
10_state.md R24). -/
theorem State.Completes.progress {s t : State} {rest : List Byte} (h : s.Completes rest t) :
    s.cur.pos.toNat < t.cur.pos.toNat ∧ t.cur.pos.toNat ≤ t.cur.inLenL.toNat ∧
      t.cur.inLenL = s.cur.inLenL := by
  obtain ⟨hfwd, hend⟩ := State.fetched_pos h.took
  rw [h.cur]
  exact ⟨hfwd, hend, rfl⟩

/-- Settles O56: a completed block took at least one byte of the stream. -/
theorem everyEngineStepMovesTheCursor : Obligations.EveryEngineStepMovesTheCursor := by
  intro s t h ht hstep
  rcases step_fails_or_completes h.parser ht hstep with hf | ⟨rest, hc⟩
  · exact .inl hf.run
  · exact .inr hc.progress

/-! ### The record of a completed block -/

/-- The block at the cursor begins at the cursor: the header's cursor is 0 (10_state.md R20). -/
theorem State.Inv.blockOffset_eq {s : State} (h : s.Inv) (hr : s.ctl.run = .busy) :
    s.blockOffset = s.cur.pos := by
  cases hp : s.ctl.phase with
  | atHeader => simp only [State.blockOffset, hp, (h.beforeHeader hr hp).1]
  | atBlock => simp only [State.blockOffset, hp]

/-- A log that lists its events grows by the record, or is full and flags it (45_decoder.md R157). -/
theorem Output.emit_events_cases (n : Nat) {o : Output} (r : EventRec)
    (hl : o.events.length = o.evtCount.toNat) :
    (o.emit n r).events = o.events ∧ (o.emit n r).evtOvf = true ∨
      (o.emit n r).events = o.events ++ [r] := by
  rcases Nat.lt_or_ge o.evtCount.toNat n with h | h
  · exact .inr (Output.emit_events_of_room r hl h)
  · rw [Output.emit_of_full r h]
    exact .inl ⟨rfl, rfl⟩

/-- Settles O59: error entry keeps the log, and a completed block logs its one record. -/
theorem anEngineStepLogsAtMostItsBlock : Obligations.AnEngineStepLogsAtMostItsBlock := by
  intro s t h ht hstep
  rcases step_fails_or_completes h.parser ht hstep with hf | ⟨rest, hc⟩
  · exact ⟨fun _ => by rw [hf.outp], fun hne => absurd hf.run hne⟩
  · obtain ⟨o, r, hevents, hcount, hoff, hlen, houtp⟩ := hc.logged
    rw [h.blockOffset_eq ht.1] at hoff hlen
    have hl : o.events.length = o.evtCount.toNat := by rw [hevents, hcount]; exact h.events.1
    refine ⟨fun he => absurd he hc.run_ne_error, fun _ => ?_⟩
    rw [houtp, ← hevents]
    exact (Output.emit_events_cases _ r hl).imp id fun hgrown => ⟨r, hgrown, hoff, hlen⟩

/-! ### Every decode ends -/

theorem core_run_of_step {s t : State} (h : step s = .next t) (k : Nat) :
    Host.Core.run Sys2Proof.core (k + 1) s = Host.Core.run Sys2Proof.core k t := by
  have hcore : Host.Core.step Sys2Proof.core s = .next t := h
  simp only [Host.Core.run, hcore]

/-- With nothing pending but the engine's turns, the engine moves next (log 2). -/
theorem State.engineNext_of_turns {s : State} (h : ∀ a ∈ s.hostq, a = .engineTurn) :
    s.EngineNext := by
  cases hq : s.hostq with
  | nil => exact .inl hq
  | cons a q => exact .inr ⟨q, h a (hq ▸ List.mem_cons_self) ▸ hq⟩

/-- A decode with fewer than `n` stream bytes left ends within `n` engine steps: each takes a byte or
ends it (45_decoder.md R154). -/
theorem run_ends {n : Nat} {s : State} (h : s.Inv) (hr : s.ctl.run = .busy)
    (hq : ∀ a ∈ s.hostq, a = .engineTurn) (hn : s.cur.inLenL.toNat < s.cur.pos.toNat + n) :
    ∃ k t, k ≤ n ∧ Host.Core.run Sys2Proof.core k s = .next t ∧
      (t.ctl.run = .done ∨ t.ctl.run = .error) := by
  induction n generalizing s with
  | zero => exact absurd (h.cursor hr).1 (Nat.not_le.2 hn)
  | succ n ih =>
    have hturn : s.EngineTurn := ⟨hr, State.engineNext_of_turns hq⟩
    obtain ⟨t, hstep, hsame⟩ := step_of_turn_sameOutside h.parser hturn
    have hone (hend : t.ctl.run = .done ∨ t.ctl.run = .error) :
        ∃ k t, k ≤ n + 1 ∧ Host.Core.run Sys2Proof.core k s = .next t ∧
          (t.ctl.run = .done ∨ t.ctl.run = .error) :=
      ⟨1, t, Nat.le_add_left 1 n, core_run_of_step hstep 0, hend⟩
    rcases step_fails_or_completes h.parser hturn hstep with hf | ⟨rest, hc⟩
    · exact hone (.inr hf.run)
    · rcases hc.run with hbusy | hdone
      · obtain ⟨hfwd, -, hlen⟩ := hc.progress
        have htail : t.hostq = s.hostq.tail := hsame.hostq
        have hq' : ∀ a ∈ t.hostq, a = .engineTurn := fun a ha =>
          hq a (List.mem_of_mem_tail (htail ▸ ha))
        have hleft : t.cur.inLenL.toNat < t.cur.pos.toNat + n := by rw [hlen]; omega
        obtain ⟨k, u, hk, hrun, hend⟩ :=
          ih (everyStepKeepsTheInvariant s t h hstep) hbusy hq' hleft
        exact ⟨k + 1, u, Nat.succ_le_succ hk, (core_run_of_step hstep k).trans hrun, hend⟩
      · exact hone (.inl hdone)

/-- Settles O57: the stream has `in_len_l` bytes, at most that many of them left. -/
theorem everyDecodeEndsWithinItsLength : Obligations.EveryDecodeEndsWithinItsLength :=
  fun _ h hr hq => run_ends h hr hq (Nat.lt_of_lt_of_le (Nat.lt_succ_self _) (Nat.le_add_left _ _))

end Sys2Proof.Machine

end

/-! ## Reset

A hardware reset gives every register that R175 states the value it has at power-on, so what holds of one
of the two states carries over to the other but for the registers R175 leaves unspecified
(70_reset_and_hazards.md R175). -/

section

namespace Sys2Proof.Machine

/-! ### The values reset leaves -/

theorem State.reset_resetValues : State.reset.ResetValues where
  ctl := ⟨rfl, rfl, rfl, rfl⟩
  irq := rfl
  inLen := rfl
  scr := rfl
  tabs := ⟨rfl, rfl⟩
  gce := rfl
  comp := ⟨rfl, rfl, rfl⟩
  prev := ⟨rfl, rfl, rfl, rfl⟩
  outp := ⟨rfl, rfl, rfl, rfl⟩
  err := rfl

/-- The state machine and IN_LEN share their records with registers that are free after a reset; the
other stated registers are those of `State.reset`. -/
theorem State.hwReset_resetValues (s : State) : s.hwReset.ResetValues :=
  { State.reset_resetValues with
    ctl := ⟨rfl, rfl, rfl, rfl⟩
    irq := rfl
    inLen := rfl }

/-- Reset leaves the engine at rest (70_reset_and_hazards.md R175; 10_state.md R19). -/
theorem State.ResetValues.run_ne_busy {s : State} (h : s.ResetValues) : s.ctl.run ≠ .busy := by
  obtain ⟨hidle, -⟩ := h.ctl
  rw [hidle]
  nofun

/-! ### The engine takes no step after it -/

/-- Outside BUSY and with no host action pending nothing happens (10_state.md R19; log 23). -/
theorem step_of_rest_nil {s : State} (hr : s.ctl.run ≠ .busy) (hq : s.hostq = []) :
    step s = .next s := by
  have hsame : { s with hostq := s.hostq.tail } = s := by
    cases s
    cases hq
    rfl
  rw [step_of_rest hr (.inl hq), hsame]

/-- Settles O53: `State.hwReset` is the step's answer, and in IDLE the engine rests. -/
theorem resetLeavesTheStatedValues : Obligations.ResetLeavesTheStatedValues := by
  refine ⟨State.reset_resetValues, step_of_rest_nil State.reset_resetValues.run_ne_busy rfl, ?_⟩
  intro s q hturn
  have hvals := State.hwReset_resetValues { s with hostq := q }
  exact ⟨_, step_of_hwReset hturn, hvals, rfl, rfl, step_of_rest_nil hvals.run_ne_busy⟩

/-! ### The invariant at power-on -/

/-- Settles O54: what a hardware reset establishes of the stated registers holds at power-on too, and in
IDLE the clauses about a running decode, which speak of unspecified registers, ask nothing. -/
theorem theInvariantHoldsAtReset : Obligations.TheInvariantHoldsAtReset :=
  { State.hwReset_inv State.reset with
    cursor := nofun
    beforeHeader := nofun
    counts := nofun
    canvas := nofun }

end Sys2Proof.Machine

end
